-- ==== Sys2Proof/Word.lean ====
section
/-! DEFINITION. The word types of the block (00_scope.md R8, R11; 30_encoding.md R61). -/

namespace Sys2Proof

/-- A byte: 8 bits, unsigned, bit 7 the most significant (R11). -/
abbrev Byte := BitVec 8

/-- A request word (R61). -/
abbrev ReqWord := BitVec 32

/-- The value of a response (R61, R260). -/
abbrev Value := BitVec 16

/-- One bit, or the electrical level of a line: `false` is 0 (low), `true` is 1 (high) (R8). -/
abbrev Bit := Bool

end Sys2Proof
end

