-- ==== Sys2Proof/Config.lean ====
section
/-! DEFINITION. The static parameters of one block (00_scope.md R6, 10_state.md R28) as one record of plain data.
A state carries the record and no step writes it, so a claim about every state quantifies over every parameter. -/

namespace Sys2Proof

/-- The two controller variants (R2). -/
inductive Variant where
  /-- Controller A, 96 by 68 pixels. -/
  | a
  /-- Controller B, 84 by 48 pixels. -/
  | b
  deriving DecidableEq, Repr

/-- How command and data are told apart (R6, decision D4). -/
inductive DcStyle where
  /-- a dedicated line `DC` -/
  | line
  /-- one extra leading bit for each byte -/
  | inband
  deriving DecidableEq, Repr

/-- How a byte reaches the link (R6, decision D4). -/
inductive Xfer where
  /-- the bit-banged shifter -/
  | bitbang
  /-- the hardware transfer primitive -/
  | hw
  deriving DecidableEq, Repr

/-- The legal pairs of `DC_STYLE` and `XFER` (41_channel.md R117).
`(INBAND, HW)` "is not a configuration of this block", so it has no constructor (log entry 3). -/
inductive LinkStyle where
  | lineBitbang
  | lineHw
  | inbandBitbang
  deriving DecidableEq, Repr

/-- `DC_STYLE` of a legal pair. -/
def LinkStyle.dcStyle : LinkStyle → DcStyle
  | .lineBitbang => .line
  | .lineHw => .line
  | .inbandBitbang => .inband

/-- `XFER` of a legal pair. -/
def LinkStyle.xfer : LinkStyle → Xfer
  | .lineBitbang => .bitbang
  | .lineHw => .hw
  | .inbandBitbang => .bitbang

/-- The parameters an integrator chooses (R6, R28). The parameters that the variant alone fixes are functions in
Machine/Operands.lean. `RST_ACT(B)` is the opposite of `RST_ACT(A)` (R6), so only A's level is a field. -/
structure Config where
  /-- `VARIANT` -/
  variant : Variant
  /-- `DC_STYLE` and `XFER` -/
  link : LinkStyle
  /-- `RST_ACT(A)` -/
  rstActA : Bit
  /-- `RST_T_PULSE(B)`, milliseconds -/
  rstTPulseB : Nat
  /-- `RST_T_POST(B)`, milliseconds -/
  rstTPostB : Nat
  /-- `B_EXT_ENTER` -/
  bExtEnter : Byte
  /-- `B_EXT_EXIT` -/
  bExtExit : Byte
  /-- `GLYPH_W` -/
  glyphW : Nat
  /-- `Glyph`: index 0 to 94 to the glyph's columns; `GLYPH_COUNT` is 95 -/
  glyphs : Vector (List Byte) 95
  deriving DecidableEq, Repr

/-- The block that `State.reset` describes: the defaults of R6 where it gives them; variant A, `RST_ACT(A) = 0`, no extra
delays and an all-zero glyph table where it gives none (DESIGN CHOICE, log entry 2). -/
def Config.default : Config where
  variant := .a
  link := .inbandBitbang
  rstActA := false
  rstTPulseB := 0
  rstTPostB := 0
  bExtEnter := 0x21#8
  bExtExit := 0x20#8
  glyphW := 5
  glyphs := Vector.replicate 95 (List.replicate 5 0#8)

end Sys2Proof
end

