-- ==== Sys2Proof/Syntax.lean ====
section
/-! DEFINITION. The instructions: one constructor for each row of spec/opcode_table.json (30_encoding.md R62, R69, R70, R71),
and what stands at the request port. -/

namespace Sys2Proof

/-- The display mode operand (30_encoding.md R63 (b)). -/
inductive DisplayMode where
  | blank
  | normal
  | filled
  | inverse
  deriving DecidableEq, Repr

/-- The instructions. The first 28 are the operations of R62, with the operands of the request word (or its payload).
The last 20 are the wire command bytes of R69 to R71, with the fields of their patterns. -/
inductive Instr where
  /-- `SHIFT_BYTE(b)` -/
  | shiftByte (b : Byte)
  /-- `SEND_COMMAND(b)` -/
  | sendCommand (b : Byte)
  /-- `SEND_DATA[bs]` -/
  | sendData (bs : List Byte)
  /-- `SET_POSITION(col, page)` -/
  | setPosition (col page : Byte)
  /-- `CLEAR()` -/
  | clear
  /-- `PRINT_CHAR(code)` -/
  | printChar (code : Byte)
  /-- `PRINT[bs]` -/
  | print (bs : List Byte)
  /-- `GET_PIXEL_RES()` -/
  | getPixelRes
  /-- `GET_CHAR_RES()` -/
  | getCharRes
  /-- `A_SET_PAGE(page)` -/
  | aSetPage (page : Byte)
  /-- `A_SET_COLUMN(col)` -/
  | aSetColumn (col : Byte)
  /-- `A_SET_CONTRAST(c)` -/
  | aSetContrast (c : Byte)
  /-- `A_SET_MODE(m)` -/
  | aSetMode (m : DisplayMode)
  /-- `A_FLIP_H(f)` -/
  | aFlipH (f : Bit)
  /-- `A_FLIP_V(f)` -/
  | aFlipV (f : Bit)
  /-- `A_POWER_ON()` -/
  | aPowerOn
  /-- `A_DISPLAY_ENABLE()` -/
  | aDisplayEnable
  /-- `A_SCAN_START()` -/
  | aScanStart
  /-- `A_POWER_UP()` -/
  | aPowerUp
  /-- `A_INIT()` -/
  | aInit
  /-- `B_SET_PAGE(page)` -/
  | bSetPage (page : Byte)
  /-- `B_SET_COLUMN(col)` -/
  | bSetColumn (col : Byte)
  /-- `B_SET_COEFFS(v, t, b)` -/
  | bSetCoeffs (v t b : Byte)
  /-- `B_SET_MODE(m)` -/
  | bSetMode (m : DisplayMode)
  /-- `B_SET_ADDRESSING(vert)` -/
  | bSetAddressing (vert : Bit)
  /-- `B_DRAW_BUFFER[buf]` -/
  | bDrawBuffer (buf : List Byte)
  /-- `B_POWER_UP(v, t, b)` -/
  | bPowerUp (v t b : Byte)
  /-- `B_INIT(v, t, b)` -/
  | bInit (v t b : Byte)
  /-- `A.COL_LO`, `0000llll` -/
  | cmdAColLo (l : BitVec 4)
  /-- `A.COL_HI`, `0001hhhh` -/
  | cmdAColHi (h : BitVec 4)
  /-- `A.POWER_ON`, `00101111` -/
  | cmdAPowerOn
  /-- `A.SCAN_START`, `01000000` -/
  | cmdAScanStart
  /-- `A.CONTRAST`, `100ccccc` -/
  | cmdAContrast (c : BitVec 5)
  /-- `A.FLIP_H_ON`, `10100001` -/
  | cmdAFlipHOn
  /-- `A.ALL_ON`, `1010010a` -/
  | cmdAAllOn (a : BitVec 1)
  /-- `A.INVERSE`, `1010011i` -/
  | cmdAInverse (i : BitVec 1)
  /-- `A.FLIP_H_OFF`, `10101000` -/
  | cmdAFlipHOff
  /-- `A.DISPLAY_ENABLE`, `10101111` -/
  | cmdADisplayEnable
  /-- `A.SET_PAGE`, `10110ppp` -/
  | cmdASetPage (p : BitVec 3)
  /-- `A.FLIP_V`, `1100f000` -/
  | cmdAFlipV (f : BitVec 1)
  /-- `B.MODE`, `00001d0e` -/
  | cmdBMode (d e : BitVec 1)
  /-- `B.FUNCTION`, `001000vx` -/
  | cmdBFunction (v x : BitVec 1)
  /-- `B.SET_PAGE`, `01000ppp` -/
  | cmdBSetPage (p : BitVec 3)
  /-- `B.SET_COL`, `1ccccccc` -/
  | cmdBSetCol (c : BitVec 7)
  /-- `B.X.TEMP`, `000001tt` -/
  | cmdBXTemp (t : BitVec 2)
  /-- `B.X.BIAS`, `00010bbb` -/
  | cmdBXBias (b : BitVec 3)
  /-- `B.X.VOP`, `1vvvvvvv` -/
  | cmdBXVop (v : BitVec 7)
  /-- `B.X.EXIT`, the byte `B_EXT_EXIT` -/
  | cmdBXExit
  deriving DecidableEq, Repr

/-- The three tables of wire command bytes (R69, R70, R71). -/
inductive CommandTable where
  /-- CMD_A, Controller A -/
  | cmdA
  /-- CMD_B, Controller B, basic instruction set -/
  | cmdB
  /-- CMD_B_EXT, Controller B, extended instruction set -/
  | cmdBExt
  deriving DecidableEq, Repr

/-- What may stand at the request port. -/
inductive Request where
  /-- A 32-bit request word and, where one is given, its payload (R61). -/
  | word (req : ReqWord) (payload : Option (List Byte))
  /-- One wire command byte of a named table, to be sent as a command frame: the model's own way to hand the block a row
  of R69 to R71 (DESIGN CHOICE, log entry 10). -/
  | command (table : CommandTable) (byte : Byte)
  deriving DecidableEq, Repr

end Sys2Proof
end

