-- ==== Sys2Proof/WellFormed.lean ====
section
/-! DEFINITION. Which instructions, and which static parameters, are well formed. -/

namespace Sys2Proof

/-- `FRAME_LEN`: the length of a `B_DRAW_BUFFER` payload (00_scope.md R6, 20_memory.md R42). -/
def frameLen : Nat := 504

/-- An instruction is well formed when its payload has the length R62 fixes: `B_DRAW_BUFFER` takes exactly 504 bytes.
Every other operand fills its type: enumerated operands are closed types, numeric ones whole bytes (R63). -/
def Instr.wf : Instr → Bool
  | .bDrawBuffer buf => buf.length == frameLen
  | .shiftByte _ | .sendCommand _ | .sendData _ | .setPosition _ _ | .clear | .printChar _ | .print _ => true
  | .getPixelRes | .getCharRes => true
  | .aSetPage _ | .aSetColumn _ | .aSetContrast _ | .aSetMode _ | .aFlipH _ | .aFlipV _ => true
  | .aPowerOn | .aDisplayEnable | .aScanStart | .aPowerUp | .aInit => true
  | .bSetPage _ | .bSetColumn _ | .bSetCoeffs _ _ _ | .bSetMode _ | .bSetAddressing _ => true
  | .bPowerUp _ _ _ | .bInit _ _ _ => true
  | .cmdAColLo _ | .cmdAColHi _ | .cmdAPowerOn | .cmdAScanStart | .cmdAContrast _ | .cmdAFlipHOn => true
  | .cmdAAllOn _ | .cmdAInverse _ | .cmdAFlipHOff | .cmdADisplayEnable | .cmdASetPage _ | .cmdAFlipV _ => true
  | .cmdBMode _ _ | .cmdBFunction _ _ | .cmdBSetPage _ | .cmdBSetCol _ => true
  | .cmdBXTemp _ | .cmdBXBias _ | .cmdBXVop _ | .cmdBXExit => true

/-- The parameters are well formed when `GLYPH_W ≥ 1` and every glyph has `GLYPH_W` columns (R6). -/
def Config.wf (c : Config) : Bool :=
  decide (1 ≤ c.glyphW) && c.glyphs.toList.all (fun g => g.length == c.glyphW)

end Sys2Proof
end

