-- ==== Sys2Proof/Decode.lean ====
section
/-! DEFINITION. The decoder of what stands at the request port (30_encoding.md R61 to R64, R69 to R71; 60_exceptions.md R246),
total and refusing by reason, and after it the encoder, written from the same tables. -/

namespace Sys2Proof

/-! ## Which variant has an instruction -/

/-- The variant an instruction belongs to; `none` for the operations both variants have (R62; for the wire command bytes
the variant of their table, log entry 10). -/
def Instr.home : Instr → Option Variant
  | .shiftByte _ | .sendCommand _ | .sendData _ | .setPosition _ _ | .clear | .printChar _ | .print _ => none
  | .getPixelRes | .getCharRes => none
  | .aSetPage _ | .aSetColumn _ | .aSetContrast _ | .aSetMode _ | .aFlipH _ | .aFlipV _ => some .a
  | .aPowerOn | .aDisplayEnable | .aScanStart | .aPowerUp | .aInit => some .a
  | .bSetPage _ | .bSetColumn _ | .bSetCoeffs _ _ _ | .bSetMode _ | .bSetAddressing _ => some .b
  | .bDrawBuffer _ | .bPowerUp _ _ _ | .bInit _ _ _ => some .b
  | .cmdAColLo _ | .cmdAColHi _ | .cmdAPowerOn | .cmdAScanStart | .cmdAContrast _ | .cmdAFlipHOn => some .a
  | .cmdAAllOn _ | .cmdAInverse _ | .cmdAFlipHOff | .cmdADisplayEnable | .cmdASetPage _ | .cmdAFlipV _ => some .a
  | .cmdBMode _ _ | .cmdBFunction _ _ | .cmdBSetPage _ | .cmdBSetCol _ => some .b
  | .cmdBXTemp _ | .cmdBXBias _ | .cmdBXVop _ | .cmdBXExit => some .b

/-- Whether an instruction of home `h` exists on variant `v`. -/
def existsOn (h : Option Variant) (v : Variant) : Bool :=
  match h with
  | none => true
  | some w => w == v

/-! ## The request word -/

/-- `op`, bits 31 to 24 (R61). -/
def opField (w : ReqWord) : Byte := w.extractLsb' 24 8

/-- `a0`, bits 23 to 16 (R61). -/
def a0Field (w : ReqWord) : Byte := w.extractLsb' 16 8

/-- `a1`, bits 15 to 8 (R61). -/
def a1Field (w : ReqWord) : Byte := w.extractLsb' 8 8

/-- `a2`, bits 7 to 0 (R61). -/
def a2Field (w : ReqWord) : Byte := w.extractLsb' 0 8

/-- The mode encodings: 0 Blank, 1 Normal, 2 Filled, 3 Inverse; no other value spells a mode (R63 (b)). -/
def decodeMode (m : Byte) : Option DisplayMode :=
  match m.toNat with
  | 0 => some .blank
  | 1 => some .normal
  | 2 => some .filled
  | 3 => some .inverse
  | _ => none

/-- The flag encodings: 0 and 1; no other value spells a flag (R63 (b)). -/
def decodeFlag (f : Byte) : Option Bit :=
  match f.toNat with
  | 0 => some false
  | 1 => some true
  | _ => none

/-- `i`, where the unused operand fields are zero (R63 (a)). -/
def whenUnused (fields : List Byte) (i : Instr) : Option Instr :=
  if fields.all (fun f => f == 0#8) then some i else none

/-- Check 2 of R246: the operation a request word spells, with the payload `bs` put in where the operation takes one;
`none` where the word spells no operation (reserved `op`, nonzero unused field, enumerated operand out of its encoding:
R63 (a) and (b), R64). -/
def decodeWord (w : ReqWord) (bs : List Byte) : Option Instr :=
  let a0 := a0Field w
  let a1 := a1Field w
  let a2 := a2Field w
  match (opField w).toNat with
  | 0x01 => whenUnused [a1, a2] (.shiftByte a0)
  | 0x02 => whenUnused [a1, a2] (.sendCommand a0)
  | 0x03 => whenUnused [a0, a1, a2] (.sendData bs)
  | 0x04 => whenUnused [a2] (.setPosition a0 a1)
  | 0x05 => whenUnused [a0, a1, a2] .clear
  | 0x06 => whenUnused [a1, a2] (.printChar a0)
  | 0x07 => whenUnused [a0, a1, a2] (.print bs)
  | 0x08 => whenUnused [a0, a1, a2] .getPixelRes
  | 0x09 => whenUnused [a0, a1, a2] .getCharRes
  | 0x10 => whenUnused [a1, a2] (.aSetPage a0)
  | 0x11 => whenUnused [a1, a2] (.aSetColumn a0)
  | 0x12 => whenUnused [a1, a2] (.aSetContrast a0)
  | 0x13 => (decodeMode a0).bind (fun m => whenUnused [a1, a2] (.aSetMode m))
  | 0x14 => (decodeFlag a0).bind (fun f => whenUnused [a1, a2] (.aFlipH f))
  | 0x15 => (decodeFlag a0).bind (fun f => whenUnused [a1, a2] (.aFlipV f))
  | 0x16 => whenUnused [a0, a1, a2] .aPowerOn
  | 0x17 => whenUnused [a0, a1, a2] .aDisplayEnable
  | 0x18 => whenUnused [a0, a1, a2] .aScanStart
  | 0x19 => whenUnused [a0, a1, a2] .aPowerUp
  | 0x1A => whenUnused [a0, a1, a2] .aInit
  | 0x20 => whenUnused [a1, a2] (.bSetPage a0)
  | 0x21 => whenUnused [a1, a2] (.bSetColumn a0)
  | 0x22 => some (.bSetCoeffs a0 a1 a2)
  | 0x23 => (decodeMode a0).bind (fun m => whenUnused [a1, a2] (.bSetMode m))
  | 0x24 => (decodeFlag a0).bind (fun f => whenUnused [a1, a2] (.bSetAddressing f))
  | 0x25 => whenUnused [a0, a1, a2] (.bDrawBuffer bs)
  | 0x26 => some (.bPowerUp a0 a1 a2)
  | 0x27 => some (.bInit a0 a1 a2)
  | _ => none

/-! ## The wire command bytes -/

/-- Controller A's table (R69): match and mask of each row. -/
def decodeCommandA (b : Byte) : Option Instr :=
  if b &&& 0xF0#8 = 0x00#8 then some (.cmdAColLo (b.extractLsb' 0 4))
  else if b &&& 0xF0#8 = 0x10#8 then some (.cmdAColHi (b.extractLsb' 0 4))
  else if b = 0x2F#8 then some .cmdAPowerOn
  else if b = 0x40#8 then some .cmdAScanStart
  else if b &&& 0xE0#8 = 0x80#8 then some (.cmdAContrast (b.extractLsb' 0 5))
  else if b = 0xA1#8 then some .cmdAFlipHOn
  else if b &&& 0xFE#8 = 0xA4#8 then some (.cmdAAllOn (b.extractLsb' 0 1))
  else if b &&& 0xFE#8 = 0xA6#8 then some (.cmdAInverse (b.extractLsb' 0 1))
  else if b = 0xA8#8 then some .cmdAFlipHOff
  else if b = 0xAF#8 then some .cmdADisplayEnable
  else if b &&& 0xF8#8 = 0xB0#8 then some (.cmdASetPage (b.extractLsb' 0 3))
  else if b &&& 0xF7#8 = 0xC0#8 then some (.cmdAFlipV (b.extractLsb' 3 1))
  else none

/-- Controller B's basic table (R70). -/
def decodeCommandB (b : Byte) : Option Instr :=
  if b &&& 0xFA#8 = 0x08#8 then some (.cmdBMode (b.extractLsb' 2 1) (b.extractLsb' 0 1))
  else if b &&& 0xFC#8 = 0x20#8 then some (.cmdBFunction (b.extractLsb' 1 1) (b.extractLsb' 0 1))
  else if b &&& 0xF8#8 = 0x40#8 then some (.cmdBSetPage (b.extractLsb' 0 3))
  else if b &&& 0x80#8 = 0x80#8 then some (.cmdBSetCol (b.extractLsb' 0 7))
  else none

/-- The rows of Controller B's extended table that have a field (R71). -/
def decodeCoefficient (b : Byte) : Option Instr :=
  if b &&& 0xFC#8 = 0x04#8 then some (.cmdBXTemp (b.extractLsb' 0 2))
  else if b &&& 0xF8#8 = 0x10#8 then some (.cmdBXBias (b.extractLsb' 0 3))
  else if b &&& 0x80#8 = 0x80#8 then some (.cmdBXVop (b.extractLsb' 0 7))
  else none

/-- Controller B's extended table (R71), whose exit row is the parameter `B_EXT_EXIT`. "After one equal to `B_EXT_EXIT` the
basic table applies": the exit row comes first (DEDUCED, log entry 13). -/
def decodeCommandBExt (extExit b : Byte) : Option Instr :=
  if b = extExit then some .cmdBXExit else decodeCoefficient b

/-- The row a byte spells in one table. -/
def decodeCommand (extExit : Byte) (t : CommandTable) (b : Byte) : Option Instr :=
  match t with
  | .cmdA => decodeCommandA b
  | .cmdB => decodeCommandB b
  | .cmdBExt => decodeCommandBExt extExit b

/-! ## The whole decoder -/

/-- Why the decoder refuses a request (60_exceptions.md R244). -/
inductive DecodeError where
  /-- the word spells no operation (R63, R64) -/
  | illegalRequest
  /-- the operation is the other variant's (R62) -/
  | wrongVariant
  /-- a payload too many, too few, or of the wrong length (R63 (d)) -/
  | badPayload
  deriving DecidableEq, Repr

/-- Whether an operation takes a payload (R62). -/
def Instr.takesPayload : Instr → Bool
  | .sendData _ | .print _ | .bDrawBuffer _ => true
  | .shiftByte _ | .sendCommand _ | .setPosition _ _ | .clear | .printChar _ => false
  | .getPixelRes | .getCharRes => false
  | .aSetPage _ | .aSetColumn _ | .aSetContrast _ | .aSetMode _ | .aFlipH _ | .aFlipV _ => false
  | .aPowerOn | .aDisplayEnable | .aScanStart | .aPowerUp | .aInit => false
  | .bSetPage _ | .bSetColumn _ | .bSetCoeffs _ _ _ | .bSetMode _ | .bSetAddressing _ => false
  | .bPowerUp _ _ _ | .bInit _ _ _ => false
  | .cmdAColLo _ | .cmdAColHi _ | .cmdAPowerOn | .cmdAScanStart | .cmdAContrast _ | .cmdAFlipHOn => false
  | .cmdAAllOn _ | .cmdAInverse _ | .cmdAFlipHOff | .cmdADisplayEnable | .cmdASetPage _ | .cmdAFlipV _ => false
  | .cmdBMode _ _ | .cmdBFunction _ _ | .cmdBSetPage _ | .cmdBSetCol _ => false
  | .cmdBXTemp _ | .cmdBXBias _ | .cmdBXVop _ | .cmdBXExit => false

/-- Whether a frame buffer has the length `FRAME_LEN` that `B_DRAW_BUFFER` takes (R62, R165). -/
def fitsFrame (buf : List Byte) : Bool := buf.length == 504

/-- Whether the payload that came with a request suits its operation (R63 (d)). -/
def payloadSuits (i : Instr) (payload : Option (List Byte)) : Bool :=
  match payload with
  | none => !i.takesPayload
  | some bs => i.takesPayload && (match i with | .bDrawBuffer _ => fitsFrame bs | _ => true)

/-- Checks 3 and 4 of R246 on an operation that decoded. -/
def checkRequest (v : Variant) (payload : Option (List Byte)) (i : Instr) : Except DecodeError Instr :=
  if !existsOn i.home v then .error .wrongVariant
  else if !payloadSuits i payload then .error .badPayload
  else .ok i

/-- Checks 2 to 4 of R246: the instruction a request spells on the block `c`, or the first reason to refuse it. -/
def decodeRequest (c : Config) (r : Request) : Except DecodeError Instr :=
  match r with
  | .word w payload =>
    match decodeWord w (payload.getD []) with
    | none => .error .illegalRequest
    | some i => checkRequest c.variant payload i
  | .command t b =>
    match decodeCommand c.bExtExit t b with
    | none => .error .illegalRequest
    | some i => checkRequest c.variant none i

/-! ## The encoder -/

/-- A request word from its four fields (R61). -/
def packWord (op a0 a1 a2 : Byte) : ReqWord := ((op ++ a0 : BitVec 16) ++ a1 : BitVec 24) ++ a2

/-- The encoding of a mode (R63 (b)). -/
def encodeMode : DisplayMode → Byte
  | .blank => 0
  | .normal => 1
  | .filled => 2
  | .inverse => 3

/-- The encoding of a flag (R63 (b)). -/
def encodeFlag : Bit → Byte
  | false => 0
  | true => 1

/-- The request word of an operation, with no payload. -/
def plainWord (op a0 a1 a2 : Byte) : Request := .word (packWord op a0 a1 a2) none

/-! The wire command bytes, from the patterns of R69, R70 and R71. -/

def byteAColLo (l : BitVec 4) : Byte := 0b0000#4 ++ l
def byteAColHi (h : BitVec 4) : Byte := 0b0001#4 ++ h
def byteAPowerOn : Byte := 0b00101111#8
def byteAScanStart : Byte := 0b01000000#8
def byteAContrast (c : BitVec 5) : Byte := 0b100#3 ++ c
def byteAFlipHOn : Byte := 0b10100001#8
def byteAAllOn (a : BitVec 1) : Byte := 0b1010010#7 ++ a
def byteAInverse (i : BitVec 1) : Byte := 0b1010011#7 ++ i
def byteAFlipHOff : Byte := 0b10101000#8
def byteADisplayEnable : Byte := 0b10101111#8
def byteASetPage (p : BitVec 3) : Byte := 0b10110#5 ++ p
def byteAFlipV (f : BitVec 1) : Byte := (0b1100#4 ++ f : BitVec 5) ++ 0b000#3
def byteBMode (d e : BitVec 1) : Byte := ((0b00001#5 ++ d : BitVec 6) ++ 0b0#1 : BitVec 7) ++ e
def byteBFunction (v x : BitVec 1) : Byte := (0b001000#6 ++ v : BitVec 7) ++ x
def byteBSetPage (p : BitVec 3) : Byte := 0b01000#5 ++ p
def byteBSetCol (c : BitVec 7) : Byte := 0b1#1 ++ c
def byteBXTemp (t : BitVec 2) : Byte := 0b000001#6 ++ t
def byteBXBias (b : BitVec 3) : Byte := 0b00010#5 ++ b
def byteBXVop (v : BitVec 7) : Byte := 0b1#1 ++ v

/-- The request that spells an instruction on a block whose `B_EXT_EXIT` is `extExit` (R62, R69 to R71). -/
def encode (extExit : Byte) : Instr → Request
  | .shiftByte b => plainWord 0x01 b 0 0
  | .sendCommand b => plainWord 0x02 b 0 0
  | .sendData bs => .word (packWord 0x03 0 0 0) (some bs)
  | .setPosition col page => plainWord 0x04 col page 0
  | .clear => plainWord 0x05 0 0 0
  | .printChar code => plainWord 0x06 code 0 0
  | .print bs => .word (packWord 0x07 0 0 0) (some bs)
  | .getPixelRes => plainWord 0x08 0 0 0
  | .getCharRes => plainWord 0x09 0 0 0
  | .aSetPage page => plainWord 0x10 page 0 0
  | .aSetColumn col => plainWord 0x11 col 0 0
  | .aSetContrast c => plainWord 0x12 c 0 0
  | .aSetMode m => plainWord 0x13 (encodeMode m) 0 0
  | .aFlipH f => plainWord 0x14 (encodeFlag f) 0 0
  | .aFlipV f => plainWord 0x15 (encodeFlag f) 0 0
  | .aPowerOn => plainWord 0x16 0 0 0
  | .aDisplayEnable => plainWord 0x17 0 0 0
  | .aScanStart => plainWord 0x18 0 0 0
  | .aPowerUp => plainWord 0x19 0 0 0
  | .aInit => plainWord 0x1A 0 0 0
  | .bSetPage page => plainWord 0x20 page 0 0
  | .bSetColumn col => plainWord 0x21 col 0 0
  | .bSetCoeffs v t b => plainWord 0x22 v t b
  | .bSetMode m => plainWord 0x23 (encodeMode m) 0 0
  | .bSetAddressing vert => plainWord 0x24 (encodeFlag vert) 0 0
  | .bDrawBuffer buf => .word (packWord 0x25 0 0 0) (some buf)
  | .bPowerUp v t b => plainWord 0x26 v t b
  | .bInit v t b => plainWord 0x27 v t b
  | .cmdAColLo l => .command .cmdA (byteAColLo l)
  | .cmdAColHi h => .command .cmdA (byteAColHi h)
  | .cmdAPowerOn => .command .cmdA byteAPowerOn
  | .cmdAScanStart => .command .cmdA byteAScanStart
  | .cmdAContrast c => .command .cmdA (byteAContrast c)
  | .cmdAFlipHOn => .command .cmdA byteAFlipHOn
  | .cmdAAllOn a => .command .cmdA (byteAAllOn a)
  | .cmdAInverse i => .command .cmdA (byteAInverse i)
  | .cmdAFlipHOff => .command .cmdA byteAFlipHOff
  | .cmdADisplayEnable => .command .cmdA byteADisplayEnable
  | .cmdASetPage p => .command .cmdA (byteASetPage p)
  | .cmdAFlipV f => .command .cmdA (byteAFlipV f)
  | .cmdBMode d e => .command .cmdB (byteBMode d e)
  | .cmdBFunction v x => .command .cmdB (byteBFunction v x)
  | .cmdBSetPage p => .command .cmdB (byteBSetPage p)
  | .cmdBSetCol c => .command .cmdB (byteBSetCol c)
  | .cmdBXTemp t => .command .cmdBExt (byteBXTemp t)
  | .cmdBXBias b => .command .cmdBExt (byteBXBias b)
  | .cmdBXVop v => .command .cmdBExt (byteBXVop v)
  | .cmdBXExit => .command .cmdBExt extExit

/-! ## A row's word, as spec/opcode_table.json numbers its bits -/

/-- The exit byte the table shows for `B.X.EXIT`: the default of `B_EXT_EXIT` (R71). -/
def tableExtExit : Byte := 0x20#8

/-- The payload an operation takes when every bit above its word is zero: 504 zero bytes for `B_DRAW_BUFFER`, the empty
payload for `SEND_DATA` and `PRINT`, none for the others (log entry 12). -/
def zeroPayload (w : ReqWord) : Option (List Byte) :=
  match (opField w).toNat with
  | 0x03 => some []
  | 0x07 => some []
  | 0x25 => some (List.replicate 504 0#8)
  | _ => none

/-- How many bits of its byte a wire command row fixes (R69, R70, R71); 0 for the operations, which are no such rows. -/
def fixedBits : Instr → Nat
  | .cmdAColLo _ | .cmdAColHi _ => 4
  | .cmdAContrast _ => 3
  | .cmdAAllOn _ | .cmdAInverse _ | .cmdAFlipV _ => 7
  | .cmdASetPage _ | .cmdBSetPage _ | .cmdBXBias _ => 5
  | .cmdAPowerOn | .cmdAScanStart | .cmdAFlipHOn | .cmdAFlipHOff | .cmdADisplayEnable | .cmdBXExit => 8
  | .cmdBMode _ _ | .cmdBFunction _ _ | .cmdBXTemp _ => 6
  | .cmdBSetCol _ | .cmdBXVop _ => 1
  | .shiftByte _ | .sendCommand _ | .sendData _ | .setPosition _ _ | .clear | .printChar _ | .print _ => 0
  | .getPixelRes | .getCharRes => 0
  | .aSetPage _ | .aSetColumn _ | .aSetContrast _ | .aSetMode _ | .aFlipH _ | .aFlipV _ => 0
  | .aPowerOn | .aDisplayEnable | .aScanStart | .aPowerUp | .aInit => 0
  | .bSetPage _ | .bSetColumn _ | .bSetCoeffs _ _ _ | .bSetMode _ | .bSetAddressing _ => 0
  | .bDrawBuffer _ | .bPowerUp _ _ _ | .bInit _ _ _ => 0

/-- How many bits the row of table `t` that lists a byte fixes; 0 where no row does. -/
def rowFit (extExit : Byte) (t : CommandTable) (b : Byte) : Nat :=
  match decodeCommand extExit t b with
  | none => 0
  | some i => fixedBits i

/-- The table whose row fits a byte closest: the row with the most fixed bits, the first table among equals. One byte can be a
row of several tables, and the word alone does not say of which (DESIGN CHOICE, log entry 11). -/
def closestTable (extExit b : Byte) : CommandTable :=
  if rowFit extExit .cmdB b ≤ rowFit extExit .cmdA b ∧ rowFit extExit .cmdBExt b ≤ rowFit extExit .cmdA b then .cmdA
  else if rowFit extExit .cmdBExt b ≤ rowFit extExit .cmdB b then .cmdB
  else .cmdBExt

/-- The request that a table word stands for: a 32-bit word with its zero payload, or an 8-bit command byte of the table whose
row fits it closest. -/
def tableRequest (extExit : Byte) (nbits w : Nat) : Option Request :=
  if nbits = 32 then some (.word (BitVec.ofNat 32 w) (zeroPayload (BitVec.ofNat 32 w)))
  else if nbits = 8 then some (.command (closestTable extExit (BitVec.ofNat 8 w)) (BitVec.ofNat 8 w))
  else none

/-- The instruction a request spells on whichever variant has it: checks 2 and 4 of R246 without check 3. -/
def decodeAnywhere (extExit : Byte) (r : Request) : Option Instr :=
  match r with
  | .word w payload => (decodeWord w (payload.getD [])).bind (fun i => if payloadSuits i payload then some i else none)
  | .command t b => decodeCommand extExit t b

/-- The instruction the decoder reads from a word of the opcode table. -/
def decodeTableWord (nbits w : Nat) : Option Instr :=
  (tableRequest tableExtExit nbits w).bind (decodeAnywhere tableExtExit)

end Sys2Proof
end

