-- ==== Sys2Proof/Machine/State.lean ====
section
/-! DEFINITION. The state of one block (10_state.md R20, R33) as plain data, with the block's static parameters, its inputs
(requests and the environment's answers) and its record (trace and last response). -/

namespace Sys2Proof.Machine

/-- The five lines (R21). -/
inductive Line where
  | clk
  | data
  | cs
  | dc
  | rst
  deriving DecidableEq, Repr

/-- What a line register holds (R21, R22, R23). -/
inductive LineLevel where
  /-- the level the block last drove with success -/
  | level (v : Bit)
  /-- the marker of R23: no level may be relied on -/
  | unspecified
  /-- the line does not exist in this configuration (R22: `DC` when `DC_STYLE = INBAND`) -/
  | absent
  deriving DecidableEq, Repr

/-- The events of a trace (00_scope.md R8). -/
inductive Event where
  /-- `Set(L, v)` -/
  | set (l : Line) (v : Bit)
  /-- `Delay(n)`, milliseconds -/
  | delay (n : Nat)
  /-- `HwWrite(bs)` -/
  | hwWrite (bs : List Byte)
  deriving DecidableEq, Repr

/-- The environment's answer to a fallible event (R8). -/
inductive Answer where
  | ok
  | fail
  deriving DecidableEq, Repr

/-- One event of the trace with the answer it got; a `Delay`, which cannot fail, is entered with `ok`. -/
structure TraceEntry where
  event : Event
  answer : Answer
  deriving DecidableEq, Repr

/-- The outcomes of 60_exceptions.md R240. -/
inductive OpOutcome where
  | ok
  | linkFailure
  | preconditionViolation
  | unrepresentableGlyph
  | illegalRequest
  | wrongVariant
  | badPayload
  | refusedHalted
  deriving DecidableEq, Repr

/-- The response to a request (R260). -/
structure Response where
  outcome : OpOutcome
  value : Value
  deriving DecidableEq, Repr

/-- The block.
`cfg`: the static parameters (R6, R28), which no step writes.
`clk`, `data`, `cs`, `dc`, `rst`: the line registers (R21).
`halted`: the sticky flag (R24).
`rtrace`: the trace, newest event first (R12; bookkeeping, which no rule reads; log entry 6).
`answers`: the environment's answers to the fallible events still to come, the next one first (R8; log entry 4).
`requests`: the requests the host will present, the next one first (R57; log entry 5).
`response`: the last response, none before the first (R260; log entry 6). -/
structure State where
  cfg : Config
  clk : LineLevel
  data : LineLevel
  cs : LineLevel
  dc : LineLevel
  rst : LineLevel
  halted : Bool
  rtrace : List TraceEntry
  answers : List Answer
  requests : List Request
  response : Option Response
  deriving DecidableEq, Repr

/-- No step faults: every outcome of R240, `PreconditionViolation` among them, leaves a state that answers later requests,
so each is a next state (log entry 8). -/
inductive Fault where
  deriving DecidableEq, Repr

/-- Why a step has no meaning for an instruction. The four refusals of R240 are outcomes with a response and a next state,
not this (log entry 8). -/
inductive Refusal where
  /-- raised by an arm of `exec` for an instruction without a meaning; safe; no arm raises it -/
  | notModelled (mnemonic : String)
  deriving DecidableEq, Repr

/-- `line[DC]` after block reset: unspecified, or no line at all on an INBAND block (R33, R22). -/
def dcAtReset (link : LinkStyle) : LineLevel :=
  match link with
  | .lineBitbang => .unspecified
  | .lineHw => .unspecified
  | .inbandBitbang => .absent

/-- A block of parameters `c` right after block reset (R33, R280). -/
def State.ofConfig (c : Config) : State where
  cfg := c
  clk := .level false
  data := .unspecified
  cs := .level true
  dc := dcAtReset c.link
  rst := .unspecified
  halted := false
  rtrace := []
  answers := []
  requests := []
  response := none

/-- The machine right after block reset (R33, R280), with the parameters of `Config.default` (log entry 2). -/
def State.reset : State := State.ofConfig Config.default

/-- The trace, oldest event first (R12). -/
def State.trace (s : State) : List TraceEntry := s.rtrace.reverse

/-- `line[L]` (R9). -/
def State.line (s : State) : Line → LineLevel
  | .clk => s.clk
  | .data => s.data
  | .cs => s.cs
  | .dc => s.dc
  | .rst => s.rst

/-- `line[L] <- v` (R9). -/
def State.setLine (s : State) (l : Line) (v : LineLevel) : State :=
  match l with
  | .clk => { s with clk := v }
  | .data => { s with data := v }
  | .cs => { s with cs := v }
  | .dc => { s with dc := v }
  | .rst => { s with rst := v }

/-- One event and its answer appended to the trace. -/
def State.log (s : State) (e : Event) (a : Answer) : State := { s with rtrace := ⟨e, a⟩ :: s.rtrace }

/-- The next answer taken from the environment. -/
def State.consume (s : State) : State := { s with answers := s.answers.tail }

/-- The response of the current request. -/
def State.respond (s : State) (o : OpOutcome) (v : Value) : State := { s with response := some ⟨o, v⟩ }

/-- The flag `halted` set (R24). -/
def State.halt (s : State) : State := { s with halted := true }

/-- The same block with other requests to come. -/
def State.withRequests (s : State) (rs : List Request) : State := { s with requests := rs }

end Sys2Proof.Machine
end

