-- ==== Sys2Proof/Machine/Ops.lean ====
section
/-! DEFINITION. The shared operations: the pseudocode primitives of 00_scope.md R9, the chip-select scope of 41_channel.md
R110, how an operation ends (60_exceptions.md R240, R250), and block reset (70_reset_and_hazards.md R280). -/

namespace Sys2Proof.Machine

/-- What an operation can raise (R9, R240). -/
inductive Raise where
  | linkFailure
  | preconditionViolation
  | unrepresentableGlyph
  deriving DecidableEq, Repr

/-- A piece of an operation: it turns a state into the state it leaves, and ends normally (`none`) or with a raise. -/
abbrev Act := State → State × Option Raise

/-- Nothing at all. -/
def done : Act := fun s => (s, none)

/-- `raise X` (R9). -/
def raise (r : Raise) : Act := fun s => (s, some r)

/-- One piece after another; a raise ends both (R9: "a `raise` inside a sub-operation ends every enclosing operation too"). -/
def andThen (a b : Act) : Act := fun s =>
  match a s with
  | (s', none) => b s'
  | (s', some r) => (s', some r)

/-- Several pieces in order (R9, R54). -/
def inOrder : List Act → Act
  | [] => done
  | a :: as => andThen a (inOrder as)

/-- `require c` (R9). -/
def require (c : Bool) : Act := if c then done else raise .preconditionViolation

/-- A piece that depends on the static parameters. -/
def withConfig (f : Config → Act) : Act := fun s => f s.cfg s

/-! ## Events -/

/-- The environment's answer to the next fallible event: the first of the list; `ok` when the list has run out, so that a
list stands for every sequence of answers that is `ok` from some point on (log entry 4). -/
def State.nextAnswer (s : State) : Answer := s.answers.headD .ok

/-- The level a line register holds after `Set(L, v)` was answered (R9, R23). -/
def levelAfter (v : Bit) (a : Answer) : LineLevel :=
  match a with
  | .ok => .level v
  | .fail => .unspecified

/-- A failed answer raises `LinkFailure` (R9, R241). -/
def raiseOnFail (a : Answer) : Option Raise :=
  match a with
  | .ok => none
  | .fail => some .linkFailure

/-- The event `Set(L, v)`, whatever its answer: the event in the trace, the answer taken, the line at its new level. -/
def emitSet (l : Line) (v : Bit) (s : State) : State :=
  ((s.log (.set l v) s.nextAnswer).consume).setLine l (levelAfter v s.nextAnswer)

/-- `drive(L, v)` (R9). -/
def drive (l : Line) (v : Bit) : Act := fun s => (emitSet l v s, raiseOnFail s.nextAnswer)

/-- `drive_ignore(L, v)` (R9). -/
def driveIgnore (l : Line) (v : Bit) : Act := fun s => (emitSet l v s, none)

/-- `delay_ms(n)` (R9): it never fails and asks nothing of the environment's answers. -/
def delayMs (n : Nat) : Act := fun s => (s.log (.delay n) .ok, none)

/-- `hw_write(bs)` (R9): no line register changes. -/
def hwWrite (bs : List Byte) : Act := fun s =>
  ((s.log (.hwWrite bs) s.nextAnswer).consume, raiseOnFail s.nextAnswer)

/-- `CS_ACTIVE` (R6). -/
def csActive : Bit := false

/-- The end of a chip-select scope (R110): after `LinkFailure` one release whose answer is ignored, otherwise the normal
release, which may raise. No other raise arises inside a scope; it would pass through unchanged (R9). -/
def closeCs : State × Option Raise → State × Option Raise
  | (s, none) => drive .cs (!csActive) s
  | (s, some .linkFailure) => ((driveIgnore .cs (!csActive) s).1, some .linkFailure)
  | (s, some .preconditionViolation) => (s, some .preconditionViolation)
  | (s, some .unrepresentableGlyph) => (s, some .unrepresentableGlyph)

/-- `with_cs { body }` (R110). -/
def withCs (body : Act) : Act := fun s => closeCs (andThen (drive .cs csActive) body s)

/-! ## How an operation ends

An unsuccessful outcome "ends the operation; it reports the code; for `PreconditionViolation` it sets `halted`; ... It saves
nothing, switches no mode, masks nothing, and transfers control nowhere" (R250). There is no return operation (R252). -/

/-- The outcome a raise reports (R240). -/
def outcomeOf : Raise → OpOutcome
  | .linkFailure => .linkFailure
  | .preconditionViolation => .preconditionViolation
  | .unrepresentableGlyph => .unrepresentableGlyph

/-- What a raise does to the flag `halted` (R24, R242): only a precondition violation sets it. -/
def takeRaise (r : Raise) (s : State) : State :=
  match r with
  | .linkFailure => s
  | .preconditionViolation => s.halt
  | .unrepresentableGlyph => s

/-- The end of an operation whose value, if it ends `OK`, is `v` (R240, R250, R260). -/
def finish (v : Value) : State × Option Raise → State
  | (s, none) => s.respond .ok v
  | (s, some r) => (takeRaise r s).respond (outcomeOf r) 0

/-- A refused request: a response, and no other change (R240, R244, R245). -/
def refuse (o : OpOutcome) (s : State) : State := s.respond o 0

/-- The outcome of a request the decoder refuses (R244). -/
def refusalOf : DecodeError → OpOutcome
  | .illegalRequest => .illegalRequest
  | .wrongVariant => .wrongVariant
  | .badPayload => .badPayload

/-- The state an operation leaves: the checks that do not depend on its pseudocode, in the order of R246 (halted, variant,
payload), then the body. `home` is the variant that has the operation, `suits` whether its payload has the length it takes. -/
def answer (home : Option Variant) (suits : Bool) (value : Config → Value) (body : Act) (s : State) : State :=
  if s.halted then refuse .refusedHalted s
  else if !existsOn home s.cfg.variant then refuse .wrongVariant s
  else if !suits then refuse .badPayload s
  else finish (value s.cfg) (body s)

/-- An operation whose value is `value` (R194, R195). -/
def query (home : Option Variant) (value : Config → Value) (s : State) : Host.Outcome State Fault Refusal :=
  .next (answer home true value done s)

/-- An operation with no value (R61: `value` is zero). -/
def perform (home : Option Variant) (body : Act) (s : State) : Host.Outcome State Fault Refusal :=
  .next (answer home true (fun _ => 0) body s)

/-- An operation with no value whose payload has a fixed length. -/
def performSized (home : Option Variant) (suits : Bool) (body : Act) (s : State) : Host.Outcome State Fault Refusal :=
  .next (answer home suits (fun _ => 0) body s)

/-! ## Block reset -/

/-- Block reset (R280, R33): `halted` cleared, `CLK` 0, `CS` 1, the other lines unspecified, the trace empty, no event. The
static parameters stay; so do the inputs still to come (log entry 16). -/
def blockReset (s : State) : State :=
  { State.ofConfig s.cfg with answers := s.answers, requests := s.requests }

end Sys2Proof.Machine
end

