-- ==== Sys2Proof/Machine/Operands.lean ====
section
/-! DEFINITION. Operands: the parameters that the variant fixes (00_scope.md R6), the range checks (60_exceptions.md R242),
and how an operand is assembled into a command byte (30_encoding.md R72). -/

namespace Sys2Proof.Machine

/-! ## Geometry and limits (R6) -/

/-- `W` -/
def width : Variant → Nat
  | .a => 96
  | .b => 84

/-- `H_PX` -/
def heightPx : Variant → Nat
  | .a => 68
  | .b => 48

/-- `P` -/
def pages : Variant → Nat
  | .a => 8
  | .b => 6

/-- `CLEAR_LEN` (90_conflicts.md C1) -/
def clearLen : Variant → Nat
  | .a => 768
  | .b => 504

/-- `CONTRAST_LIM` -/
def contrastLim : Nat := 32

/-- `V_LIM` -/
def vLim : Nat := 91

/-- `T_LIM` -/
def tLim : Nat := 4

/-- `B_LIM` -/
def bLim : Nat := 8

/-- `DC_CMD`, and the kind 0 of a command byte (R6, R48) -/
def dcCmd : Bit := false

/-- `DC_DATA`, and the kind 1 of a data byte (R6, R48) -/
def dcData : Bit := true

/-- `RST_ACT(VARIANT)`; the two variants differ (R6) -/
def rstAct (c : Config) : Bit :=
  match c.variant with
  | .a => c.rstActA
  | .b => !c.rstActA

/-- `RST_T_PRE(VARIANT)`, milliseconds (R220) -/
def rstTPre (c : Config) : Nat :=
  match c.variant with
  | .a => 50
  | .b => 10

/-- `RST_T_PULSE(VARIANT)`, milliseconds (R220) -/
def rstTPulse (c : Config) : Nat :=
  match c.variant with
  | .a => 5
  | .b => c.rstTPulseB

/-- `RST_T_POST(VARIANT)`, milliseconds (R220) -/
def rstTPost (c : Config) : Nat :=
  match c.variant with
  | .a => 10
  | .b => c.rstTPostB

/-! ## Range checks (R242) -/

/-- An operand is below its limit. -/
def below (x : Byte) (limit : Nat) : Bool := decide (x.toNat < limit)

/-- The three coefficient checks, in the order of R162. -/
def requireCoeffs (v t b : Byte) : Act := inOrder [require (below v vLim), require (below t tLim), require (below b bLim)]

/-! ## Command bytes (R72) -/

/-- `0xB0 | page` -/
def byteForPageA (page : Byte) : Byte := 0xB0#8 ||| page

/-- `0x10 | (col >> 4)` -/
def byteForColumnHighA (col : Byte) : Byte := 0x10#8 ||| (col >>> 4)

/-- `0x00 | (col & 0xF)` -/
def byteForColumnLowA (col : Byte) : Byte := 0x00#8 ||| (col &&& 0x0F#8)

/-- `0x80 | c` -/
def byteForContrastA (c : Byte) : Byte := 0x80#8 ||| c

/-- `all_on` of Controller A's mode table (R133) -/
def allOnOf : DisplayMode → Byte
  | .blank => 1
  | .normal => 0
  | .filled => 1
  | .inverse => 0

/-- `inverse` of Controller A's mode table (R133) -/
def inverseOf : DisplayMode → Byte
  | .blank => 1
  | .normal => 0
  | .filled => 0
  | .inverse => 1

/-- `0xA6 | inverse` -/
def byteForInverseA (m : DisplayMode) : Byte := 0xA6#8 ||| inverseOf m

/-- `0xA4 | all_on` -/
def byteForAllOnA (m : DisplayMode) : Byte := 0xA4#8 ||| allOnOf m

/-- `0xA1` flipped, `0xA8` normal (R134) -/
def byteForFlipHA (f : Bit) : Byte := if f then 0xA1#8 else 0xA8#8

/-- `0xC8` flipped, `0xC0` normal (R135) -/
def byteForFlipVA (f : Bit) : Byte := if f then 0xC8#8 else 0xC0#8

/-- `0x40 | page` -/
def byteForPageB (page : Byte) : Byte := 0x40#8 ||| page

/-- `0x80 | col` -/
def byteForColumnB (col : Byte) : Byte := 0x80#8 ||| col

/-- `0x80 | v` -/
def byteForVoltage (v : Byte) : Byte := 0x80#8 ||| v

/-- `0x04 | t` -/
def byteForTemperature (t : Byte) : Byte := 0x04#8 ||| t

/-- `0x10 | b` -/
def byteForBias (b : Byte) : Byte := 0x10#8 ||| b

/-- Controller B's mode table (R163, 90_conflicts.md C7) -/
def byteForModeB : DisplayMode → Byte
  | .blank => 0x08#8
  | .normal => 0x0C#8
  | .filled => 0x09#8
  | .inverse => 0x0D#8

/-- `0x22` vertical, `0x20` horizontal (R164) -/
def byteForAddressing (vert : Bit) : Byte := if vert then 0x22#8 else 0x20#8

/-! ## Characters and results -/

/-- `Glyph(code - 0x20)` where the code has a glyph; the table is never asked outside 0 to 94 (R43, 93 U1). -/
def glyphOf (c : Config) (code : Byte) : Option (List Byte) :=
  if h : 0x20 ≤ code.toNat ∧ code.toNat ≤ 0x7E then some (c.glyphs[code.toNat - 0x20]'(by omega)) else none

/-- `(first << 8) | second` (R194, R195). -/
def packPair (first second : Nat) : Value := (BitVec.ofNat 16 first <<< 8) ||| BitVec.ofNat 16 second

/-- The value of `GET_PIXEL_RES` (R194). -/
def pixelRes (c : Config) : Value := packPair (width c.variant) (heightPx c.variant)

/-- The value of `GET_CHAR_RES`: `CHAR_COLS = floor(W / (GLYPH_W + 1))`, `CHAR_ROWS = P` (R195). -/
def charRes (c : Config) : Value := packPair (width c.variant / (c.glyphW + 1)) (pages c.variant)

end Sys2Proof.Machine
end

