-- ==== Sys2Proof/Machine/Shift.lean ====
section
/-! DEFINITION. The serial byte transfer (40_serial_shift.md R100, R101). -/

namespace Sys2Proof.Machine

/-- `SHIFT_BIT(v)` (R100). -/
def shiftBit (v : Bit) : Act := inOrder [drive .data v, drive .clk true, drive .clk false]

/-- `SHIFT_BYTE(b)` (R101): bit 7 first. -/
def shiftByte (b : Byte) : Act := inOrder ([7, 6, 5, 4, 3, 2, 1, 0].map (fun n => shiftBit (b.getLsbD n)))

/-- `SHIFT_BYTE` requested directly: it bit-bangs on every block and touches no chip-select (R101). -/
def execShiftByte (b : Byte) (s : State) : Host.Outcome State Fault Refusal := perform none (shiftByte b) s

end Sys2Proof.Machine
end

