-- ==== Sys2Proof/Machine/Channel.lean ====
section
/-! DEFINITION. The command/data channel (41_channel.md R111 to R113). -/

namespace Sys2Proof.Machine

/-- `send_frames(k, bs)` (R111). -/
def sendFrames (k : Bit) (bs : List Byte) : Act := withConfig (fun c =>
  match c.link with
  | .lineBitbang => andThen (drive .dc k) (inOrder (bs.map shiftByte))
  | .lineHw => andThen (drive .dc k) (hwWrite bs)
  | .inbandBitbang => inOrder (bs.map (fun b => andThen (shiftBit k) (shiftByte b))))

/-- `SEND_COMMAND(b)` (R112). -/
def sendCommand (b : Byte) : Act := withCs (sendFrames dcCmd [b])

/-- `SEND_DATA[bs]` (R113): one chip-select scope for the whole burst (R114). -/
def sendData (bs : List Byte) : Act := withCs (sendFrames dcData bs)

/-- Several commands, each in a scope of its own (R112). -/
def sendCommands (bytes : List Byte) : Act := inOrder (bytes.map sendCommand)

def execSendCommand (b : Byte) (s : State) : Host.Outcome State Fault Refusal := perform none (sendCommand b) s

def execSendData (bs : List Byte) (s : State) : Host.Outcome State Fault Refusal := perform none (sendData bs) s

end Sys2Proof.Machine
end

