-- ==== Sys2Proof/Machine/EncoderA.lean ====
section
/-! DEFINITION. Controller A's encoder (42_encoder_a.md R130 to R138); `A_POWER_UP`, which calls `CLEAR`, stands in
Machine/Composite.lean. -/

namespace Sys2Proof.Machine

/-- R130 -/
def aSetPage (page : Byte) : Act := andThen (require (below page (pages .a))) (sendCommand (byteForPageA page))

/-- R131: the high nibble first. -/
def aSetColumn (col : Byte) : Act :=
  andThen (require (below col (width .a))) (sendCommands [byteForColumnHighA col, byteForColumnLowA col])

/-- R132 -/
def aSetContrast (c : Byte) : Act := andThen (require (below c contrastLim)) (sendCommand (byteForContrastA c))

/-- R133: the inverse command first (90_conflicts.md C3). -/
def aSetMode (m : DisplayMode) : Act := sendCommands [byteForInverseA m, byteForAllOnA m]

/-- R134 -/
def aFlipH (f : Bit) : Act := sendCommand (byteForFlipHA f)

/-- R135 -/
def aFlipV (f : Bit) : Act := sendCommand (byteForFlipVA f)

/-- R136 -/
def aPowerOn : Act := sendCommand 0x2F#8

/-- R137 -/
def aDisplayEnable : Act := sendCommand 0xAF#8

/-- R138 -/
def aScanStart : Act := sendCommand 0x40#8

def execASetPage (page : Byte) (s : State) : Host.Outcome State Fault Refusal := perform (some .a) (aSetPage page) s

def execASetColumn (col : Byte) (s : State) : Host.Outcome State Fault Refusal := perform (some .a) (aSetColumn col) s

def execASetContrast (c : Byte) (s : State) : Host.Outcome State Fault Refusal := perform (some .a) (aSetContrast c) s

def execASetMode (m : DisplayMode) (s : State) : Host.Outcome State Fault Refusal := perform (some .a) (aSetMode m) s

def execAFlipH (f : Bit) (s : State) : Host.Outcome State Fault Refusal := perform (some .a) (aFlipH f) s

def execAFlipV (f : Bit) (s : State) : Host.Outcome State Fault Refusal := perform (some .a) (aFlipV f) s

def execAPowerOn (s : State) : Host.Outcome State Fault Refusal := perform (some .a) aPowerOn s

def execADisplayEnable (s : State) : Host.Outcome State Fault Refusal := perform (some .a) aDisplayEnable s

def execAScanStart (s : State) : Host.Outcome State Fault Refusal := perform (some .a) aScanStart s

end Sys2Proof.Machine
end

