-- ==== Sys2Proof/Machine/EncoderB.lean ====
section
/-! DEFINITION. Controller B's encoder (43_encoder_b.md R160 to R164); `B_DRAW_BUFFER` and `B_POWER_UP`, which call façade
operations, stand in Machine/Composite.lean. -/

namespace Sys2Proof.Machine

/-- R160 -/
def bSetPage (page : Byte) : Act := andThen (require (below page (pages .b))) (sendCommand (byteForPageB page))

/-- R161 -/
def bSetColumn (col : Byte) : Act := andThen (require (below col (width .b))) (sendCommand (byteForColumnB col))

/-- R162: the three checks, then the bracket of five commands. -/
def bSetCoeffs (v t b : Byte) : Act := andThen (requireCoeffs v t b) (withConfig (fun c =>
  sendCommands [c.bExtEnter, byteForVoltage v, byteForTemperature t, byteForBias b, c.bExtExit]))

/-- R163 -/
def bSetMode (m : DisplayMode) : Act := sendCommand (byteForModeB m)

/-- R164 -/
def bSetAddressing (vert : Bit) : Act := sendCommand (byteForAddressing vert)

def execBSetPage (page : Byte) (s : State) : Host.Outcome State Fault Refusal := perform (some .b) (bSetPage page) s

def execBSetColumn (col : Byte) (s : State) : Host.Outcome State Fault Refusal := perform (some .b) (bSetColumn col) s

def execBSetCoeffs (v t b : Byte) (s : State) : Host.Outcome State Fault Refusal :=
  perform (some .b) (bSetCoeffs v t b) s

def execBSetMode (m : DisplayMode) (s : State) : Host.Outcome State Fault Refusal := perform (some .b) (bSetMode m) s

def execBSetAddressing (vert : Bit) (s : State) : Host.Outcome State Fault Refusal :=
  perform (some .b) (bSetAddressing vert) s

end Sys2Proof.Machine
end

