-- ==== Sys2Proof/Machine/Facade.lean ====
section
/-! DEFINITION. The generic display façade (44_facade.md R190 to R195). -/

namespace Sys2Proof.Machine

/-- `SET_POSITION(col, page)` (R190): both bounds first, then the page command, then the column commands. -/
def setPosition (col page : Byte) : Act := withConfig (fun c =>
  inOrder [require (below col (width c.variant)), require (below page (pages c.variant)),
    match c.variant with
    | .a => andThen (aSetPage page) (aSetColumn col)
    | .b => andThen (bSetPage page) (bSetColumn col)])

/-- `CLEAR()` (R191): the zero fill is one burst. -/
def clear : Act := withConfig (fun c =>
  inOrder [setPosition 0 0, sendData (List.replicate (clearLen c.variant) 0#8), setPosition 0 0])

/-- `PRINT_CHAR(code)` (R192): the range check before any event, then the glyph and the gap as two bursts. -/
def printChar (code : Byte) : Act := withConfig (fun c =>
  match glyphOf c code with
  | none => raise .unrepresentableGlyph
  | some g => andThen (sendData g) (sendData [0x00#8]))

/-- `PRINT[bs]` (R193): each character checked when its turn comes. -/
def print (bs : List Byte) : Act := inOrder (bs.map printChar)

def execSetPosition (col page : Byte) (s : State) : Host.Outcome State Fault Refusal :=
  perform none (setPosition col page) s

def execClear (s : State) : Host.Outcome State Fault Refusal := perform none clear s

def execPrintChar (code : Byte) (s : State) : Host.Outcome State Fault Refusal := perform none (printChar code) s

def execPrint (bs : List Byte) (s : State) : Host.Outcome State Fault Refusal := perform none (print bs) s

def execGetPixelRes (s : State) : Host.Outcome State Fault Refusal := query none pixelRes s

def execGetCharRes (s : State) : Host.Outcome State Fault Refusal := query none charRes s

end Sys2Proof.Machine
end

