-- ==== Sys2Proof/Machine/Composite.lean ====
section
/-! DEFINITION. The encoder operations that call façade operations: `A_POWER_UP` (42_encoder_a.md R139), `B_DRAW_BUFFER` and
`B_POWER_UP` (43_encoder_b.md R165, R166). -/

namespace Sys2Proof.Machine

/-- `A_POWER_UP()` (R139). -/
def aPowerUp : Act :=
  inOrder [aPowerOn, aSetContrast 0, aSetMode .normal, aDisplayEnable, aScanStart, clear]

/-- `B_DRAW_BUFFER[buf]` (R165). -/
def bDrawBuffer (buf : List Byte) : Act :=
  inOrder [sendCommand (byteForAddressing true), setPosition 0 0, sendData buf,
    sendCommand (byteForAddressing false), setPosition 0 0]

/-- `B_POWER_UP(v, t, b)` (R166). -/
def bPowerUp (v t b : Byte) : Act :=
  inOrder [requireCoeffs v t b, bSetCoeffs v t b, bSetMode .normal, clear]

def execAPowerUp (s : State) : Host.Outcome State Fault Refusal := perform (some .a) aPowerUp s

def execBDrawBuffer (buf : List Byte) (s : State) : Host.Outcome State Fault Refusal :=
  performSized (some .b) (fitsFrame buf) (bDrawBuffer buf) s

def execBPowerUp (v t b : Byte) (s : State) : Host.Outcome State Fault Refusal := perform (some .b) (bPowerUp v t b) s

end Sys2Proof.Machine
end

