-- ==== Sys2Proof/Machine/Sequencer.lean ====
section
/-! DEFINITION. The initialisation and reset sequencer (45_sequencer.md R220 to R222). -/

namespace Sys2Proof.Machine

/-- `reset_pulse()` (R220): six events, outside any chip-select scope. -/
def resetPulse : Act := withConfig (fun c =>
  inOrder [drive .rst (!rstAct c), delayMs (rstTPre c), drive .rst (rstAct c), delayMs (rstTPulse c),
    drive .rst (!rstAct c), delayMs (rstTPost c)])

/-- `A_INIT()` (R221). -/
def aInit : Act := andThen resetPulse aPowerUp

/-- `B_INIT(v, t, b)` (R222): the checks before the pulse. -/
def bInit (v t b : Byte) : Act := inOrder [requireCoeffs v t b, resetPulse, bPowerUp v t b]

def execAInit (s : State) : Host.Outcome State Fault Refusal := perform (some .a) aInit s

def execBInit (v t b : Byte) (s : State) : Host.Outcome State Fault Refusal := perform (some .b) (bInit v t b) s

end Sys2Proof.Machine
end

