-- ==== Sys2Proof/Machine/WireCommands.lean ====
section
/-! DEFINITION. The wire command bytes of 30_encoding.md R69 to R71 as instructions of the block. The block "produces these
bytes; it never decodes them" (R60): what a row does on the block is that its byte is sent as one command frame (R112), on a
block of the row's variant (DESIGN CHOICE, log entry 10). -/

namespace Sys2Proof.Machine

/-- One wire command byte of a table of variant `v`, sent as a command frame. -/
def sendWire (v : Variant) (b : Byte) (s : State) : Host.Outcome State Fault Refusal := perform (some v) (sendCommand b) s

def execCmdAColLo (l : BitVec 4) (s : State) : Host.Outcome State Fault Refusal := sendWire .a (byteAColLo l) s
def execCmdAColHi (h : BitVec 4) (s : State) : Host.Outcome State Fault Refusal := sendWire .a (byteAColHi h) s
def execCmdAPowerOn (s : State) : Host.Outcome State Fault Refusal := sendWire .a byteAPowerOn s
def execCmdAScanStart (s : State) : Host.Outcome State Fault Refusal := sendWire .a byteAScanStart s
def execCmdAContrast (c : BitVec 5) (s : State) : Host.Outcome State Fault Refusal := sendWire .a (byteAContrast c) s
def execCmdAFlipHOn (s : State) : Host.Outcome State Fault Refusal := sendWire .a byteAFlipHOn s
def execCmdAAllOn (a : BitVec 1) (s : State) : Host.Outcome State Fault Refusal := sendWire .a (byteAAllOn a) s
def execCmdAInverse (i : BitVec 1) (s : State) : Host.Outcome State Fault Refusal := sendWire .a (byteAInverse i) s
def execCmdAFlipHOff (s : State) : Host.Outcome State Fault Refusal := sendWire .a byteAFlipHOff s
def execCmdADisplayEnable (s : State) : Host.Outcome State Fault Refusal := sendWire .a byteADisplayEnable s
def execCmdASetPage (p : BitVec 3) (s : State) : Host.Outcome State Fault Refusal := sendWire .a (byteASetPage p) s
def execCmdAFlipV (f : BitVec 1) (s : State) : Host.Outcome State Fault Refusal := sendWire .a (byteAFlipV f) s
def execCmdBMode (d e : BitVec 1) (s : State) : Host.Outcome State Fault Refusal := sendWire .b (byteBMode d e) s
def execCmdBFunction (v x : BitVec 1) (s : State) : Host.Outcome State Fault Refusal := sendWire .b (byteBFunction v x) s
def execCmdBSetPage (p : BitVec 3) (s : State) : Host.Outcome State Fault Refusal := sendWire .b (byteBSetPage p) s
def execCmdBSetCol (c : BitVec 7) (s : State) : Host.Outcome State Fault Refusal := sendWire .b (byteBSetCol c) s
def execCmdBXTemp (t : BitVec 2) (s : State) : Host.Outcome State Fault Refusal := sendWire .b (byteBXTemp t) s
def execCmdBXBias (b : BitVec 3) (s : State) : Host.Outcome State Fault Refusal := sendWire .b (byteBXBias b) s
def execCmdBXVop (v : BitVec 7) (s : State) : Host.Outcome State Fault Refusal := sendWire .b (byteBXVop v) s

/-- `B.X.EXIT`: the byte is the parameter `B_EXT_EXIT` of this block (R71). -/
def execCmdBXExit (s : State) : Host.Outcome State Fault Refusal :=
  perform (some .b) (withConfig (fun c => sendCommand c.bExtExit)) s

end Sys2Proof.Machine
end

