-- ==== Sys2Proof/Machine/Dispatch.lean ====
section
/-! DEFINITION. One arm for each constructor of Instr, in the order of spec/opcode_table.json. -/

namespace Sys2Proof.Machine

def exec (i : Instr) (s : State) : Host.Outcome State Fault Refusal :=
  match i with
  | .shiftByte b => Sys2Proof.Machine.execShiftByte b s
  | .sendCommand b => Sys2Proof.Machine.execSendCommand b s
  | .sendData bs => Sys2Proof.Machine.execSendData bs s
  | .setPosition col page => Sys2Proof.Machine.execSetPosition col page s
  | .clear => Sys2Proof.Machine.execClear s
  | .printChar code => Sys2Proof.Machine.execPrintChar code s
  | .print bs => Sys2Proof.Machine.execPrint bs s
  | .getPixelRes => Sys2Proof.Machine.execGetPixelRes s
  | .getCharRes => Sys2Proof.Machine.execGetCharRes s
  | .aSetPage page => Sys2Proof.Machine.execASetPage page s
  | .aSetColumn col => Sys2Proof.Machine.execASetColumn col s
  | .aSetContrast c => Sys2Proof.Machine.execASetContrast c s
  | .aSetMode m => Sys2Proof.Machine.execASetMode m s
  | .aFlipH f => Sys2Proof.Machine.execAFlipH f s
  | .aFlipV f => Sys2Proof.Machine.execAFlipV f s
  | .aPowerOn => Sys2Proof.Machine.execAPowerOn s
  | .aDisplayEnable => Sys2Proof.Machine.execADisplayEnable s
  | .aScanStart => Sys2Proof.Machine.execAScanStart s
  | .aPowerUp => Sys2Proof.Machine.execAPowerUp s
  | .aInit => Sys2Proof.Machine.execAInit s
  | .bSetPage page => Sys2Proof.Machine.execBSetPage page s
  | .bSetColumn col => Sys2Proof.Machine.execBSetColumn col s
  | .bSetCoeffs v t b => Sys2Proof.Machine.execBSetCoeffs v t b s
  | .bSetMode m => Sys2Proof.Machine.execBSetMode m s
  | .bSetAddressing vert => Sys2Proof.Machine.execBSetAddressing vert s
  | .bDrawBuffer buf => Sys2Proof.Machine.execBDrawBuffer buf s
  | .bPowerUp v t b => Sys2Proof.Machine.execBPowerUp v t b s
  | .bInit v t b => Sys2Proof.Machine.execBInit v t b s
  | .cmdAColLo l => Sys2Proof.Machine.execCmdAColLo l s
  | .cmdAColHi h => Sys2Proof.Machine.execCmdAColHi h s
  | .cmdAPowerOn => Sys2Proof.Machine.execCmdAPowerOn s
  | .cmdAScanStart => Sys2Proof.Machine.execCmdAScanStart s
  | .cmdAContrast c => Sys2Proof.Machine.execCmdAContrast c s
  | .cmdAFlipHOn => Sys2Proof.Machine.execCmdAFlipHOn s
  | .cmdAAllOn a => Sys2Proof.Machine.execCmdAAllOn a s
  | .cmdAInverse x => Sys2Proof.Machine.execCmdAInverse x s
  | .cmdAFlipHOff => Sys2Proof.Machine.execCmdAFlipHOff s
  | .cmdADisplayEnable => Sys2Proof.Machine.execCmdADisplayEnable s
  | .cmdASetPage p => Sys2Proof.Machine.execCmdASetPage p s
  | .cmdAFlipV f => Sys2Proof.Machine.execCmdAFlipV f s
  | .cmdBMode d e => Sys2Proof.Machine.execCmdBMode d e s
  | .cmdBFunction v x => Sys2Proof.Machine.execCmdBFunction v x s
  | .cmdBSetPage p => Sys2Proof.Machine.execCmdBSetPage p s
  | .cmdBSetCol c => Sys2Proof.Machine.execCmdBSetCol c s
  | .cmdBXTemp t => Sys2Proof.Machine.execCmdBXTemp t s
  | .cmdBXBias b => Sys2Proof.Machine.execCmdBXBias b s
  | .cmdBXVop v => Sys2Proof.Machine.execCmdBXVop v s
  | .cmdBXExit => Sys2Proof.Machine.execCmdBXExit s

end Sys2Proof.Machine
end

