-- ==== Sys2Proof/Machine/Flags.lean ====
section
/-! DEFINITION. The block's one flag is `halted` (10_state.md R24); it has no condition codes (R27). Here stand the outcome
codes of a response (60_exceptions.md R240, R260). -/

namespace Sys2Proof.Machine

/-- The outcome codes, 3 bits (R240, R260). -/
def OpOutcome.code : OpOutcome → BitVec 3
  | .ok => 0
  | .linkFailure => 1
  | .preconditionViolation => 2
  | .unrepresentableGlyph => 3
  | .illegalRequest => 4
  | .wrongVariant => 5
  | .badPayload => 6
  | .refusedHalted => 7

/-- The response port: outcome code and value (R260). -/
def Response.port (r : Response) : BitVec 3 × Value := (r.outcome.code, r.value)

end Sys2Proof.Machine
end

