-- ==== Sys2Proof/Machine/Port.lean ====
section
/-! DEFINITION. The request port: taking a request and the checks before its operation (60_exceptions.md R246). -/

namespace Sys2Proof.Machine

/-- The next request, and the block that has taken it: "a request is consumed when it is presented" (20_memory.md R57). -/
def takeRequest (s : State) : Option (Request × State) :=
  match s.requests with
  | [] => none
  | r :: rest => some (r, s.withRequests rest)

/-- The instruction to perform for a request that was taken, or the state its refusal leaves, in the order of R246: halted
first, before the word is looked at (R245), then the decoder's checks. -/
def vetRequest (r : Request) (s : State) : Except State Instr :=
  if s.halted then .error (refuse .refusedHalted s)
  else
    match decodeRequest s.cfg r with
    | .error e => .error (refuse (refusalOf e) s)
    | .ok i => .ok i

/-- The parameters with the variant of an instruction that only one variant has. `DC_STYLE` and `XFER` stay as they are, although
the defaults of R6 differ by variant: R6 leaves the link OPEN and independent of the variant (DESIGN CHOICE, log entry 12). -/
def configFor (c : Config) (i : Option Instr) : Config :=
  match i.bind Instr.home with
  | none => c
  | some v => { c with variant := v }

/-- A request put in front of the port of a block whose variant has its operation. -/
def placeRequest (r : Request) (s : State) : State :=
  { s with cfg := configFor s.cfg (decodeAnywhere s.cfg.bExtExit r), requests := r :: s.requests }

end Sys2Proof.Machine
end

