-- ==== Sys2Proof/Machine/Step.lean ====
section
/-! DEFINITION. One step: the block takes one request and performs it to its end (10_state.md R26, 92 D23). -/

namespace Sys2Proof.Machine

/-- One step. With no request the block waits (R281; DESIGN CHOICE, log entry 5). -/
def step (s : State) : Host.Outcome State Fault Refusal :=
  match takeRequest s with
  | none => .next s
  | some (r, t) =>
    match vetRequest r t with
    | .error u => .next u
    | .ok i => exec i t

/-- A word of the opcode table put at the request port of a block that has the operation: the very next step runs it. The
word's zero payload comes with it, and `VARIANT` is the variant that has the row (DESIGN CHOICE, log entry 12). -/
def State.withFetchWord (s : State) (nbits w : Nat) : State :=
  match tableRequest s.cfg.bExtExit nbits w with
  | none => s
  | some r => placeRequest r s

end Sys2Proof.Machine
end

