-- ==== Sys2Proof/Machine/Frames.lean ====
section
/-! DEFINITION. The event lists the spec writes for a frame, a chip-select window and a reset pulse when every answer is `ok`
(30_encoding.md R66 to R68; 41_channel.md R112, R113; 45_sequencer.md R220). They are written from those rules, not from the
pseudocode the meanings follow: the claims compare the two. -/

namespace Sys2Proof.Machine

/-- One bit: `Set(DATA, v), Set(CLK, 1), Set(CLK, 0)` (R100). -/
def bitEvents (v : Bit) : List Event := [.set .data v, .set .clk true, .set .clk false]

/-- Frame format `W8` (R66): 24 events, bit 7 first. -/
def byteEvents (b : Byte) : List Event :=
  bitEvents (b.getLsbD 7) ++ bitEvents (b.getLsbD 6) ++ bitEvents (b.getLsbD 5) ++ bitEvents (b.getLsbD 4) ++
    bitEvents (b.getLsbD 3) ++ bitEvents (b.getLsbD 2) ++ bitEvents (b.getLsbD 1) ++ bitEvents (b.getLsbD 0)

/-- The bytes of one scope, of kind `k`: `W8` frames after the line `DC`, `W9` frames, or one `HwWrite` (R66, R67, R68). -/
def frameEvents (link : LinkStyle) (k : Bit) (bs : List Byte) : List Event :=
  match link with
  | .lineBitbang => .set .dc k :: bs.flatMap byteEvents
  | .lineHw => [.set .dc k, .hwWrite bs]
  | .inbandBitbang => bs.flatMap (fun b => bitEvents k ++ byteEvents b)

/-- One chip-select window (R112, R113). -/
def windowEvents (link : LinkStyle) (k : Bit) (bs : List Byte) : List Event :=
  .set .cs false :: frameEvents link k bs ++ [.set .cs true]

/-- `SEND_COMMAND(b)` (R112). -/
def commandEvents (link : LinkStyle) (b : Byte) : List Event := windowEvents link false [b]

/-- Several commands, each in its own window. -/
def commandsEvents (link : LinkStyle) (bytes : List Byte) : List Event := bytes.flatMap (commandEvents link)

/-- `SEND_DATA[bs]` (R113). -/
def dataEvents (link : LinkStyle) (bs : List Byte) : List Event := windowEvents link true bs

/-- The reset pulse: inactive, wait, active, wait, inactive, wait (R220). -/
def pulseEvents (c : Config) : List Event :=
  [.set .rst (!rstAct c), .delay (rstTPre c), .set .rst (rstAct c), .delay (rstTPulse c), .set .rst (!rstAct c),
    .delay (rstTPost c)]

/-! ## The frames of each operation, in order (42_encoder_a.md to 45_sequencer.md, the "wire when `OK`" of each rule) -/

/-- The command bytes of `SET_POSITION(col, page)` (R190). -/
def positionBytes (v : Variant) (col page : Byte) : List Byte :=
  match v with
  | .a => [0xB0#8 ||| page, 0x10#8 ||| (col >>> 4), col &&& 0x0F#8]
  | .b => [0x40#8 ||| page, 0x80#8 ||| col]

/-- `SET_POSITION(col, page)` (R190). -/
def positionEvents (c : Config) (col page : Byte) : List Event := commandsEvents c.link (positionBytes c.variant col page)

/-- The zero fill of `CLEAR` (R191). -/
def zeroFill (v : Variant) : List Byte :=
  match v with
  | .a => List.replicate 768 0#8
  | .b => List.replicate 504 0#8

/-- `CLEAR()` (R191). -/
def clearEvents (c : Config) : List Event :=
  positionEvents c 0 0 ++ dataEvents c.link (zeroFill c.variant) ++ positionEvents c 0 0

/-- A character code with a glyph (R43, R192). -/
def Representable (code : Byte) : Prop := 0x20 ≤ code.toNat ∧ code.toNat ≤ 0x7E

/-- `Glyph(code - 0x20)` for a representable code (R192). -/
def glyphColumns (c : Config) (code : Byte) : List Byte := c.glyphs.toList.getD (code.toNat - 0x20) []

/-- `PRINT_CHAR(code)`: the glyph's columns, then the gap (R192). -/
def charEvents (c : Config) (code : Byte) : List Event :=
  dataEvents c.link (glyphColumns c code) ++ dataEvents c.link [0x00#8]

/-- `PRINT[bs]` (R193). -/
def textEvents (c : Config) (bs : List Byte) : List Event := bs.flatMap (charEvents c)

/-- The command bytes of Controller A's power-up before its clear (R139). -/
def powerUpBytesA : List Byte := [0x2F#8, 0x80#8, 0xA6#8, 0xA4#8, 0xAF#8, 0x40#8]

/-- `A_POWER_UP()` (R139). -/
def powerUpEventsA (c : Config) : List Event := commandsEvents c.link powerUpBytesA ++ clearEvents c

/-- The command bytes of `B_SET_COEFFS(v, t, b)` (R162). -/
def coeffBytes (c : Config) (v t b : Byte) : List Byte :=
  [c.bExtEnter, 0x80#8 ||| v, 0x04#8 ||| t, 0x10#8 ||| b, c.bExtExit]

/-- `B_POWER_UP(v, t, b)` (R166). -/
def powerUpEventsB (c : Config) (v t b : Byte) : List Event :=
  commandsEvents c.link (coeffBytes c v t b ++ [0x0C#8]) ++ clearEvents c

/-- `B_DRAW_BUFFER[buf]` (R165). -/
def drawEvents (c : Config) (buf : List Byte) : List Event :=
  commandsEvents c.link [0x22#8, 0x40#8, 0x80#8] ++ dataEvents c.link buf ++
    commandsEvents c.link [0x20#8, 0x40#8, 0x80#8]

/-! ## Events that were performed -/

/-- Whether the environment answers an event (R8): all but `Delay`. -/
def Event.fallible : Event → Bool
  | .set _ _ => true
  | .delay _ => false
  | .hwWrite _ => true

/-- The state after one event that was answered `ok` (R9). -/
def performEvent (s : State) (e : Event) : State :=
  match e with
  | .set l v => ((s.log e .ok).consume).setLine l (.level v)
  | .delay _ => s.log e .ok
  | .hwWrite _ => (s.log e .ok).consume

/-- The state after a list of events that were all answered `ok`. -/
def performEvents (s : State) (es : List Event) : State := es.foldl performEvent s

/-- The state after one fallible event that was answered `fail` (R9): a failed `Set` leaves its line unspecified (R23), a
failed `HwWrite` leaves the lines. -/
def failEvent (s : State) (e : Event) : State :=
  match e with
  | .set l _ => ((s.log e .fail).consume).setLine l .unspecified
  | .delay _ => s
  | .hwWrite _ => (s.log e .fail).consume

end Sys2Proof.Machine
end

