-- ==== Sys2Proof/Machine/Receiver.lean ====
section
/-! DEFINITION. What a receiver hears: the projection `wire` of a trace (41_channel.md R118). Nothing here is state of the block;
the block never reads it. -/

namespace Sys2Proof.Machine

/-- The kind of a frame (R12). -/
inductive FrameKind where
  /-- C -/
  | command
  /-- D -/
  | data
  deriving DecidableEq, Repr

/-- A frame `(kind, byte)` (R12). -/
structure Frame where
  kind : FrameKind
  byte : Byte
  deriving DecidableEq, Repr

/-- The receiver's view of the lines while it scans (R118); `buf` holds the bits of the frame under way, the first one first. -/
structure Scan where
  cs : Bit
  clk : Bit
  dc : Option Bit
  data : Option Bit
  buf : List Bit
  deriving DecidableEq, Repr

/-- At block reset: `cs = 1`, `clk = 0`, `dc` and `data` undefined, an empty bit buffer (R118). -/
def Scan.start : Scan := ⟨true, false, none, none, []⟩

/-- A byte from its bits, the first one bit 7 (R46, R118). -/
def byteOfBits (bits : List Bit) : Byte := bits.foldl (fun acc b => (acc <<< 1) ||| (if b then 1#8 else 0#8)) 0#8

/-- The kind the line `DC` signals: "C if dc = 0 else D" (R118). -/
def kindOfLine (dc : Option Bit) : FrameKind := if dc = some false then .command else .data

/-- The kind the discriminator bit signals: "C if first bit = 0 else D" (R118). -/
def kindOfBit (v : Bit) : FrameKind := if v then .data else .command

/-- A full bit buffer becomes a frame and empties: 8 bits with a line, 9 in band (R118). -/
def collect (style : DcStyle) (s : Scan) : Scan × List Frame :=
  match style with
  | .line => if s.buf.length = 8 then ({ s with buf := [] }, [⟨kindOfLine s.dc, byteOfBits s.buf⟩]) else (s, [])
  | .inband =>
    if s.buf.length = 9 then ({ s with buf := [] }, [⟨kindOfBit (s.buf.headD false), byteOfBits s.buf.tail⟩]) else (s, [])

/-- The falling clock edge inside a window takes the data line's bit (R118). The block drives `DATA` before every edge, so
an undefined `data` is never sampled; if it were, no bit would be taken (log entry 14). -/
def sample (s : Scan) : Scan :=
  match s.data with
  | some d => { s with buf := s.buf ++ [d] }
  | none => s

/-- One event scanned (R118). -/
def scanEvent (style : DcStyle) (s : Scan) (e : Event) : Scan × List Frame :=
  match e with
  | .set .cs v => ({ s with cs := v, buf := [] }, [])
  | .set .dc v => ({ s with dc := some v }, [])
  | .set .data v => ({ s with data := some v }, [])
  | .set .clk v =>
    if s.clk = true ∧ v = false ∧ s.cs = false then collect style { sample s with clk := v } else ({ s with clk := v }, [])
  | .set .rst _ => (s, [])
  | .delay _ => (s, [])
  | .hwWrite bs => (s, if s.cs = false then bs.map (fun b => ⟨kindOfLine s.dc, b⟩) else [])

/-- A list of events scanned from `s`: where the scan stands, and the frames it put out. -/
def scan (style : DcStyle) (s : Scan) : List Event → Scan × List Frame
  | [] => (s, [])
  | e :: es =>
    ((scan style (scanEvent style s e).1 es).1, (scanEvent style s e).2 ++ (scan style (scanEvent style s e).1 es).2)

/-- The events before the first one answered `fail` (R118: "a trace containing a `fail` answer has no defined `wire` from
that event on"). -/
def okEvents : List TraceEntry → List Event
  | [] => []
  | t :: ts =>
    match t.answer with
    | .ok => t.event :: okEvents ts
    | .fail => []

/-- `wire(t)` (R118), up to the first failed event. -/
def wire (style : DcStyle) (t : List TraceEntry) : List Frame := (scan style Scan.start (okEvents t)).2

end Sys2Proof.Machine
end

