-- ==== Sys2Proof/Machine/Controller.lean ====
section
/-! DEFINITION. What a trace lets one know of the external controller (10_state.md R30; 30_encoding.md R69 to R71, R73;
70_reset_and_hazards.md R281, R283, R284, R290 to R297). Nothing here is state of the block; the block never reads it. What the
spec does not fix is unknown: a setting `none`, or the whole controller not `described` (log entries 15 and 18). -/

namespace Sys2Proof.Machine

/-- The instruction set in force on Controller B (R30 (c), R71). -/
inductive InstrSet where
  | basic
  | extended
  deriving DecidableEq, Repr

/-- `described`: the rules describe the controller, and nothing since has made it unknown; before INIT ended `OK` "what the controller
makes of them is unknown" (R283, R297; while INIT is under way, for the frames it has sent so far). Then the settings R30 names, each
the last value commanded, `none` where it is not known. `set`: the instruction set in force (B). `vertical`: the addressing mode
(B). `page`, `colHigh`, `colLow`, `col`: the cursor, A's column as its two nibbles. `inverse`, `allOn`: A's mode. `mode`: B's mode
bits `(d, e)`. `contrast`, `flipH`, `flipV`, `enabled`, `scanLine0`, `powered`: A. `voltage`, `temperature`, `bias`: B. -/
structure Controller where
  described : Bool
  set : Option InstrSet
  vertical : Option Bit
  page : Option Nat
  colHigh : Option Nat
  colLow : Option Nat
  col : Option Nat
  inverse : Option Bit
  allOn : Option Bit
  mode : Option (Bit × Bit)
  contrast : Option Nat
  flipH : Option Bit
  flipV : Option Bit
  enabled : Option Bit
  scanLine0 : Option Bit
  powered : Option Bit
  voltage : Option Nat
  temperature : Option Nat
  bias : Option Nat
  deriving DecidableEq, Repr

/-- Nothing is known (R281, R283), and nothing will be before the next INIT (R297). -/
def Controller.unknown : Controller where
  described := false
  set := none
  vertical := none
  page := none
  colHigh := none
  colLow := none
  col := none
  inverse := none
  allOn := none
  mode := none
  contrast := none
  flipH := none
  flipV := none
  enabled := none
  scanLine0 := none
  powered := none
  voltage := none
  temperature := none
  bias := none

/-- What INIT's frames are read from: after the reset pulse the basic table applies (R71), and addressing is horizontal, because an
INIT that ends `OK` leaves it so (R284) with no command of its own for it (DEDUCED, log entry 15). Of an INIT that does not, only
`Controller.partly` counts. -/
def Controller.afterPulse : Controller :=
  { Controller.unknown with described := true, set := some .basic, vertical := some false }

/-- What is known where the last INIT did not end `OK`: the instruction set in force (R71, R293) and, while that is the extended
one, the coefficients commanded in it (R293); the rest is unknown (R283, R297). -/
def Controller.partly (k : Controller) : Controller :=
  { Controller.unknown with
    set := k.set
    voltage := if k.set = some .extended then k.voltage else none
    temperature := if k.set = some .extended then k.temperature else none
    bias := if k.set = some .extended then k.bias else none }

/-- The cursor is no longer known: a data byte advances it, in a way the spec does not fix (R51, 91 N15). -/
def Controller.moved (k : Controller) : Controller := { k with page := none, colHigh := none, colLow := none, col := none }

/-! ## What holds either way -/

/-- A setting that may have either of two values is known where they agree. -/
def agree {α : Type} [DecidableEq α] (x y : Option α) : Option α := if x = y then x else none

/-- What is known of a controller that is as `k` or as `j` says. -/
def Controller.meet (k j : Controller) : Controller :=
  if k.described && j.described then
    { described := true
      set := agree k.set j.set
      vertical := agree k.vertical j.vertical
      page := agree k.page j.page
      colHigh := agree k.colHigh j.colHigh
      colLow := agree k.colLow j.colLow
      col := agree k.col j.col
      inverse := agree k.inverse j.inverse
      allOn := agree k.allOn j.allOn
      mode := agree k.mode j.mode
      contrast := agree k.contrast j.contrast
      flipH := agree k.flipH j.flipH
      flipV := agree k.flipV j.flipV
      enabled := agree k.enabled j.enabled
      scanLine0 := agree k.scanLine0 j.scanLine0
      powered := agree k.powered j.powered
      voltage := agree k.voltage j.voltage
      temperature := agree k.temperature j.temperature
      bias := agree k.bias j.bias }
  else Controller.unknown

/-! ## Frames -/

/-- A one-bit field as a flag. -/
def flagOf (x : BitVec 1) : Bit := x == 1#1

/-- Whether a row's byte is among the values its table lists as emitted (R69 to R71). What a controller does with any other byte
is unknown (R73, 93 U11; log entry 15). `B.FUNCTION` with `x = 1` is listed only as `B_EXT_ENTER`, which `Controller.hearIn` reads itself. -/
def listed : Instr → Bool
  | .cmdAColHi h => decide (h.toNat ≤ 5)
  | .cmdBSetPage p => decide (p.toNat < 6)
  | .cmdBSetCol c => decide (c.toNat < 84)
  | .cmdBXVop v => decide (v.toNat < 91)
  | .cmdBFunction _ x => !flagOf x
  | .cmdAColLo _ | .cmdAPowerOn | .cmdAScanStart | .cmdAContrast _ | .cmdAFlipHOn | .cmdAAllOn _ | .cmdAInverse _ => true
  | .cmdAFlipHOff | .cmdADisplayEnable | .cmdASetPage _ | .cmdAFlipV _ => true
  | .cmdBMode _ _ | .cmdBXTemp _ | .cmdBXBias _ | .cmdBXExit => true
  | .shiftByte _ | .sendCommand _ | .sendData _ | .setPosition _ _ | .clear | .printChar _ | .print _ => false
  | .getPixelRes | .getCharRes => false
  | .aSetPage _ | .aSetColumn _ | .aSetContrast _ | .aSetMode _ | .aFlipH _ | .aFlipV _ => false
  | .aPowerOn | .aDisplayEnable | .aScanStart | .aPowerUp | .aInit => false
  | .bSetPage _ | .bSetColumn _ | .bSetCoeffs _ _ _ | .bSetMode _ | .bSetAddressing _ => false
  | .bDrawBuffer _ | .bPowerUp _ _ _ | .bInit _ _ _ => false

/-- A command byte the controller reads as the instruction `i` of its table. -/
def Controller.command (k : Controller) (i : Instr) : Controller :=
  match i with
  | .cmdAColLo l => { k with colLow := some l.toNat }
  | .cmdAColHi h => { k with colHigh := some h.toNat }
  | .cmdAPowerOn => { k with powered := some true }
  | .cmdAScanStart => { k with scanLine0 := some true }
  | .cmdAContrast c => { k with contrast := some c.toNat }
  | .cmdAFlipHOn => { k with flipH := some true }
  | .cmdAAllOn a => { k with allOn := some (flagOf a) }
  | .cmdAInverse i => { k with inverse := some (flagOf i) }
  | .cmdAFlipHOff => { k with flipH := some false }
  | .cmdADisplayEnable => { k with enabled := some true }
  | .cmdASetPage p => { k with page := some p.toNat }
  | .cmdAFlipV f => { k with flipV := some (flagOf f) }
  | .cmdBMode d e => { k with mode := some (flagOf d, flagOf e) }
  | .cmdBFunction v _ => { k with vertical := some (flagOf v) }
  | .cmdBSetPage p => { k with page := some p.toNat }
  | .cmdBSetCol c => { k with col := some c.toNat }
  | .cmdBXTemp t => { k with temperature := some t.toNat }
  | .cmdBXBias b => { k with bias := some b.toNat }
  | .cmdBXVop v => { k with voltage := some v.toNat }
  | .cmdBXExit => { k with set := some .basic }
  | .shiftByte _ | .sendCommand _ | .sendData _ | .setPosition _ _ | .clear | .printChar _ | .print _ => k
  | .getPixelRes | .getCharRes => k
  | .aSetPage _ | .aSetColumn _ | .aSetContrast _ | .aSetMode _ | .aFlipH _ | .aFlipV _ => k
  | .aPowerOn | .aDisplayEnable | .aScanStart | .aPowerUp | .aInit => k
  | .bSetPage _ | .bSetColumn _ | .bSetCoeffs _ _ _ | .bSetMode _ | .bSetAddressing _ => k
  | .bDrawBuffer _ | .bPowerUp _ _ _ | .bInit _ _ _ => k

/-- A command byte read by one table: a listed row has its effect, any other byte leaves the controller as `other` says. -/
def Controller.row (k : Controller) (i : Option Instr) (other : Controller) : Controller :=
  match i with
  | some i => if listed i then k.command i else other
  | none => other

/-- The addressing a `B.FUNCTION` byte selects (R70); any other byte leaves it. -/
def Controller.addressed (k : Controller) (b : Byte) : Controller :=
  match decodeCommandB b with
  | some (.cmdBFunction v _) => { k with vertical := some (flagOf v) }
  | _ => k

/-- A command byte heard by Controller B in the basic set (R70) or in the extended set (R71). In the basic set `B_EXT_ENTER`, in the
extended set `B_EXT_EXIT`, comes before a row it may coincide with (DEDUCED, log entry 13); the other of the two switches to the set
in force. R71 does not say which of its two sentences holds where the two bytes are equal (R28: any bytes): here that one byte
switches from the set in force to the other (DESIGN CHOICE, log entry 19). -/
def Controller.hearIn (c : Config) (k : Controller) (set : InstrSet) (b : Byte) : Controller :=
  match set with
  | .basic =>
    if b = c.bExtEnter then { k.addressed b with set := some .extended }
    else { k with set := some .basic }.row (decodeCommandB b)
      (if b = c.bExtExit then { k with set := some .basic } else Controller.unknown)
  | .extended =>
    if b = c.bExtExit then { k with set := some .basic }
    else { k with set := some .extended }.row (decodeCoefficient b)
      (if b = c.bExtEnter then { k with set := some .extended } else Controller.unknown)

/-- A command byte heard by Controller B: read in the set in force (R71), or in either where that is not known. -/
def Controller.hearB (c : Config) (k : Controller) (b : Byte) : Controller :=
  match k.set with
  | some set => k.hearIn c set b
  | none => (k.hearIn c .basic b).meet (k.hearIn c .extended b)

/-- A frame heard by the controller of this block's variant; one that is not described stays so (R283). -/
def Controller.hear (c : Config) (k : Controller) (f : Frame) : Controller :=
  match f.kind, c.variant with
  | .data, _ => k.moved
  | .command, .a => if k.described then k.row (decodeCommandA f.byte) Controller.unknown else k
  | .command, .b => if k.described then k.hearB c f.byte else k

/-- Frames of which only the first few may have been heard, none and all included. -/
def Controller.mayHear (c : Config) (k : Controller) : List Frame → Controller
  | [] => k
  | f :: fs => k.meet ((k.hear c f).mayHear c fs)

/-! ## Events -/

/-- How far the controller's initialisation is. -/
inductive InitPhase where
  /-- No INIT is under way and the last one, if any, did not end `OK`. -/
  | notDone
  /-- INIT's reset pulse has come and `left` of its events are still to come; `told` is the controller that heard its frames so far. -/
  | running (left : Nat) (told : Controller)
  /-- The last INIT ended `OK`: "ready to accept position/draw commands" (R30 (g), R283). -/
  | done
  deriving DecidableEq, Repr

/-- The events of INIT after its reset pulse has begun: the wait, the inactive level, the wait, and the power-up (R220 to R222). The
operands of `B_INIT` do not change how many there are. -/
def initLeft (c : Config) : Nat :=
  3 + match c.variant with
    | .a => (powerUpEventsA c).length
    | .b => (powerUpEventsB c 0#8 0#8 0#8).length

/-- INIT's phase after an event that was answered `fail`: one that was under way has not ended `OK`, and a failed event of the reset line
may have reset the controller. -/
def InitPhase.stopped (p : InitPhase) (e : Event) : InitPhase :=
  match p with
  | .notDone => .notDone
  | .running _ _ => .notDone
  | .done =>
    match e with
    | .set .rst _ => .notDone
    | .set .clk _ => .done
    | .set .data _ => .done
    | .set .cs _ => .done
    | .set .dc _ => .done
    | .delay _ => .done
    | .hwWrite _ => .done

/-- The receiver: the scan of the lines (R118), what of it is sure after failed events, the controller behind it as far as it surely
heard what was sent, and how far its initialisation is. `csSure`, `clkSure`: the level on the line is the one the scan has (R23).
Where chip-select is not sure, the scan has it low and goes on taking bits, since the receiver may still be selected (R292); it is
taken to be selected for all of them or for none (DESIGN CHOICE, log entry 20).
`bufSure`: a receiver that is selected has the bits of the frame under way that the scan has (R290, R292). -/
structure Receiver where
  scan : Scan
  csSure : Bool
  clkSure : Bool
  bufSure : Bool
  controller : Controller
  phase : InitPhase
  deriving DecidableEq, Repr

/-- At block reset the lines are as R33 says and the controller's condition is unknown (R281). -/
def Receiver.atReset : Receiver := ⟨Scan.start, true, true, true, Controller.unknown, .notDone⟩

/-- Chip-select is surely released, so that the receiver ignores the clock (R30 (e)). -/
def Receiver.away (r : Receiver) : Bool := r.csSure && r.scan.cs

/-- The receiver is surely where the scan is. -/
def Receiver.sure (r : Receiver) : Bool := r.csSure && r.clkSure && r.bufSure

/-- The frames an event puts out are surely those the receiver hears: chip-select and the bits so far are known, and so is the
clock, which a hardware transfer does not need (R68). -/
def Receiver.follows (r : Receiver) (e : Event) : Bool :=
  r.away || match e with
    | .set _ _ => r.sure
    | .hwWrite _ => r.csSure && r.bufSure
    | .delay _ => r.sure

/-- Between two windows, in step: the next frame will be heard as it is sent. -/
def Receiver.Ready (r : Receiver) : Prop := r.sure = true ∧ r.scan.cs = true ∧ r.scan.clk = false

/-- No INIT is under way. -/
def Receiver.Settled (r : Receiver) : Prop := ∀ left told, r.phase ≠ .running left told

/-- The frames an event puts out on the lines as the scan has them. -/
def Receiver.shown (c : Config) (r : Receiver) (e : Event) : List Frame := (scanEvent c.link.dcStyle r.scan e).2

/-- What the frames an event puts out do to the controller: heard where the receiver surely follows, else any frame at all may
have been heard, and nothing is known (R290, R292). -/
def Receiver.controllerOn (c : Config) (r : Receiver) (e : Event) : Controller :=
  if r.follows e then (r.shown c e).foldl (Controller.hear c) r.controller else Controller.unknown

/-- The same where the event failed, so that its frames may or may not have been heard. -/
def Receiver.controllerOnFail (c : Config) (r : Receiver) (e : Event) : Controller :=
  if r.follows e then r.controller.mayHear c (r.shown c e) else Controller.unknown

/-- INIT's reset pulse, answered `ok`: the controller is reset (R71, R223). The scan starts anew, but for a chip-select that is not surely
released; what was unsure of chip-select, of the clock or of the bits so far stays so (R290, R292), since R297 has a new INIT repair it
only by ending `OK`. -/
def Receiver.pulse (c : Config) (r : Receiver) : Receiver where
  scan := { Scan.start with cs := r.away }
  csSure := r.away
  clkSure := r.clkSure && !r.scan.clk
  bufSure := r.away || (r.bufSure && r.scan.buf.isEmpty)
  controller := Controller.afterPulse
  phase := .running (initLeft c) Controller.afterPulse

/-- What an event answered `ok` does to the lines, INIT's reset pulse apart. A line that is left unspecified is taken to hold one level
until it is driven again: R23 and 92 D7 do not say so (DESIGN CHOICE, log entry 20). A release of chip-select starts the next frame afresh;
so does an opening, unless the line may have been low already (R292). A rising edge may be none where the clock's level was
unknown, and a bit lost (R290). -/
def Receiver.ok (c : Config) (r : Receiver) (e : Event) : Receiver :=
  match e with
  | .set .cs v =>
    { r with scan := (scanEvent c.link.dcStyle r.scan e).1, csSure := true
             bufSure := v || r.csSure || (r.bufSure && r.scan.buf.isEmpty) }
  | .set .clk true =>
    { r with scan := (scanEvent c.link.dcStyle r.scan e).1, clkSure := true
             bufSure := r.bufSure && (r.clkSure || r.away) }
  | .set .clk false =>
    { r with scan := (scanEvent c.link.dcStyle r.scan e).1, clkSure := true
             bufSure := r.bufSure && (r.clkSure || r.away), controller := r.controllerOn c e }
  | .hwWrite _ => { r with controller := r.controllerOn c e }
  | .set .dc _ => { r with scan := (scanEvent c.link.dcStyle r.scan e).1 }
  | .set .data _ => { r with scan := (scanEvent c.link.dcStyle r.scan e).1 }
  | .set .rst _ => r
  | .delay _ => r

/-- An event answered `ok` at whatever phase. The last one of an INIT ends it `OK`: the rules describe the controller again, whatever
was unsure before (R283, R297; DEDUCED, log entry 18). -/
def Receiver.heard (c : Config) (r : Receiver) (e : Event) : Receiver :=
  match r.phase with
  | .running left told =>
    if left ≤ 1 then
      ⟨(scanEvent c.link.dcStyle r.scan e).1, true, true, true, (r.shown c e).foldl (Controller.hear c) told, .done⟩
    else { r.ok c e with phase := .running (left - 1) ((r.shown c e).foldl (Controller.hear c) told) }
  | .notDone => r.ok c e
  | .done => r.ok c e

/-- What an event answered `fail` does to the lines: its line's level is unknown (R23), so an edge may have come or not, a window may
have opened or closed or not (and the receiver take bits from now on, R292), a reset may have happened or not, and of a hardware
transfer any part may have been sent. -/
def Receiver.failed (c : Config) (r : Receiver) (e : Event) : Receiver :=
  match e with
  | .set .cs _ =>
    { r with scan := { r.scan with cs := false }, csSure := false, bufSure := r.bufSure && r.scan.buf.isEmpty }
  | .set .clk _ => { r with clkSure := false, bufSure := r.bufSure && r.away, controller := r.controllerOnFail c e }
  | .hwWrite _ => { r with bufSure := r.bufSure && r.away, controller := r.controllerOnFail c e }
  | .set .dc _ => { r with scan := { r.scan with dc := none } }
  | .set .data _ => { r with scan := { r.scan with data := none } }
  | .set .rst _ => { r with controller := Controller.unknown }
  | .delay _ => r

/-- One entry of the trace at the receiver. -/
def Receiver.entry (c : Config) (r : Receiver) (t : TraceEntry) : Receiver :=
  match t.answer with
  | .ok => if t.event = .set .rst (rstAct c) then r.pulse c else r.heard c t.event
  | .fail => { r.failed c t.event with phase := r.phase.stopped t.event }

/-- What is known of the controller: what it surely heard since INIT ended `OK`, and where none did what R71 and R293 still say. -/
def Receiver.known (r : Receiver) : Controller :=
  match r.phase with
  | .done => r.controller
  | .notDone => r.controller.partly
  | .running _ _ => r.controller.partly

/-- The receiver after a trace. -/
def receiverAfter (c : Config) (t : List TraceEntry) : Receiver := t.foldl (Receiver.entry c) Receiver.atReset

/-- What is known of the controller after a trace. -/
def controllerAfter (c : Config) (t : List TraceEntry) : Controller := (receiverAfter c t).known

end Sys2Proof.Machine
end

