-- ==== Sys2Proof/Safety.lean ====
section
/-! DEFINITION. What counts as a safe state and a safe run, and the words the claims use. -/

namespace Sys2Proof.Machine

/-- A good state: no precondition violation has happened ("the faulted state is never a good final state", 60_exceptions.md
R242). -/
def Running (s : State) : Prop := s.halted = false

/-- How many events of a list the environment answers. -/
def answersTaken (es : List Event) : Nat := es.countP Event.fallible

/-- The environment answers `ok` to every fallible event of the list. -/
def AnswersOk (es : List Event) (s : State) : Prop := ∀ a ∈ s.answers.take (answersTaken es), a = .ok

/-- The environment answers `ok` to the first `n` fallible events and `fail` to the next. -/
def FirstFailAt (n : Nat) (s : State) : Prop := ∃ rest, s.answers = List.replicate n .ok ++ .fail :: rest

/-- The operation exists on this block and the block accepts requests (R254). -/
def Accepts (i : Instr) (s : State) : Prop := s.halted = false ∧ existsOn i.home s.cfg.variant = true

/-- The state an operation leaves that ends `OK` after the events `es`, all answered `ok`. -/
def afterOk (s : State) (es : List Event) : State := (performEvents s es).respond .ok 0

/-- The state a line register is in after a trace, from its level `x` before it (10_state.md R21, R23). -/
def lineFrom (l : Line) (x : LineLevel) (t : List TraceEntry) : LineLevel :=
  t.foldl (fun y e => match e.event with
    | .set l' v => if l' = l then levelAfter v e.answer else y
    | .delay _ => y
    | .hwWrite _ => y) x

/-- Whether an event can occur on a link (R22): no `Set(DC, v)` in band, `HwWrite` only with the hardware primitive. -/
def fitsLink (link : LinkStyle) (e : Event) : Bool :=
  match e with
  | .set .dc _ => link.dcStyle == .line
  | .set .clk _ => true
  | .set .data _ => true
  | .set .cs _ => true
  | .set .rst _ => true
  | .delay _ => true
  | .hwWrite _ => link.xfer == .hw

/-- The invariant: every line register holds what the trace last did to it, from its level at block reset (R21, R23, R33);
every event of the trace can occur on this link (R22); and no INIT is under way between two requests, because one performs its
whole sequence or ends with a failure (R223). -/
def Consistent (s : State) : Prop :=
  (∀ l, s.line l = lineFrom l ((State.ofConfig s.cfg).line l) s.trace) ∧
    (∀ e ∈ s.trace, fitsLink s.cfg.link e.event = true) ∧ (receiverAfter s.cfg s.trace).Settled

/-- Whether a failed event of an operation that works in chip-select scopes is followed by the one best-effort release (R110): it is
not where it was the closing release itself, nor outside every scope, where the reset line's events are. -/
def releaseFollows (e : Event) : Bool :=
  match e with
  | .set .cs v => !v
  | .set .rst _ => false
  | .set .clk _ => true
  | .set .data _ => true
  | .set .dc _ => true
  | .hwWrite _ => true
  | .delay _ => false

/-- What `i` adds to the trace after its failed event `e` (R101, R110, R241): exactly one release of chip-select, whatever its answer;
nothing where `e` was the closing release or an event of the reset line, and nothing in `SHIFT_BYTE`, which has no scope. -/
def ReleasedAfter (i : Instr) (e : Event) (tail : List TraceEntry) : Prop :=
  ((∃ b, i = .shiftByte b) ∨ releaseFollows e = false → tail = []) ∧
    ((∀ b, i ≠ .shiftByte b) → releaseFollows e = true → ∃ a, tail = [⟨.set .cs true, a⟩])

/-- The receiver has a complete picture of the block: no event of the trace failed, and the trace leaves the clock low
and no window open, as after block reset and after every operation that ended `OK` (70_reset_and_hazards.md R290). -/
def LinkInSync (s : State) : Prop :=
  (∀ e ∈ s.trace, e.answer = .ok) ∧
    (scan s.cfg.link.dcStyle Scan.start (okEvents s.trace)).1.clk = false ∧
    (scan s.cfg.link.dcStyle Scan.start (okEvents s.trace)).1.cs = true

/-- What is known of the controller behind this block's link (R30, log entries 15 and 18). -/
def State.controller (s : State) : Controller := controllerAfter s.cfg s.trace

/-- INIT ended `OK` and nothing since has made the controller unknown; it is in its basic instruction set and in step for the next
frame, whatever has failed before. -/
def BasicReady (s : State) : Prop :=
  (receiverAfter s.cfg s.trace).Ready ∧ s.controller.described = true ∧ s.controller.set = some .basic

/-- The frames a trace shows a receiver on this block's link. -/
def State.wire (s : State) : List Frame := Machine.wire s.cfg.link.dcStyle s.trace

end Sys2Proof.Machine
end

