-- ==== Sys2Proof/Certificates/Slice0/Obligations.lean ====
section
/-! DEFINITION. The statements for the provers: each formalises rules of the spec, named in its docstring. The words they use stand in
Sys2Proof/Safety.lean and Sys2Proof/Machine/Frames.lean. -/

open Sys2Proof Sys2Proof.Machine

/-! ## Encodings -/

/-- R61, R62, R69 to R71: words written out from the tables decode to the instructions they stand for. -/
def Obligations.TableWordsDecode : Prop :=
  decodeTableWord 32 0b00000001_10100101_00000000_00000000 = some (.shiftByte 0xA5#8) ∧
    decodeTableWord 32 0b00000100_01011111_00000111_00000000 = some (.setPosition 95#8 7#8) ∧
    decodeTableWord 32 0b00010011_00000010_00000000_00000000 = some (.aSetMode .filled) ∧
    decodeTableWord 32 0b00100010_01011010_00000011_00000111 = some (.bSetCoeffs 90#8 3#8 7#8) ∧
    decodeTableWord 32 0b00100111_00111000_00000000_00000100 = some (.bInit 0x38#8 0#8 4#8) ∧
    decodeTableWord 8 0b10110011 = some (.cmdASetPage 3#3) ∧
    decodeTableWord 8 0b00100010 = some (.cmdBFunction 1#1 0#1)

/-- R61 to R63, R69 to R71: on a block that has the instruction, the request that spells it decodes to it, with every operand.
The one byte of the extended table that two rows could claim is `B_EXT_EXIT`, which is read as the exit row. -/
def Obligations.EncodeThenDecode : Prop :=
  ∀ (c : Config) (i : Instr), i.wf = true → existsOn i.home c.variant = true →
    (encode c.bExtExit i = .command .cmdBExt c.bExtExit → i = .cmdBXExit) →
    decodeRequest c (encode c.bExtExit i) = .ok i

/-- R61 to R64, R69 to R71: whatever a word or a command byte decodes to, it is the encoding of that, so no two words spell one
instruction and no bit of a word is dropped. -/
def Obligations.DecodeThenEncode : Prop :=
  (∀ (x : Byte) (w : ReqWord) (bs : List Byte) (i : Instr), decodeWord w bs = some i →
    encode x i = .word w (if i.takesPayload then some bs else none)) ∧
  (∀ (x : Byte) (t : CommandTable) (b : Byte) (i : Instr), decodeCommand x t b = some i → encode x i = .command t b)

/-- The match and mask columns of the 28 request rows of the opcode table. -/
def requestRows : List (ReqWord × ReqWord) :=
  [(0x01000000#32, 0xFF00FFFF#32), (0x02000000#32, 0xFF00FFFF#32), (0x03000000#32, 0xFFFFFFFF#32),
    (0x04000000#32, 0xFF0000FF#32), (0x05000000#32, 0xFFFFFFFF#32), (0x06000000#32, 0xFF00FFFF#32),
    (0x07000000#32, 0xFFFFFFFF#32), (0x08000000#32, 0xFFFFFFFF#32), (0x09000000#32, 0xFFFFFFFF#32),
    (0x10000000#32, 0xFF00FFFF#32), (0x11000000#32, 0xFF00FFFF#32), (0x12000000#32, 0xFF00FFFF#32),
    (0x13000000#32, 0xFFFCFFFF#32), (0x14000000#32, 0xFFFEFFFF#32), (0x15000000#32, 0xFFFEFFFF#32),
    (0x16000000#32, 0xFFFFFFFF#32), (0x17000000#32, 0xFFFFFFFF#32), (0x18000000#32, 0xFFFFFFFF#32)] ++
  [(0x19000000#32, 0xFFFFFFFF#32), (0x1A000000#32, 0xFFFFFFFF#32), (0x20000000#32, 0xFF00FFFF#32),
    (0x21000000#32, 0xFF00FFFF#32), (0x22000000#32, 0xFF000000#32), (0x23000000#32, 0xFFFCFFFF#32),
    (0x24000000#32, 0xFFFEFFFF#32), (0x25000000#32, 0xFFFFFFFF#32), (0x26000000#32, 0xFF000000#32),
    (0x27000000#32, 0xFF000000#32)]

/-- 30_encoding.md, R62, R63 (a) and (b): a word spells an operation exactly when it matches a row of the opcode table under the
row's mask. -/
def Obligations.WordSpellsOperationIffRowMatches : Prop :=
  ∀ (w : ReqWord) (bs : List Byte),
    (decodeWord w bs).isSome = true ↔ ∃ row ∈ requestRows, w &&& row.2 = row.1

/-- R64: a request whose `op` is reserved (0x00, 0x0A to 0x0F, 0x1B to 0x1F, 0x28 to 0xFF) is refused as illegal, emits no event,
changes no state and does not set `halted`. -/
def Obligations.ReservedOpIsRefused : Prop :=
  ∀ (s : State) (w : ReqWord) (p : Option (List Byte)) (rest : List Request),
    s.halted = false → s.requests = .word w p :: rest →
    (opField w = 0x00#8 ∨ (0x0A ≤ (opField w).toNat ∧ (opField w).toNat ≤ 0x0F) ∨
      (0x1B ≤ (opField w).toNat ∧ (opField w).toNat ≤ 0x1F) ∨ 0x28 ≤ (opField w).toNat) →
    step s = .next ((s.withRequests rest).respond .illegalRequest 0)

/-- The match and mask columns of the twelve rows of CMD_A. -/
def commandRowsA : List (Byte × Byte) :=
  [(0x00#8, 0xF0#8), (0x10#8, 0xF0#8), (0x2F#8, 0xFF#8), (0x40#8, 0xFF#8), (0x80#8, 0xE0#8), (0xA1#8, 0xFF#8),
    (0xA4#8, 0xFE#8), (0xA6#8, 0xFE#8), (0xA8#8, 0xFF#8), (0xAF#8, 0xFF#8), (0xB0#8, 0xF8#8), (0xC0#8, 0xF7#8)]

/-- R69: "No two rows match the same byte", and a byte is read as a command of Controller A exactly when a row matches it. -/
def Obligations.CommandRowsADisjoint : Prop :=
  (∀ b : Byte, (decodeCommandA b).isSome = true ↔ ∃ row ∈ commandRowsA, b &&& row.2 = row.1) ∧
    ∀ (b : Byte) (row row' : Byte × Byte), row ∈ commandRowsA → row' ∈ commandRowsA →
      b &&& row.2 = row.1 → b &&& row'.2 = row'.1 → row = row'

/-- R69 to R72: what the encoders assemble as `base | field` is the table's row with the operand in the row's field. -/
def Obligations.AssembledBytesAreTableRows : Prop :=
  (∀ page : Byte, page.toNat < 8 → decodeCommandA (0xB0#8 ||| page) = some (.cmdASetPage (page.extractLsb' 0 3))) ∧
  (∀ col : Byte, col.toNat < 96 → decodeCommandA (0x10#8 ||| (col >>> 4)) = some (.cmdAColHi (col.extractLsb' 4 4)) ∧
    decodeCommandA (col &&& 0x0F#8) = some (.cmdAColLo (col.extractLsb' 0 4))) ∧
  (∀ k : Byte, k.toNat < 32 → decodeCommandA (0x80#8 ||| k) = some (.cmdAContrast (k.extractLsb' 0 5))) ∧
  (∀ f : Byte, f.toNat < 2 → decodeCommandA (0xA6#8 ||| f) = some (.cmdAInverse (f.extractLsb' 0 1)) ∧
    decodeCommandA (0xA4#8 ||| f) = some (.cmdAAllOn (f.extractLsb' 0 1))) ∧
  (∀ page : Byte, page.toNat < 6 → decodeCommandB (0x40#8 ||| page) = some (.cmdBSetPage (page.extractLsb' 0 3))) ∧
  (∀ col : Byte, col.toNat < 84 → decodeCommandB (0x80#8 ||| col) = some (.cmdBSetCol (col.extractLsb' 0 7))) ∧
  (∀ v : Byte, v.toNat < 91 → decodeCoefficient (0x80#8 ||| v) = some (.cmdBXVop (v.extractLsb' 0 7))) ∧
  (∀ t : Byte, t.toNat < 4 → decodeCoefficient (0x04#8 ||| t) = some (.cmdBXTemp (t.extractLsb' 0 2))) ∧
  (∀ b : Byte, b.toNat < 8 → decodeCoefficient (0x10#8 ||| b) = some (.cmdBXBias (b.extractLsb' 0 3)))

/-! ## The request port and the order of checks -/

/-- R26, R57: with a request at the port of a block that is not halted, a step takes the request and, where it decodes on this
block, is `exec` of that instruction. -/
def Obligations.StepRunsDecodedInstruction : Prop :=
  ∀ (s : State) (r : Request) (rest : List Request) (i : Instr), s.requests = r :: rest → s.halted = false →
    decodeRequest s.cfg r = .ok i → step s = exec i (s.withRequests rest)

/-- R246, checks 1 to 4, on a 32-bit request: halted comes before the word is looked at; an illegal word before the variant; the
variant before the payload; a payload on an operation that takes none, none on one that takes one, or a `B_DRAW_BUFFER` payload
that is not 504 bytes long. -/
def Obligations.ChecksComeInOrder : Prop :=
  ∀ (s : State) (w : ReqWord) (p : Option (List Byte)) (rest : List Request), s.requests = .word w p :: rest →
    (s.halted = true → step s = .next ((s.withRequests rest).respond .refusedHalted 0)) ∧
    (s.halted = false → decodeWord w (p.getD []) = none →
      step s = .next ((s.withRequests rest).respond .illegalRequest 0)) ∧
    (∀ i, s.halted = false → decodeWord w (p.getD []) = some i → existsOn i.home s.cfg.variant = false →
      step s = .next ((s.withRequests rest).respond .wrongVariant 0)) ∧
    (∀ i, s.halted = false → decodeWord w (p.getD []) = some i → existsOn i.home s.cfg.variant = true →
      (p.isSome ≠ i.takesPayload ∨ (opField w = 0x25#8 ∧ (p.getD []).length ≠ 504)) →
      step s = .next ((s.withRequests rest).respond .badPayload 0))

/-- R240: every request ends with exactly one outcome: a step with a request at the port answers a next state, with a response,
one request fewer, and the parameters as before. -/
def Obligations.EveryRequestGetsAnOutcome : Prop :=
  ∀ (s : State) (r : Request) (rest : List Request), s.requests = r :: rest →
    ∃ t o, step s = .next t ∧ t.response = some o ∧ t.requests = rest ∧ t.cfg = s.cfg

/-- R281 (and log entry 5, the model's choice of what waiting is): a block without a request waits, unchanged. -/
def Obligations.IdleBlockWaits : Prop := ∀ s : State, s.requests = [] → step s = .next s

/-! ## The shifter -/

/-- R101, on any block, whatever its link: with every answer `ok`, `SHIFT_BYTE(b)` emits the 24 events of the byte, ends `OK`, and
leaves `DATA` at bit 0 of `b`, `CLK` low, and `CS`, `DC` and `RST` alone. When the answer to event `k` is the first `fail`, exactly
`k + 1` events have been emitted, the last one failed and its line `unspecified`; the outcome is `LinkFailure`; `CS`, `DC` and `RST`
are left alone and `halted` is not set. -/
def Obligations.ShiftByteEmitsOrStops : Prop :=
  ∀ (s : State) (b : Byte), s.halted = false →
    (AnswersOk (byteEvents b) s →
      exec (.shiftByte b) s = .next (afterOk s (byteEvents b)) ∧
        (afterOk s (byteEvents b)).data = .level (b.getLsbD 0) ∧ (afterOk s (byteEvents b)).clk = .level false ∧
        (afterOk s (byteEvents b)).cs = s.cs ∧ (afterOk s (byteEvents b)).dc = s.dc ∧
        (afterOk s (byteEvents b)).rst = s.rst) ∧
    (∀ (k : Nat) (l : Line) (v : Bit), FirstFailAt k s → (byteEvents b)[k]? = some (.set l v) →
      ∃ t, exec (.shiftByte b) s = .next t ∧
        t = (failEvent (performEvents s ((byteEvents b).take k)) (.set l v)).respond .linkFailure 0 ∧
        t.trace = s.trace ++ ((byteEvents b).take k).map (fun e => ⟨e, .ok⟩) ++ [⟨.set l v, .fail⟩] ∧
        t.line l = .unspecified ∧ t.cs = s.cs ∧ t.dc = s.dc ∧ t.rst = s.rst ∧ t.halted = false)

/-- R102: exactly 24 events, and for `j` in 0 to 7 the events at `3j`, `3j + 1`, `3j + 2` set the data line to bit
`(b >> (7 - j)) & 1`, raise the clock and lower it. -/
def Obligations.ShiftByteClocksMsbFirst : Prop :=
  ∀ (s : State) (b : Byte), s.halted = false → AnswersOk (byteEvents b) s →
    ∃ (t : State) (es : List Event), exec (.shiftByte b) s = .next t ∧ t.trace = s.trace ++ es.map (fun e => ⟨e, .ok⟩) ∧
      es.length = 24 ∧
      ∀ j, j < 8 → es[3 * j]? = some (.set .data (decide ((b >>> (7 - j)) &&& 1#8 = 1#8))) ∧
        es[3 * j + 1]? = some (.set .clk true) ∧ es[3 * j + 2]? = some (.set .clk false)

/-! ## The channel -/

/-- R112, R66 to R68: `SEND_COMMAND(b)` emits one command window holding the one byte, under each link style, and ends `OK`. -/
def Obligations.SendCommandEmitsOneWindow : Prop :=
  ∀ (s : State) (b : Byte), s.halted = false → AnswersOk (commandEvents s.cfg.link b) s →
    exec (.sendCommand b) s = .next (afterOk s (commandEvents s.cfg.link b))

/-- R113, R66 to R68: `SEND_DATA[bs]` emits one data window holding all its bytes in order, the empty payload included, and
ends `OK`. -/
def Obligations.SendDataEmitsOneWindow : Prop :=
  ∀ (s : State) (bs : List Byte), s.halted = false → AnswersOk (dataEvents s.cfg.link bs) s →
    exec (.sendData bs) s = .next (afterOk s (dataEvents s.cfg.link bs))

/-- R112, R113: the counts of events: 27, 4 or 29 for a command; `3 + 24n`, 4 or `2 + 27n` for `n` data bytes. -/
def Obligations.WindowEventCounts : Prop :=
  ∀ (s : State) (b : Byte) (bs : List Byte), s.halted = false →
    (AnswersOk (commandEvents s.cfg.link b) s → ∃ t, exec (.sendCommand b) s = .next t ∧
      t.trace.length = s.trace.length + (match s.cfg.link with
        | .lineBitbang => 27
        | .lineHw => 4
        | .inbandBitbang => 29)) ∧
    (AnswersOk (dataEvents s.cfg.link bs) s → ∃ t, exec (.sendData bs) s = .next t ∧
      t.trace.length = s.trace.length + (match s.cfg.link with
        | .lineBitbang => 3 + 24 * bs.length
        | .lineHw => 4
        | .inbandBitbang => 2 + 27 * bs.length))

/-- R114: between the `Set(CS,0)` and the `Set(CS,1)` of one `SEND_DATA` there is no other `Set(CS, _)` event. -/
def Obligations.BurstHoldsChipSelect : Prop :=
  ∀ (s : State) (bs : List Byte), s.halted = false → AnswersOk (dataEvents s.cfg.link bs) s →
    ∃ (t : State) (mid : List Event), exec (.sendData bs) s = .next t ∧
      t.trace = s.trace ++ (Event.set .cs false :: mid ++ [Event.set .cs true]).map (fun e => ⟨e, .ok⟩) ∧
      ∀ v, Event.set .cs v ∉ mid

/-- The window a channel operation emits. -/
def channelWindow (link : LinkStyle) : Instr → List Event
  | .sendCommand b => commandEvents link b
  | .sendData bs => dataEvents link bs
  | _ => []

/-- R110, R115: the first `fail` answer to event `k` of a `SEND_COMMAND` or `SEND_DATA` ends it with `LinkFailure`; no event of its
normal sequence follows; unless it was the closing release, exactly one `Set(CS,1)` follows, whose own answer is ignored; `halted`
is not set. -/
def Obligations.ChannelFailureReleasesOnce : Prop :=
  ∀ (s : State) (i : Instr) (k : Nat) (e : Event), ((∃ b, i = .sendCommand b) ∨ ∃ bs, i = .sendData bs) →
    s.halted = false → FirstFailAt k s → (channelWindow s.cfg.link i)[k]? = some e →
    (k + 1 < (channelWindow s.cfg.link i).length →
      exec i s = .next ((emitSet .cs true
        (failEvent (performEvents s ((channelWindow s.cfg.link i).take k)) e)).respond .linkFailure 0)) ∧
    (k + 1 = (channelWindow s.cfg.link i).length →
      exec i s = .next ((failEvent (performEvents s ((channelWindow s.cfg.link i).take k)) e).respond .linkFailure 0))

/-- R118: whatever the link style, a `SEND_COMMAND` whose answers are `ok` shows the receiver the one frame `(C, b)`, and leaves the
link in step for the next operation. -/
def Obligations.ReceiverHearsCommand : Prop :=
  ∀ (s : State) (b : Byte), s.halted = false → LinkInSync s → AnswersOk (commandEvents s.cfg.link b) s →
    ∃ t, exec (.sendCommand b) s = .next t ∧ t.wire = s.wire ++ [⟨.command, b⟩] ∧ LinkInSync t

/-- R118: whatever the link style, a `SEND_DATA` whose answers are `ok` shows the receiver the frames `(D, x)` for each `x` of the payload
in order, and leaves the link in step. -/
def Obligations.ReceiverHearsBurst : Prop :=
  ∀ (s : State) (bs : List Byte), s.halted = false → LinkInSync s → AnswersOk (dataEvents s.cfg.link bs) s →
    ∃ t, exec (.sendData bs) s = .next t ∧ t.wire = s.wire ++ bs.map (fun x => ⟨.data, x⟩) ∧ LinkInSync t

/-! ## Controller A's encoder -/

/-- R130, R132, R134 to R138: the operations of one command: `0xB0 | page`, `0x80 | c`, `0xA1` or `0xA8`, `0xC8` or `0xC0`, `0x2F`,
`0xAF`, `0x40`; a page of 8 or more and a contrast of 32 or more are precondition violations. -/
def Obligations.EncoderASendsOneCommand : Prop :=
  ∀ (s : State) (x : Byte) (f : Bit), s.halted = false → s.cfg.variant = .a →
    (x.toNat < 8 → AnswersOk (commandEvents s.cfg.link (0xB0#8 ||| x)) s →
      exec (.aSetPage x) s = .next (afterOk s (commandEvents s.cfg.link (0xB0#8 ||| x)))) ∧
    (x.toNat < 32 → AnswersOk (commandEvents s.cfg.link (0x80#8 ||| x)) s →
      exec (.aSetContrast x) s = .next (afterOk s (commandEvents s.cfg.link (0x80#8 ||| x)))) ∧
    (8 ≤ x.toNat → exec (.aSetPage x) s = .next (s.halt.respond .preconditionViolation 0)) ∧
    (32 ≤ x.toNat → exec (.aSetContrast x) s = .next (s.halt.respond .preconditionViolation 0)) ∧
    (AnswersOk (commandEvents s.cfg.link (if f then 0xA1#8 else 0xA8#8)) s →
      exec (.aFlipH f) s = .next (afterOk s (commandEvents s.cfg.link (if f then 0xA1#8 else 0xA8#8)))) ∧
    (AnswersOk (commandEvents s.cfg.link (if f then 0xC8#8 else 0xC0#8)) s →
      exec (.aFlipV f) s = .next (afterOk s (commandEvents s.cfg.link (if f then 0xC8#8 else 0xC0#8)))) ∧
    (AnswersOk (commandEvents s.cfg.link 0x2F#8) s →
      exec .aPowerOn s = .next (afterOk s (commandEvents s.cfg.link 0x2F#8))) ∧
    (AnswersOk (commandEvents s.cfg.link 0xAF#8) s →
      exec .aDisplayEnable s = .next (afterOk s (commandEvents s.cfg.link 0xAF#8))) ∧
    (AnswersOk (commandEvents s.cfg.link 0x40#8) s →
      exec .aScanStart s = .next (afterOk s (commandEvents s.cfg.link 0x40#8)))

/-- R131: `A_SET_COLUMN(col)` sends `0x10 | (col >> 4)`, then `col & 0xF`. -/
def Obligations.ColumnASendsHighNibbleFirst : Prop :=
  ∀ (s : State) (col : Byte), s.halted = false → s.cfg.variant = .a → col.toNat < 96 →
    AnswersOk (commandsEvents s.cfg.link [0x10#8 ||| (col >>> 4), col &&& 0x0F#8]) s →
    exec (.aSetColumn col) s = .next (afterOk s (commandsEvents s.cfg.link [0x10#8 ||| (col >>> 4), col &&& 0x0F#8]))

/-- The command bytes of Controller A's modes (R133). -/
def modeBytesA : DisplayMode → List Byte
  | .blank => [0xA7#8, 0xA5#8]
  | .normal => [0xA6#8, 0xA4#8]
  | .filled => [0xA6#8, 0xA5#8]
  | .inverse => [0xA7#8, 0xA4#8]

/-- R133: `A_SET_MODE(m)` sends the two commands of the mode table's row, the inverse command first. -/
def Obligations.ModeASendsTwoCommands : Prop :=
  ∀ (s : State) (m : DisplayMode), s.halted = false → s.cfg.variant = .a →
    AnswersOk (commandsEvents s.cfg.link (modeBytesA m)) s →
    exec (.aSetMode m) s = .next (afterOk s (commandsEvents s.cfg.link (modeBytesA m)))

/-- R139, R220, R221: `A_POWER_UP()` sends the six commands and clears; `A_INIT()` sends the reset pulse of 50, 5 and 10 ms
first. -/
def Obligations.PowerUpAndInitA : Prop :=
  ∀ s : State, s.halted = false → s.cfg.variant = .a →
    (AnswersOk (powerUpEventsA s.cfg) s → exec .aPowerUp s = .next (afterOk s (powerUpEventsA s.cfg))) ∧
    (AnswersOk (pulseEvents s.cfg ++ powerUpEventsA s.cfg) s →
      exec .aInit s = .next (afterOk s ([.set .rst (!s.cfg.rstActA), .delay 50, .set .rst s.cfg.rstActA, .delay 5,
        .set .rst (!s.cfg.rstActA), .delay 10] ++ powerUpEventsA s.cfg)))

/-! ## Controller B's encoder -/

/-- R160, R161, R163, R164: the operations of one command: `0x40 | page`, `0x80 | col`, the mode's byte, `0x22` or `0x20`; a page of
6 or more and a column of 84 or more are precondition violations. -/
def Obligations.EncoderBSendsOneCommand : Prop :=
  ∀ (s : State) (x : Byte) (f : Bit) (m : DisplayMode), s.halted = false → s.cfg.variant = .b →
    (x.toNat < 6 → AnswersOk (commandEvents s.cfg.link (0x40#8 ||| x)) s →
      exec (.bSetPage x) s = .next (afterOk s (commandEvents s.cfg.link (0x40#8 ||| x)))) ∧
    (x.toNat < 84 → AnswersOk (commandEvents s.cfg.link (0x80#8 ||| x)) s →
      exec (.bSetColumn x) s = .next (afterOk s (commandEvents s.cfg.link (0x80#8 ||| x)))) ∧
    (6 ≤ x.toNat → exec (.bSetPage x) s = .next (s.halt.respond .preconditionViolation 0)) ∧
    (84 ≤ x.toNat → exec (.bSetColumn x) s = .next (s.halt.respond .preconditionViolation 0)) ∧
    (∀ y : Byte, (m = .blank → y = 0x08#8) → (m = .normal → y = 0x0C#8) → (m = .filled → y = 0x09#8) →
      (m = .inverse → y = 0x0D#8) → AnswersOk (commandEvents s.cfg.link y) s →
      exec (.bSetMode m) s = .next (afterOk s (commandEvents s.cfg.link y))) ∧
    (AnswersOk (commandEvents s.cfg.link (if f then 0x22#8 else 0x20#8)) s →
      exec (.bSetAddressing f) s = .next (afterOk s (commandEvents s.cfg.link (if f then 0x22#8 else 0x20#8))))

/-- R162: `B_SET_COEFFS(v, t, b)` sends the entry byte, `0x80 | v`, `0x04 | t`, `0x10 | b` and the exit byte. -/
def Obligations.CoeffsSendBracket : Prop :=
  ∀ (s : State) (v t b : Byte), s.halted = false → s.cfg.variant = .b → v.toNat < 91 → t.toNat < 4 → b.toNat < 8 →
    AnswersOk (commandsEvents s.cfg.link [s.cfg.bExtEnter, 0x80#8 ||| v, 0x04#8 ||| t, 0x10#8 ||| b, s.cfg.bExtExit]) s →
    exec (.bSetCoeffs v t b) s = .next (afterOk s
      (commandsEvents s.cfg.link [s.cfg.bExtEnter, 0x80#8 ||| v, 0x04#8 ||| t, 0x10#8 ||| b, s.cfg.bExtExit]))

/-- R165: `B_DRAW_BUFFER[buf]` with 504 bytes sends 0x22, 0x40, 0x80, the buffer as one burst, 0x20, 0x40, 0x80; with another
length it is refused. -/
def Obligations.DrawBufferSequence : Prop :=
  ∀ (s : State) (buf : List Byte), s.halted = false → s.cfg.variant = .b →
    (buf.length = 504 → AnswersOk (drawEvents s.cfg buf) s →
      exec (.bDrawBuffer buf) s = .next (afterOk s (drawEvents s.cfg buf))) ∧
    (buf.length ≠ 504 → exec (.bDrawBuffer buf) s = .next (s.respond .badPayload 0))

/-- R166, R220, R222: `B_POWER_UP(v, t, b)` sends the coefficients, mode Normal and clears; `B_INIT(v, t, b)` sends the reset pulse
first, whose active level is the opposite of Controller A's and whose first delay is 10 ms. -/
def Obligations.PowerUpAndInitB : Prop :=
  ∀ (s : State) (v t b : Byte), s.halted = false → s.cfg.variant = .b → v.toNat < 91 → t.toNat < 4 → b.toNat < 8 →
    (AnswersOk (powerUpEventsB s.cfg v t b) s →
      exec (.bPowerUp v t b) s = .next (afterOk s (powerUpEventsB s.cfg v t b))) ∧
    (AnswersOk (pulseEvents s.cfg ++ powerUpEventsB s.cfg v t b) s →
      exec (.bInit v t b) s = .next (afterOk s ([.set .rst s.cfg.rstActA, .delay 10, .set .rst (!s.cfg.rstActA),
        .delay s.cfg.rstTPulseB, .set .rst s.cfg.rstActA, .delay s.cfg.rstTPostB] ++ powerUpEventsB s.cfg v t b)))

/-! ## The façade -/

/-- The bounds of a position (R6, R41, R42, R190). -/
def InBounds (v : Variant) (col page : Byte) : Prop :=
  match v with
  | .a => col.toNat < 96 ∧ page.toNat < 8
  | .b => col.toNat < 84 ∧ page.toNat < 6

/-- R190: `SET_POSITION(col, page)` within bounds sends the page command, then the column commands, of its controller. -/
def Obligations.SetPositionSendsPageThenColumn : Prop :=
  ∀ (s : State) (col page : Byte), s.halted = false → InBounds s.cfg.variant col page →
    AnswersOk (positionEvents s.cfg col page) s →
    exec (.setPosition col page) s = .next (afterOk s (positionEvents s.cfg col page))

/-- R191: `CLEAR()` homes the cursor, sends 768 (A) or 504 (B) zero bytes as one burst, and homes the cursor again. -/
def Obligations.ClearSequence : Prop :=
  ∀ s : State, s.halted = false → AnswersOk (clearEvents s.cfg) s → exec .clear s = .next (afterOk s (clearEvents s.cfg))

/-- R192, R193: a text whose codes all have glyphs is printed character by character, each as its glyph's columns and a gap of one
zero byte; `PRINT_CHAR` is the text of one character. -/
def Obligations.PrintWritesGlyphsAndGaps : Prop :=
  ∀ (s : State) (bs : List Byte), s.halted = false → (∀ x ∈ bs, Representable x) → AnswersOk (textEvents s.cfg bs) s →
    exec (.print bs) s = .next (afterOk s (textEvents s.cfg bs)) ∧
    ∀ code, bs = [code] → exec (.printChar code) s = .next (afterOk s (charEvents s.cfg code))

/-- R192, R193, R243: a code outside 0x20 to 0x7E ends `PRINT_CHAR` with `UnrepresentableGlyph` and no event; in a `PRINT` the
characters before it are written, nothing is emitted for it or any later one; `halted` stays as it was. -/
def Obligations.UnrepresentableGlyphStopsText : Prop :=
  ∀ (s : State) (good rest : List Byte) (bad : Byte), s.halted = false → (∀ x ∈ good, Representable x) →
    ¬ Representable bad → AnswersOk (textEvents s.cfg good) s →
    exec (.print (good ++ bad :: rest)) s =
        .next ((performEvents s (textEvents s.cfg good)).respond .unrepresentableGlyph 0) ∧
      exec (.printChar bad) s = .next (s.respond .unrepresentableGlyph 0)

/-- R194, R195: the two queries answer `(W << 8) | H_PX` and `(floor(W / (GLYPH_W + 1)) << 8) | P` and change nothing else, whatever
the environment would answer. -/
def Obligations.QueriesReportResolution : Prop :=
  ∀ s : State, s.halted = false →
    exec .getPixelRes s = .next (s.respond .ok (match s.cfg.variant with
      | .a => 0x6044#16
      | .b => 0x5430#16)) ∧
    exec .getCharRes s = .next (s.respond .ok (match s.cfg.variant with
      | .a => BitVec.ofNat 16 (96 / (s.cfg.glyphW + 1) * 256 + 8)
      | .b => BitVec.ofNat 16 (84 / (s.cfg.glyphW + 1) * 256 + 6)))

/-! ## The wire command bytes as instructions (log entry 10: the model's reading of those rows) -/

/-- R69, R112: on a block of variant A, each row of CMD_A (`cmdAColLo`, `cmdAColHi`, `cmdAPowerOn`, `cmdAScanStart`, `cmdAContrast`,
`cmdAFlipHOn`, `cmdAAllOn`, `cmdAInverse`, `cmdAFlipHOff`, `cmdADisplayEnable`, `cmdASetPage`, `cmdAFlipV`) sends the byte its
pattern spells as one command frame. -/
def Obligations.CommandRowsOfASendTheirByte : Prop :=
  ∀ (s : State) (i : Instr) (b x : Byte), s.halted = false → s.cfg.variant = .a → encode x i = .command .cmdA b →
    AnswersOk (commandEvents s.cfg.link b) s → exec i s = .next (afterOk s (commandEvents s.cfg.link b))

/-- R70, R71, R112: on a block of variant B, each row of CMD_B (`cmdBMode`, `cmdBFunction`, `cmdBSetPage`, `cmdBSetCol`) and of
CMD_B_EXT (`cmdBXTemp`, `cmdBXBias`, `cmdBXVop`, `cmdBXExit`) sends the byte its pattern spells, `B.X.EXIT` the parameter
`B_EXT_EXIT`, as one command frame. -/
def Obligations.CommandRowsOfBSendTheirByte : Prop :=
  ∀ (s : State) (i : Instr) (b : Byte), s.halted = false → s.cfg.variant = .b →
    (encode s.cfg.bExtExit i = .command .cmdB b ∨ encode s.cfg.bExtExit i = .command .cmdBExt b) →
    AnswersOk (commandEvents s.cfg.link b) s → exec i s = .next (afterOk s (commandEvents s.cfg.link b))

/-! ## Outcomes -/

/-- R242: every out-of-range operand of the list ends its operation with `PreconditionViolation`, before any event, and sets
`halted`; nothing else changes. -/
def Obligations.OutOfRangeOperandsViolate : Prop :=
  ∀ (s : State) (x y z : Byte), s.halted = false →
    (¬ InBounds s.cfg.variant x y → exec (.setPosition x y) s = .next (s.halt.respond .preconditionViolation 0)) ∧
    (s.cfg.variant = .a →
      (8 ≤ x.toNat → exec (.aSetPage x) s = .next (s.halt.respond .preconditionViolation 0)) ∧
      (96 ≤ x.toNat → exec (.aSetColumn x) s = .next (s.halt.respond .preconditionViolation 0)) ∧
      (32 ≤ x.toNat → exec (.aSetContrast x) s = .next (s.halt.respond .preconditionViolation 0))) ∧
    (s.cfg.variant = .b →
      (6 ≤ x.toNat → exec (.bSetPage x) s = .next (s.halt.respond .preconditionViolation 0)) ∧
      (84 ≤ x.toNat → exec (.bSetColumn x) s = .next (s.halt.respond .preconditionViolation 0)) ∧
      (91 ≤ x.toNat ∨ 4 ≤ y.toNat ∨ 8 ≤ z.toNat →
        exec (.bSetCoeffs x y z) s = .next (s.halt.respond .preconditionViolation 0) ∧
        exec (.bPowerUp x y z) s = .next (s.halt.respond .preconditionViolation 0) ∧
        exec (.bInit x y z) s = .next (s.halt.respond .preconditionViolation 0)))

/-- R242, R246: whenever any instruction ends with `PreconditionViolation`, it has emitted no event and changed nothing but `halted`. -/
def Obligations.ViolationHappensBeforeAnyEvent : Prop :=
  ∀ (i : Instr) (s t : State), exec i s = .next t → t.response = some ⟨.preconditionViolation, 0⟩ → s.halted = false →
    t = s.halt.respond .preconditionViolation 0

/-- R24: `halted` is set by the outcome `PreconditionViolation` and by nothing else, and no step clears it. -/
def Obligations.HaltedOnlyByViolation : Prop :=
  ∀ (s t : State), step s = .next t →
    (s.halted = true → t.halted = true) ∧
    (s.halted = false → s.requests ≠ [] → (t.halted = true ↔ ∃ v, t.response = some ⟨.preconditionViolation, v⟩))

/-- R245, R301: once halted, every later request is answered `Refused(Halted)`, and nothing but the port changes, however many steps
are made. -/
def Obligations.HaltedBlockStaysHalted : Prop :=
  ∀ (k : Nat) (s : State), s.halted = true → k < s.requests.length →
    core.run (k + 1) s = .next ((s.withRequests (s.requests.drop (k + 1))).respond .refusedHalted 0)

/-- R240, R244: a request that ends with one of the four refusals changes nothing but the port. -/
def Obligations.RefusalsChangeNothing : Prop :=
  ∀ (s t : State) (r : Request) (rest : List Request) (o : Response), s.requests = r :: rest → step s = .next t →
    t.response = some o →
    (o.outcome = .illegalRequest ∨ o.outcome = .wrongVariant ∨ o.outcome = .badPayload ∨ o.outcome = .refusedHalted) →
    t = (s.withRequests rest).respond o.outcome 0

/-- R110, R241, R251: for every instruction, take the events `es` it emits when the environment answers `ok` throughout. When instead the
answer to the fallible event number `n` of them is the first `fail`, the instruction emits the events before that one, that one,
and nothing of the rest; exactly one release of chip-select follows, except where the failed event was the closing release, an event of
the reset line or one of `SHIFT_BYTE`, after which nothing follows; the outcome is `LinkFailure` and `halted` is not set. When the first
`fail` would come only after `es`, the instruction emits `es` and answers as with `ok` throughout. -/
def Obligations.FailureCutsTheNormalSequence : Prop :=
  ∀ (i : Instr) (s u : State) (es : List Event) (n : Nat), exec i { s with answers := [] } = .next u →
    u.trace = s.trace ++ es.map (fun e => ⟨e, .ok⟩) → FirstFailAt n s →
    ∃ t, exec i s = .next t ∧
      (n < answersTaken es → ∃ (pre rest : List Event) (e : Event) (tail : List TraceEntry), es = pre ++ e :: rest ∧
        e.fallible = true ∧ answersTaken pre = n ∧
        t.trace = s.trace ++ pre.map (fun e => ⟨e, .ok⟩) ++ ⟨e, .fail⟩ :: tail ∧
        ReleasedAfter i e tail ∧ t.response = some ⟨.linkFailure, 0⟩ ∧ t.halted = false) ∧
      (answersTaken es ≤ n → t.trace = u.trace ∧ t.response = u.response ∧ t.halted = u.halted)

/-- R110, R240, R241, R251: how the outcome of an instruction and the answers in its events fit together: with `OK` every event was
answered `ok`; with `LinkFailure` the events up to the failed one were, the failed one follows, and after it exactly one `Set(CS,1)`, or
nothing where the failed event was the closing release, an event of the reset line or one of `SHIFT_BYTE`. -/
def Obligations.OutcomeFollowsAnswers : Prop :=
  ∀ (i : Instr) (s t : State), exec i s = .next t → s.halted = false →
    ∃ new : List TraceEntry, t.trace = s.trace ++ new ∧
      (∀ v, t.response = some ⟨.ok, v⟩ → ∀ x ∈ new, x.answer = .ok) ∧
      (∀ v, t.response = some ⟨.linkFailure, v⟩ → ∃ pre e tail, new = pre ++ ⟨e, .fail⟩ :: tail ∧
        (∀ x ∈ pre, x.answer = .ok) ∧ ReleasedAfter i e tail)

/-- R220, R221, R222: a reset line event that fails ends `A_INIT` or `B_INIT` with `LinkFailure` at once: the events so far, the failed
one, no release of any line; the reset line is `unspecified` and `halted` is not set. -/
def Obligations.ResetPulseFailureStops : Prop :=
  ∀ (s : State) (i : Instr) (k : Nat) (e : Event), s.halted = false →
    ((s.cfg.variant = .a ∧ i = .aInit) ∨
      (s.cfg.variant = .b ∧ ∃ v x b : Byte, v.toNat < 91 ∧ x.toNat < 4 ∧ b.toNat < 8 ∧ i = .bInit v x b)) →
    k < 3 → FirstFailAt k s → (pulseEvents s.cfg)[2 * k]? = some e →
    ∃ t, exec i s = .next t ∧
      t = (failEvent (performEvents s ((pulseEvents s.cfg).take (2 * k))) e).respond .linkFailure 0 ∧
      t.rst = .unspecified ∧ t.halted = false

/-! ## Frames and whole-machine rules -/

/-- R6, R12, R54: whatever an instruction does, the parameters, the requests to come and the trace so far stay as they are; the trace is
extended by the new events; and the environment's answers are taken one for each new fallible event, in order. -/
def Obligations.EveryInstructionFrame : Prop :=
  ∀ (i : Instr) (s t : State), exec i s = .next t →
    t.cfg = s.cfg ∧ t.requests = s.requests ∧
      ∃ new : List TraceEntry, t.trace = s.trace ++ new ∧
        t.answers = s.answers.drop (answersTaken (new.map (fun x => x.event)))

/-- R21, R22: each line is left as it was by every instruction that does not drive it: `RST` by all but the two initialisations; `DC` in
band and by `SHIFT_BYTE`; `CS` by `SHIFT_BYTE`; `CLK` and `DATA`, with the hardware primitive, by all but `SHIFT_BYTE`; all five by
the two queries. -/
def Obligations.LinesChangeOnlyByTheirDrivers : Prop :=
  ∀ (i : Instr) (s t : State), exec i s = .next t →
    (i ≠ .aInit → (∀ v x b, i ≠ .bInit v x b) → t.rst = s.rst) ∧
    (s.cfg.link.dcStyle = .inband → t.dc = s.dc) ∧
    ((∃ b, i = .shiftByte b) → t.cs = s.cs ∧ t.dc = s.dc) ∧
    (s.cfg.link.xfer = .hw → (∀ b, i ≠ .shiftByte b) → t.clk = s.clk ∧ t.data = s.data) ∧
    (i = .getPixelRes ∨ i = .getCharRes → t.clk = s.clk ∧ t.data = s.data ∧ t.cs = s.cs ∧ t.dc = s.dc ∧ t.rst = s.rst)

/-- R224, R283, R299: no instruction but the two initialisations emits a `Delay` or drives the reset line, so none brings under the
rules a controller that they did not describe (log entry 15: what is known of the controller). The premise of the second clause is the
invariant of StepKeepsInvariant, by which no initialisation is under way. -/
def Obligations.OnlyInitDelaysOrResets : Prop :=
  ∀ (i : Instr) (s t : State), exec i s = .next t → i ≠ .aInit → (∀ v x b, i ≠ .bInit v x b) →
    (∃ new : List TraceEntry, t.trace = s.trace ++ new ∧
      ∀ x ∈ new, (∀ n, x.event ≠ .delay n) ∧ ∀ v, x.event ≠ .set .rst v) ∧
    (Consistent s → s.controller.described = false → t.controller.described = false)

/-- R12, R20, R21: no operation reads a line register, the trace or the last response: on two blocks that differ in those alone, an
instruction emits the same events, gives the same response and leaves the same answers and the same `halted`. -/
def Obligations.LinesAndTraceAreNeverRead : Prop :=
  ∀ (i : Instr) (s s' : State), s.cfg = s'.cfg → s.halted = s'.halted → s.answers = s'.answers →
    ∃ t t' new, exec i s = .next t ∧ exec i s' = .next t' ∧ t.trace = s.trace ++ new ∧ t'.trace = s'.trace ++ new ∧
      t.response = t'.response ∧ t.halted = t'.halted ∧ t.answers = t'.answers

/-- R21 to R23, R223: every step keeps the invariant: each line register holds what the trace last did to it, the trace holds only
events this link can have, and no initialisation is left under way. -/
def Obligations.StepKeepsInvariant : Prop := ∀ s t : State, Consistent s → step s = .next t → Consistent t

/-- R33: the invariant holds right after block reset, whatever the parameters. -/
def Obligations.ResetHasInvariant : Prop := ∀ c : Config, Consistent (State.ofConfig c)

/-- R290: the clock is low and chip-select released after every operation that ended `OK` on a block where they were so before. -/
def Obligations.IdleLevelsAfterOk : Prop :=
  ∀ (i : Instr) (s t : State), s.clk = .level false → s.cs = .level true → exec i s = .next t → s.halted = false →
    (∃ v, t.response = some ⟨.ok, v⟩) → t.clk = .level false ∧ t.cs = .level true

/-! ## Block reset -/

/-- R33, R280: the levels, flag and trace right after block reset, on a link with a `DC` line and on one without. -/
def Obligations.ResetValuesAsListed : Prop :=
  ∀ c : Config, (State.ofConfig c).clk = .level false ∧ (State.ofConfig c).cs = .level true ∧
    (State.ofConfig c).data = .unspecified ∧ (State.ofConfig c).rst = .unspecified ∧
    (c.link.dcStyle = .line → (State.ofConfig c).dc = .unspecified) ∧
    (c.link.dcStyle = .inband → (State.ofConfig c).dc = .absent) ∧
    (State.ofConfig c).halted = false ∧ (State.ofConfig c).trace = []

/-- R280 (and log entry 16, what the model's block reset leaves of the inputs): block reset clears `halted`, sets `CLK` to 0 and `CS`
to 1, leaves the other lines `unspecified` (`DC` absent in band), empties the trace and keeps the parameters; it emits no event; and
so a halted block serves its next request again. -/
def Obligations.BlockResetClearsHalted : Prop :=
  ∀ s : State, (blockReset s).halted = false ∧ (blockReset s).clk = .level false ∧ (blockReset s).cs = .level true ∧
    (blockReset s).data = .unspecified ∧ (blockReset s).rst = .unspecified ∧
    (s.cfg.link.dcStyle = .line → (blockReset s).dc = .unspecified) ∧
    (s.cfg.link.dcStyle = .inband → (blockReset s).dc = .absent) ∧
    (blockReset s).trace = [] ∧ (blockReset s).cfg = s.cfg ∧
    ∀ (r : Request) (rest : List Request) (i : Instr), s.requests = r :: rest → decodeRequest s.cfg r = .ok i →
      ∃ t o, step (blockReset s) = .next t ∧ step (blockReset s) = exec i ((blockReset s).withRequests rest) ∧
        t.response = some o ∧ o.outcome ≠ .refusedHalted

/-! ## What the receiver hears of composites -/

/-- R196: `SET_POSITION`, one data byte and the same `SET_POSITION` again show the receiver the same position frames both times. -/
def Obligations.PositioningIsIdempotent : Prop :=
  ∀ (s : State) (col page x : Byte), s.halted = false → LinkInSync s → InBounds s.cfg.variant col page →
    AnswersOk (positionEvents s.cfg col page ++ dataEvents s.cfg.link [x] ++ positionEvents s.cfg col page) s →
    ∃ t u v, exec (.setPosition col page) s = .next t ∧ exec (.sendData [x]) t = .next u ∧
      exec (.setPosition col page) u = .next v ∧
      v.wire = s.wire ++ (positionBytes s.cfg.variant col page).map (fun y => ⟨.command, y⟩) ++ [⟨.data, x⟩] ++
        (positionBytes s.cfg.variant col page).map (fun y => ⟨.command, y⟩)

/-- The frames of `CLEAR()` (R191). -/
def clearFrames (v : Variant) : List Frame :=
  (positionBytes v 0 0).map (fun y => ⟨.command, y⟩) ++ (zeroFill v).map (fun y => ⟨.data, y⟩) ++
    (positionBytes v 0 0).map (fun y => ⟨.command, y⟩)

/-- R191, R197: the frames of `CLEAR()` are the same list whatever came before it. -/
def Obligations.ClearFramesNeverVary : Prop :=
  ∀ s : State, s.halted = false → LinkInSync s → AnswersOk (clearEvents s.cfg) s →
    ∃ t, exec .clear s = .next t ∧ t.wire = s.wire ++ clearFrames s.cfg.variant

/-- R221: the frames of `A_INIT()`: 0x2F, 0x80, 0xA6, 0xA4, 0xAF, 0x40, then 0xB0, 0x10, 0x00, 768 zero bytes, 0xB0, 0x10, 0x00. -/
def Obligations.InitAFrames : Prop :=
  ∀ s : State, s.halted = false → s.cfg.variant = .a → LinkInSync s →
    AnswersOk (pulseEvents s.cfg ++ powerUpEventsA s.cfg) s →
    ∃ t, exec .aInit s = .next t ∧ t.wire = s.wire ++
      [0x2F#8, 0x80#8, 0xA6#8, 0xA4#8, 0xAF#8, 0x40#8, 0xB0#8, 0x10#8, 0x00#8].map (fun y => ⟨.command, y⟩) ++
      (List.replicate 768 0x00#8).map (fun y => ⟨.data, y⟩) ++ [0xB0#8, 0x10#8, 0x00#8].map (fun y => ⟨.command, y⟩)

/-- R165: the frames of `B_DRAW_BUFFER[buf]`: 0x22, 0x40, 0x80, the 504 bytes of the buffer, 0x20, 0x40, 0x80. -/
def Obligations.DrawBufferFrames : Prop :=
  ∀ (s : State) (buf : List Byte), s.halted = false → s.cfg.variant = .b → LinkInSync s → buf.length = 504 →
    AnswersOk (drawEvents s.cfg buf) s →
    ∃ t, exec (.bDrawBuffer buf) s = .next t ∧ t.wire = s.wire ++
      [0x22#8, 0x40#8, 0x80#8].map (fun y => ⟨.command, y⟩) ++ buf.map (fun y => ⟨.data, y⟩) ++
      [0x20#8, 0x40#8, 0x80#8].map (fun y => ⟨.command, y⟩)

/-- R284, R297: after `A_INIT()` ended `OK`, whatever came before it and whatever of that failed, the controller has the settings R284
lists: contrast 0, mode Normal, display enabled, scan start line 0 and cursor (0,0); and nothing is known of its flips. Display memory,
which R284 lists too, is left out (00_scope.md R5 (d)). What is taken as known of the controller is log entry 15; that nothing which
failed before counts ("whatever of that failed") is log entry 18. -/
def Obligations.InitALeavesController : Prop :=
  ∀ s : State, s.halted = false → s.cfg.variant = .a → AnswersOk (pulseEvents s.cfg ++ powerUpEventsA s.cfg) s →
    ∃ t, exec .aInit s = .next t ∧ t.response = some ⟨.ok, 0⟩ ∧ t.controller.described = true ∧
      t.controller.contrast = some 0 ∧ t.controller.inverse = some false ∧ t.controller.allOn = some false ∧
      t.controller.enabled = some true ∧ t.controller.scanLine0 = some true ∧ t.controller.page = some 0 ∧
      t.controller.colHigh = some 0 ∧ t.controller.colLow = some 0 ∧
      t.controller.flipH = none ∧ t.controller.flipV = none

/-- R284, R297: after `B_INIT(v, t, b)` ended `OK`, whatever came before it and whatever of that failed, the controller has the
settings R284 lists: the coefficients `(v, t, b)`, the basic instruction set, horizontal addressing, mode Normal and cursor (0,0),
whatever the entry and exit bytes, as long as the exit byte is none of the coefficient bytes and the entry byte is none of the
commands sent after it and selects no vertical addressing. Display memory, which R284 lists too, is left out (00_scope.md R5 (d)).
How entry and exit bytes that coincide with a row are read is log entry 13, and where the two are equal log entry 19; what is
taken as known of the controller is log entry 15; that nothing which failed before counts ("whatever of that failed") is log entry
18. -/
def Obligations.InitBLeavesController : Prop :=
  ∀ (s : State) (v x b : Byte), s.halted = false → s.cfg.variant = .b → v.toNat < 91 → x.toNat < 4 → b.toNat < 8 →
    (∀ y ∈ [0x80#8 ||| v, 0x04#8 ||| x, 0x10#8 ||| b], y ≠ s.cfg.bExtExit) →
    (∀ y ∈ [0x0C#8, 0x40#8, 0x80#8, 0x22#8, 0x23#8], y ≠ s.cfg.bExtEnter) →
    AnswersOk (pulseEvents s.cfg ++ powerUpEventsB s.cfg v x b) s →
    ∃ t, exec (.bInit v x b) s = .next t ∧ t.response = some ⟨.ok, 0⟩ ∧ t.controller.described = true ∧
      t.controller.voltage = some v.toNat ∧ t.controller.temperature = some x.toNat ∧ t.controller.bias = some b.toNat ∧
      t.controller.set = some .basic ∧ t.controller.vertical = some false ∧ t.controller.mode = some (true, false) ∧
      t.controller.page = some 0 ∧ t.controller.col = some 0

/-- The operations that send the coefficients bracket `(v, x, b)`, and how many fallible events they emit before it. -/
def SendsBracket (i : Instr) (v x b : Byte) (before : Nat) : Prop :=
  (before = 0 ∧ (i = .bSetCoeffs v x b ∨ i = .bPowerUp v x b)) ∨ (before = 3 ∧ i = .bInit v x b)

/-- R293 (and log entries 15, 18 and 20, and 19 where the entry and exit bytes are equal): if `B_SET_COEFFS`, alone or inside
`B_POWER_UP` or `B_INIT`, fails after the entry command was delivered and before the exit command could be, the controller stays
in its extended instruction set; and if the clock is not left unspecified and chip-select was released, a `B_SET_COLUMN` that
follows sets the voltage coefficient. A command of `n` events is delivered by the one before its last, and where that one fails it
may or may not have been: then the set is not known. The rules go on describing a controller whose INIT had ended `OK`; of one
whose `B_INIT` failed the addressing, the cursor and the mode are unknown (R283, R297). The premise is that the entry command is
heard as it is sent: no clock or chip-select is left unspecified by an earlier failure (R290, R292). -/
def Obligations.FailedBracketStaysExtended : Prop :=
  ∀ (s : State) (i : Instr) (v x b : Byte) (k n before : Nat), s.halted = false → s.cfg.variant = .b → SendsBracket i v x b before →
    (receiverAfter s.cfg s.trace).Ready → (before = 0 → BasicReady s) → v.toNat < 91 → x.toNat < 4 → b.toNat < 8 →
    (∀ y ∈ [0x80#8 ||| v, 0x04#8 ||| x, 0x10#8 ||| b], y ≠ s.cfg.bExtExit) →
    n = (commandEvents s.cfg.link 0x00#8).length → n - 1 ≤ k → k ≤ 5 * n - 2 → FirstFailAt (before + k) s →
    ∃ t, exec i s = .next t ∧ t.response = some ⟨.linkFailure, 0⟩ ∧
      (before = 0 → t.controller.described = true) ∧
      (before = 3 → t.controller.described = false ∧ t.controller.vertical = none ∧ t.controller.page = none ∧
        t.controller.col = none ∧ t.controller.mode = none) ∧
      (k ≤ 5 * n - 3 → t.controller.set = some .extended ∧
        ∀ col : Byte, col.toNat < 84 → 0x80#8 ||| col ≠ s.cfg.bExtExit → t.cs = .level true → t.clk ≠ .unspecified →
          AnswersOk (commandEvents s.cfg.link (0x80#8 ||| col)) t →
          ∃ u, exec (.bSetColumn col) t = .next u ∧ u.controller.voltage = some col.toNat ∧
            u.controller.set = some .extended) ∧
      (k = 5 * n - 2 → t.controller.set = none)

/-- R294 (and log entries 15, 18 and 20): if `B_DRAW_BUFFER` fails after 0x22 was delivered and before 0x20 could be, on a block
whose controller was in its basic instruction set, the controller stays in vertical addressing; where the event that would deliver
0x20 fails, the addressing is not known. -/
def Obligations.FailedDrawStaysVertical : Prop :=
  ∀ (s : State) (buf : List Byte) (k n d : Nat), s.halted = false → s.cfg.variant = .b → BasicReady s → buf.length = 504 →
    (∀ y ∈ [0x22#8, 0x40#8, 0x80#8, 0x20#8], y ≠ s.cfg.bExtEnter) →
    n = (commandEvents s.cfg.link 0x00#8).length → d = (dataEvents s.cfg.link buf).length →
    n - 1 ≤ k → k ≤ 4 * n + d - 2 → FirstFailAt k s →
    ∃ t, exec (.bDrawBuffer buf) s = .next t ∧ t.response = some ⟨.linkFailure, 0⟩ ∧ t.controller.described = true ∧
      (k ≤ 4 * n + d - 3 → t.controller.vertical = some true) ∧ (k = 4 * n + d - 2 → t.controller.vertical = none)
end

