-- ==== Sys2Proof/Laws/State.lean ====
section
/-! SUPPORT. What each update of a state does to each field: one lemma for a field and an update. -/

namespace Sys2Proof.Machine

section
variable (s : State) (e : Event) (a : Answer) (o : OpOutcome) (v : Value) (l l' : Line) (x : LineLevel) (rs : List Request)

@[simp] theorem State.log_cfg : (s.log e a).cfg = s.cfg := rfl
@[simp] theorem State.log_clk : (s.log e a).clk = s.clk := rfl
@[simp] theorem State.log_data : (s.log e a).data = s.data := rfl
@[simp] theorem State.log_cs : (s.log e a).cs = s.cs := rfl
@[simp] theorem State.log_dc : (s.log e a).dc = s.dc := rfl
@[simp] theorem State.log_rst : (s.log e a).rst = s.rst := rfl
@[simp] theorem State.log_halted : (s.log e a).halted = s.halted := rfl
@[simp] theorem State.log_rtrace : (s.log e a).rtrace = ⟨e, a⟩ :: s.rtrace := rfl
@[simp] theorem State.log_answers : (s.log e a).answers = s.answers := rfl
@[simp] theorem State.log_requests : (s.log e a).requests = s.requests := rfl
@[simp] theorem State.log_response : (s.log e a).response = s.response := rfl
@[simp] theorem State.log_trace : (s.log e a).trace = s.trace ++ [⟨e, a⟩] := by simp [State.trace, State.log]
@[simp] theorem State.log_line : (s.log e a).line l = s.line l := by cases l <;> rfl

@[simp] theorem State.consume_cfg : (s.consume).cfg = s.cfg := rfl
@[simp] theorem State.consume_clk : (s.consume).clk = s.clk := rfl
@[simp] theorem State.consume_data : (s.consume).data = s.data := rfl
@[simp] theorem State.consume_cs : (s.consume).cs = s.cs := rfl
@[simp] theorem State.consume_dc : (s.consume).dc = s.dc := rfl
@[simp] theorem State.consume_rst : (s.consume).rst = s.rst := rfl
@[simp] theorem State.consume_halted : (s.consume).halted = s.halted := rfl
@[simp] theorem State.consume_rtrace : (s.consume).rtrace = s.rtrace := rfl
@[simp] theorem State.consume_answers : (s.consume).answers = s.answers.tail := rfl
@[simp] theorem State.consume_requests : (s.consume).requests = s.requests := rfl
@[simp] theorem State.consume_response : (s.consume).response = s.response := rfl
@[simp] theorem State.consume_trace : (s.consume).trace = s.trace := rfl
@[simp] theorem State.consume_line : (s.consume).line l = s.line l := by cases l <;> rfl

@[simp] theorem State.respond_cfg : (s.respond o v).cfg = s.cfg := rfl
@[simp] theorem State.respond_clk : (s.respond o v).clk = s.clk := rfl
@[simp] theorem State.respond_data : (s.respond o v).data = s.data := rfl
@[simp] theorem State.respond_cs : (s.respond o v).cs = s.cs := rfl
@[simp] theorem State.respond_dc : (s.respond o v).dc = s.dc := rfl
@[simp] theorem State.respond_rst : (s.respond o v).rst = s.rst := rfl
@[simp] theorem State.respond_halted : (s.respond o v).halted = s.halted := rfl
@[simp] theorem State.respond_rtrace : (s.respond o v).rtrace = s.rtrace := rfl
@[simp] theorem State.respond_answers : (s.respond o v).answers = s.answers := rfl
@[simp] theorem State.respond_requests : (s.respond o v).requests = s.requests := rfl
@[simp] theorem State.respond_response : (s.respond o v).response = some ⟨o, v⟩ := rfl
@[simp] theorem State.respond_trace : (s.respond o v).trace = s.trace := rfl
@[simp] theorem State.respond_line : (s.respond o v).line l = s.line l := by cases l <;> rfl

@[simp] theorem State.halt_cfg : (s.halt).cfg = s.cfg := rfl
@[simp] theorem State.halt_clk : (s.halt).clk = s.clk := rfl
@[simp] theorem State.halt_data : (s.halt).data = s.data := rfl
@[simp] theorem State.halt_cs : (s.halt).cs = s.cs := rfl
@[simp] theorem State.halt_dc : (s.halt).dc = s.dc := rfl
@[simp] theorem State.halt_rst : (s.halt).rst = s.rst := rfl
@[simp] theorem State.halt_halted : (s.halt).halted = true := rfl
@[simp] theorem State.halt_rtrace : (s.halt).rtrace = s.rtrace := rfl
@[simp] theorem State.halt_answers : (s.halt).answers = s.answers := rfl
@[simp] theorem State.halt_requests : (s.halt).requests = s.requests := rfl
@[simp] theorem State.halt_response : (s.halt).response = s.response := rfl
@[simp] theorem State.halt_trace : (s.halt).trace = s.trace := rfl
@[simp] theorem State.halt_line : (s.halt).line l = s.line l := by cases l <;> rfl

@[simp] theorem State.withRequests_cfg : (s.withRequests rs).cfg = s.cfg := rfl
@[simp] theorem State.withRequests_clk : (s.withRequests rs).clk = s.clk := rfl
@[simp] theorem State.withRequests_data : (s.withRequests rs).data = s.data := rfl
@[simp] theorem State.withRequests_cs : (s.withRequests rs).cs = s.cs := rfl
@[simp] theorem State.withRequests_dc : (s.withRequests rs).dc = s.dc := rfl
@[simp] theorem State.withRequests_rst : (s.withRequests rs).rst = s.rst := rfl
@[simp] theorem State.withRequests_halted : (s.withRequests rs).halted = s.halted := rfl
@[simp] theorem State.withRequests_rtrace : (s.withRequests rs).rtrace = s.rtrace := rfl
@[simp] theorem State.withRequests_answers : (s.withRequests rs).answers = s.answers := rfl
@[simp] theorem State.withRequests_requests : (s.withRequests rs).requests = rs := rfl
@[simp] theorem State.withRequests_response : (s.withRequests rs).response = s.response := rfl
@[simp] theorem State.withRequests_trace : (s.withRequests rs).trace = s.trace := rfl
@[simp] theorem State.withRequests_line : (s.withRequests rs).line l = s.line l := by cases l <;> rfl

@[simp] theorem State.setLine_cfg : (s.setLine l x).cfg = s.cfg := by cases l <;> rfl
@[simp] theorem State.setLine_halted : (s.setLine l x).halted = s.halted := by cases l <;> rfl
@[simp] theorem State.setLine_rtrace : (s.setLine l x).rtrace = s.rtrace := by cases l <;> rfl
@[simp] theorem State.setLine_answers : (s.setLine l x).answers = s.answers := by cases l <;> rfl
@[simp] theorem State.setLine_requests : (s.setLine l x).requests = s.requests := by cases l <;> rfl
@[simp] theorem State.setLine_response : (s.setLine l x).response = s.response := by cases l <;> rfl
@[simp] theorem State.setLine_trace : (s.setLine l x).trace = s.trace := by cases l <;> rfl
@[simp] theorem State.setLine_line_same : (s.setLine l x).line l = x := by cases l <;> rfl
theorem State.setLine_line_other (h : l' ≠ l) : (s.setLine l x).line l' = s.line l' := by
  cases l <;> cases l' <;> first | rfl | exact absurd rfl h
theorem State.setLine_line : (s.setLine l x).line l' = if l' = l then x else s.line l' := by
  split
  · next h => subst h; simp
  · next h => exact State.setLine_line_other s l l' x h

end

end Sys2Proof.Machine
end

