-- ==== Sys2Proof/Laws/Ops.lean ====
section
/-! SUPPORT. The shared operations: sequencing, what one event does, and what a list of events does. -/

namespace Sys2Proof.Machine

/-! ## Sequencing -/

@[simp] theorem done_andThen (a : Act) : andThen done a = a := rfl

@[simp] theorem andThen_done (a : Act) : andThen a done = a := by
  funext s
  unfold andThen done
  rcases a s with ⟨s', _ | r⟩ <;> rfl

theorem andThen_assoc (a b c : Act) : andThen (andThen a b) c = andThen a (andThen b c) := by
  funext s
  unfold andThen
  rcases a s with ⟨s', _ | r⟩ <;> rfl

@[simp] theorem inOrder_nil : inOrder [] = done := rfl

@[simp] theorem inOrder_cons (a : Act) (as : List Act) : inOrder (a :: as) = andThen a (inOrder as) := rfl

theorem inOrder_append (as bs : List Act) : inOrder (as ++ bs) = andThen (inOrder as) (inOrder bs) := by
  induction as with
  | nil => rfl
  | cons a as ih => simp [ih, andThen_assoc]

theorem andThen_of_none {a b : Act} {s t : State} (h : a s = (t, none)) : andThen a b s = b t := by
  simp [andThen, h]

theorem andThen_of_some {a b : Act} {s t : State} {r : Raise} (h : a s = (t, some r)) : andThen a b s = (t, some r) := by
  simp [andThen, h]

@[simp] theorem require_true : require true = done := rfl

@[simp] theorem require_false : require false = raise .preconditionViolation := rfl

@[simp] theorem raise_andThen (r : Raise) (b : Act) : andThen (raise r) b = raise r := rfl

theorem withConfig_apply (f : Config → Act) (s : State) : withConfig f s = f s.cfg s := rfl

/-! ## One event with its answer -/

/-- The state after one event of a trace, whatever its answer. -/
def applyEntry (s : State) (t : TraceEntry) : State :=
  match t.event with
  | .set l v => ((s.log t.event t.answer).consume).setLine l (levelAfter v t.answer)
  | .delay _ => s.log t.event t.answer
  | .hwWrite _ => (s.log t.event t.answer).consume

/-- The state after a list of events with their answers. -/
def applyEntries (s : State) (ts : List TraceEntry) : State := ts.foldl applyEntry s

@[simp] theorem applyEntries_nil (s : State) : applyEntries s [] = s := rfl

@[simp] theorem applyEntries_cons (s : State) (t : TraceEntry) (ts : List TraceEntry) :
    applyEntries s (t :: ts) = applyEntries (applyEntry s t) ts := rfl

theorem applyEntries_append (s : State) (ts us : List TraceEntry) :
    applyEntries s (ts ++ us) = applyEntries (applyEntries s ts) us := by simp [applyEntries]

theorem applyEntry_cfg (s : State) (t : TraceEntry) : (applyEntry s t).cfg = s.cfg := by
  unfold applyEntry; split <;> simp

theorem applyEntry_halted (s : State) (t : TraceEntry) : (applyEntry s t).halted = s.halted := by
  unfold applyEntry; split <;> simp

theorem applyEntry_requests (s : State) (t : TraceEntry) : (applyEntry s t).requests = s.requests := by
  unfold applyEntry; split <;> simp

theorem applyEntry_response (s : State) (t : TraceEntry) : (applyEntry s t).response = s.response := by
  unfold applyEntry; split <;> simp

theorem applyEntry_trace (s : State) (t : TraceEntry) : (applyEntry s t).trace = s.trace ++ [t] := by
  unfold applyEntry; split <;> simp

theorem applyEntry_answers (s : State) (t : TraceEntry) :
    (applyEntry s t).answers = s.answers.drop (answersTaken [t.event]) := by
  unfold applyEntry; split <;> rename_i h <;> simp [answersTaken, h, Event.fallible]

theorem applyEntry_line (s : State) (t : TraceEntry) (l : Line) :
    (applyEntry s t).line l = lineFrom l (s.line l) [t] := by
  unfold applyEntry lineFrom
  split <;> rename_i h <;> simp [h, State.setLine_line, eq_comm]

theorem answersTaken_append (es fs : List Event) : answersTaken (es ++ fs) = answersTaken es + answersTaken fs := by
  simp [answersTaken]

theorem answersTaken_cons (e : Event) (es : List Event) : answersTaken (e :: es) = answersTaken [e] + answersTaken es :=
  answersTaken_append [e] es

@[simp] theorem answersTaken_nil : answersTaken [] = 0 := rfl

theorem lineFrom_append (l : Line) (x : LineLevel) (ts us : List TraceEntry) :
    lineFrom l x (ts ++ us) = lineFrom l (lineFrom l x ts) us := by simp [lineFrom]

/-! ## What a list of events leaves of each field -/

@[simp] theorem applyEntries_cfg (s : State) (ts : List TraceEntry) : (applyEntries s ts).cfg = s.cfg := by
  induction ts generalizing s with
  | nil => rfl
  | cons t ts ih => simp [ih, applyEntry_cfg]

@[simp] theorem applyEntries_halted (s : State) (ts : List TraceEntry) : (applyEntries s ts).halted = s.halted := by
  induction ts generalizing s with
  | nil => rfl
  | cons t ts ih => simp [ih, applyEntry_halted]

@[simp] theorem applyEntries_requests (s : State) (ts : List TraceEntry) :
    (applyEntries s ts).requests = s.requests := by
  induction ts generalizing s with
  | nil => rfl
  | cons t ts ih => simp [ih, applyEntry_requests]

@[simp] theorem applyEntries_response (s : State) (ts : List TraceEntry) :
    (applyEntries s ts).response = s.response := by
  induction ts generalizing s with
  | nil => rfl
  | cons t ts ih => simp [ih, applyEntry_response]

@[simp] theorem applyEntries_trace (s : State) (ts : List TraceEntry) : (applyEntries s ts).trace = s.trace ++ ts := by
  induction ts generalizing s with
  | nil => simp
  | cons t ts ih => simp [ih, applyEntry_trace]

@[simp] theorem applyEntries_answers (s : State) (ts : List TraceEntry) :
    (applyEntries s ts).answers = s.answers.drop (answersTaken (ts.map (·.event))) := by
  induction ts generalizing s with
  | nil => simp
  | cons t ts ih => rw [applyEntries_cons, ih, applyEntry_answers, List.drop_drop, List.map_cons, ← answersTaken_append, List.singleton_append]

@[simp] theorem applyEntries_line (s : State) (ts : List TraceEntry) (l : Line) :
    (applyEntries s ts).line l = lineFrom l (s.line l) ts := by
  induction ts generalizing s with
  | nil => rfl
  | cons t ts ih =>
    rw [applyEntries_cons, ih, applyEntry_line, ← lineFrom_append, List.singleton_append]

/-! ## The primitives, as entries -/

theorem emitSet_eq (l : Line) (v : Bit) (s : State) : emitSet l v s = applyEntry s ⟨.set l v, s.nextAnswer⟩ := rfl

theorem drive_eq (l : Line) (v : Bit) (s : State) :
    drive l v s = (applyEntry s ⟨.set l v, s.nextAnswer⟩, raiseOnFail s.nextAnswer) := rfl

theorem hwWrite_eq (bs : List Byte) (s : State) :
    hwWrite bs s = (applyEntry s ⟨.hwWrite bs, s.nextAnswer⟩, raiseOnFail s.nextAnswer) := rfl

theorem delayMs_eq (n : Nat) (s : State) : delayMs n s = (applyEntry s ⟨.delay n, .ok⟩, none) := rfl

theorem performEvent_eq (s : State) (e : Event) : performEvent s e = applyEntry s ⟨e, .ok⟩ := by cases e <;> rfl

/-- Events answered `ok`, as entries of the trace. -/
def okEntries (es : List Event) : List TraceEntry := es.map (fun e => ⟨e, .ok⟩)

theorem performEvents_eq (s : State) (es : List Event) : performEvents s es = applyEntries s (okEntries es) := by
  induction es generalizing s with
  | nil => rfl
  | cons e es ih =>
    show performEvents (performEvent s e) es = _
    rw [ih, performEvent_eq]; rfl

theorem performEvents_append (s : State) (es fs : List Event) :
    performEvents s (es ++ fs) = performEvents (performEvents s es) fs := by simp [performEvents]

theorem failEvent_eq (s : State) (e : Event) (h : e.fallible = true) : failEvent s e = applyEntry s ⟨e, .fail⟩ := by
  cases e <;> first | rfl | simp [Event.fallible] at h

@[simp] theorem okEntries_events (es : List Event) : (okEntries es).map (·.event) = es := by
  simp [okEntries, Function.comp_def]

@[simp] theorem performEvents_cfg (s : State) (es : List Event) : (performEvents s es).cfg = s.cfg := by
  simp [performEvents_eq]

@[simp] theorem performEvents_halted (s : State) (es : List Event) : (performEvents s es).halted = s.halted := by
  simp [performEvents_eq]

@[simp] theorem performEvents_trace (s : State) (es : List Event) :
    (performEvents s es).trace = s.trace ++ okEntries es := by simp [performEvents_eq]

@[simp] theorem performEvents_answers (s : State) (es : List Event) :
    (performEvents s es).answers = s.answers.drop (answersTaken es) := by simp [performEvents_eq]

/-! ## Answers -/

theorem AnswersOk.split {es fs : List Event} {s : State} (h : AnswersOk (es ++ fs) s) :
    AnswersOk es s ∧ AnswersOk fs (performEvents s es) := by
  unfold AnswersOk at *
  rw [answersTaken_append, List.take_add] at h
  refine ⟨fun a ha => h a (List.mem_append_left _ ha), fun a ha => h a (List.mem_append_right _ ?_)⟩
  simpa using ha

theorem AnswersOk.next {e : Event} {s : State} (h : AnswersOk [e] s) (he : e.fallible = true) : s.nextAnswer = .ok := by
  unfold AnswersOk answersTaken at h
  unfold State.nextAnswer
  cases ha : s.answers with
  | nil => rfl
  | cons a as => exact h a (by simp [ha, he])

theorem FirstFailAt.next {s : State} (h : FirstFailAt 0 s) : s.nextAnswer = .fail := by
  obtain ⟨rest, h⟩ := h
  simp [State.nextAnswer, h]

theorem FirstFailAt.answersOk {n : Nat} {es : List Event} {s : State} (h : FirstFailAt n s) (hn : answersTaken es ≤ n) :
    AnswersOk es s := by
  obtain ⟨rest, h⟩ := h
  intro a ha
  rw [h, List.take_append_of_le_length (by simpa using hn)] at ha
  exact List.eq_of_mem_replicate (List.mem_of_mem_take ha)

theorem FirstFailAt.after {n : Nat} {es : List Event} {s : State} (h : FirstFailAt n s) (hn : answersTaken es ≤ n) :
    FirstFailAt (n - answersTaken es) (performEvents s es) := by
  obtain ⟨rest, h⟩ := h
  exact ⟨rest, by rw [performEvents_answers, h, List.drop_append_of_le_length (by simpa using hn), List.drop_replicate]⟩

end Sys2Proof.Machine
end

