-- ==== Sys2Proof/Laws/Straight.lean ====
section
/-! SUPPORT. Straight-line pieces: those that emit a fixed list of events one after another and stop at the first failed one.
Each internal step of the spec is one, with the event list the spec writes for it. -/

namespace Sys2Proof.Machine

/-- The piece that emits one event. -/
def emit : Event → Act
  | .set l v => drive l v
  | .delay n => delayMs n
  | .hwWrite bs => hwWrite bs

/-- The piece that emits a list of events in order. -/
def emitAll (es : List Event) : Act := inOrder (es.map emit)

@[simp] theorem emitAll_nil : emitAll [] = done := rfl

@[simp] theorem emitAll_cons (e : Event) (es : List Event) : emitAll (e :: es) = andThen (emit e) (emitAll es) := rfl

theorem emitAll_append (es fs : List Event) : emitAll (es ++ fs) = andThen (emitAll es) (emitAll fs) := by
  simp [emitAll, inOrder_append]

theorem emit_ok {e : Event} {s : State} (h : AnswersOk [e] s) : emit e s = (performEvent s e, none) := by
  cases e with
  | delay n => rfl
  | set l v =>
    have := h.next rfl
    simp [emit, drive, emitSet, performEvent, this, levelAfter, raiseOnFail]
  | hwWrite bs =>
    have := h.next rfl
    simp [emit, hwWrite, performEvent, this, raiseOnFail]

theorem emit_fail {e : Event} {s : State} (he : e.fallible = true) (h : s.nextAnswer = .fail) :
    emit e s = (failEvent s e, some .linkFailure) := by
  cases e with
  | delay n => simp [Event.fallible] at he
  | set l v => simp [emit, drive, emitSet, failEvent, h, levelAfter, raiseOnFail]
  | hwWrite bs => simp [emit, hwWrite, failEvent, h, raiseOnFail]

/-- A straight-line piece with every answer `ok` emits all its events. -/
theorem emitAll_ok {es : List Event} {s : State} (h : AnswersOk es s) : emitAll es s = (performEvents s es, none) := by
  induction es generalizing s with
  | nil => rfl
  | cons e es ih =>
    obtain ⟨h1, h2⟩ := AnswersOk.split (es := [e]) (fs := es) h
    rw [emitAll_cons, andThen_of_none (emit_ok h1)]
    exact ih h2

/-- A straight-line piece stops at its first failed event, with that event in the trace and none after it (R101, R115, R251). -/
theorem emitAll_fail {es fs : List Event} {e : Event} {s : State} (he : e.fallible = true)
    (h : FirstFailAt (answersTaken es) s) :
    emitAll (es ++ e :: fs) s = (failEvent (performEvents s es) e, some .linkFailure) := by
  have hz := (h.after (Nat.le_refl _))
  rw [Nat.sub_self] at hz
  rw [emitAll_append, andThen_of_none (emitAll_ok (h.answersOk (Nat.le_refl _))), emitAll_cons,
    andThen_of_some (emit_fail he hz.next)]

/-! ## The internal steps are straight-line -/

theorem shiftBit_straight (v : Bit) : shiftBit v = emitAll (bitEvents v) := rfl

theorem shiftByte_straight (b : Byte) : shiftByte b = emitAll (byteEvents b) := by
  simp only [byteEvents, emitAll_append, ← shiftBit_straight]
  simp [shiftByte, andThen_assoc]

theorem shiftBytes_straight (bs : List Byte) : inOrder (bs.map shiftByte) = emitAll (bs.flatMap byteEvents) := by
  induction bs with
  | nil => rfl
  | cons b bs ih => simp [ih, emitAll_append, shiftByte_straight]

theorem markedBytes_straight (k : Bit) (bs : List Byte) :
    inOrder (bs.map (fun b => andThen (shiftBit k) (shiftByte b))) =
      emitAll (bs.flatMap (fun b => bitEvents k ++ byteEvents b)) := by
  induction bs with
  | nil => rfl
  | cons b bs ih =>
    rw [List.map_cons, inOrder_cons, ih, List.flatMap_cons, emitAll_append, emitAll_append, ← shiftBit_straight,
      ← shiftByte_straight]

theorem sendFrames_straight (k : Bit) (bs : List Byte) (s : State) :
    sendFrames k bs s = emitAll (frameEvents s.cfg.link k bs) s := by
  cases hl : s.cfg.link <;>
    simp [sendFrames, withConfig, hl, frameEvents, emit, shiftBytes_straight, markedBytes_straight]

theorem resetPulse_straight (s : State) : resetPulse s = emitAll (pulseEvents s.cfg) s := rfl

/-! ## Pieces that run to their end -/

/-- On parameters `c`, the piece `a` emits the events `es` and ends normally whenever their answers are `ok`. -/
def Runs (c : Config) (a : Act) (es : List Event) : Prop :=
  ∀ s : State, s.cfg = c → AnswersOk es s → a s = (performEvents s es, none)

theorem Runs.emitAll (c : Config) (es : List Event) : Runs c (emitAll es) es := fun _ _ h => emitAll_ok h

theorem Runs.emit (c : Config) (e : Event) : Runs c (emit e) [e] := fun _ _ h => emit_ok h

theorem Runs.done (c : Config) : Runs c done [] := fun _ _ _ => rfl

theorem Runs.andThen {c : Config} {a b : Act} {es fs : List Event} (ha : Runs c a es) (hb : Runs c b fs) :
    Runs c (andThen a b) (es ++ fs) := by
  intro s hs h
  obtain ⟨h1, h2⟩ := h.split
  rw [andThen_of_none (ha s hs h1), hb _ (by simpa using hs) h2, performEvents_append]

theorem Runs.withConfig {c : Config} {f : Config → Act} {es : List Event} (h : Runs c (f c) es) :
    Runs c (withConfig f) es := by
  intro s hs h'
  rw [withConfig_apply, hs]
  exact h s hs h'

theorem Runs.require {c : Config} {p : Bool} (h : p = true) : Runs c (require p) [] := by
  subst h; exact Runs.done c

theorem Runs.inOrder_map {α : Type} {c : Config} {f : α → Act} {g : α → List Event} {xs : List α}
    (h : ∀ x ∈ xs, Runs c (f x) (g x)) : Runs c (inOrder (xs.map f)) (xs.flatMap g) := by
  induction xs with
  | nil => exact Runs.done c
  | cons x xs ih =>
    simpa using Runs.andThen (h x (by simp)) (ih (fun y hy => h y (by simp [hy])))

theorem withCs_runs {c : Config} {body : Act} {es : List Event} (h : Runs c body es) :
    Runs c (withCs body) (.set .cs false :: es ++ [.set .cs true]) := by
  intro s hs hok
  obtain ⟨h1, h2⟩ := AnswersOk.split (es := [.set .cs false] ++ es) (fs := [.set .cs true]) (by simpa using hok)
  have hd : Runs c (drive .cs csActive) [.set .cs false] := Runs.emit c (.set .cs false)
  have hr : Runs c (drive .cs (!csActive)) [.set .cs true] := Runs.emit c (.set .cs true)
  unfold withCs
  rw [(hd.andThen h) s hs h1]
  show drive .cs (!csActive) _ = _
  rw [hr _ (by simpa using hs) h2, ← performEvents_append]
  simp

/-- A chip-select window: the event list of R112 and R113. -/
theorem window_runs (c : Config) (k : Bit) (bs : List Byte) :
    Runs c (withCs (sendFrames k bs)) (windowEvents c.link k bs) := by
  refine withCs_runs (es := frameEvents c.link k bs) (fun s hs h => ?_)
  rw [sendFrames_straight, hs]
  exact emitAll_ok h

theorem sendCommand_runs (c : Config) (b : Byte) : Runs c (sendCommand b) (commandEvents c.link b) := window_runs c _ _

theorem sendData_runs (c : Config) (bs : List Byte) : Runs c (sendData bs) (dataEvents c.link bs) := window_runs c _ _

theorem sendCommands_runs (c : Config) (bytes : List Byte) :
    Runs c (sendCommands bytes) (commandsEvents c.link bytes) :=
  Runs.inOrder_map (fun b _ => sendCommand_runs c b)

theorem resetPulse_runs (c : Config) : Runs c resetPulse (pulseEvents c) := by
  intro s hs h
  rw [resetPulse_straight, hs]
  exact emitAll_ok h

/-! ## A window that fails -/

theorem windowEvents_eq_append (link : LinkStyle) (k : Bit) (bs : List Byte) :
    windowEvents link k bs = (.set .cs false :: frameEvents link k bs) ++ [.set .cs true] := rfl

/-- A window whose opening event or an event of its frames fails: the events so far, the failed one, one release whose answer
is ignored (R110, R115). -/
theorem window_fails {k : Bit} {bs : List Byte} {s : State} {es fs : List Event} {e : Event} (he : e.fallible = true)
    (hw : .set .cs false :: frameEvents s.cfg.link k bs = es ++ e :: fs) (h : FirstFailAt (answersTaken es) s) :
    withCs (sendFrames k bs) s = (emitSet .cs true (failEvent (performEvents s es) e), some .linkFailure) := by
  have hb : andThen (drive .cs csActive) (sendFrames k bs) s = emitAll (es ++ e :: fs) s := by
    rw [← hw, emitAll_cons]
    show andThen (emit (.set .cs false)) (sendFrames k bs) s = _
    unfold andThen
    rcases hx : emit (.set .cs false) s with ⟨s', _ | r⟩
    · show sendFrames k bs s' = emitAll _ s'
      have hc : s'.cfg = s.cfg := by
        have h' : (emit (.set .cs false) s).1.cfg = s.cfg := by simp [emit, drive_eq, applyEntry_cfg]
        rwa [hx] at h'
      rw [sendFrames_straight, hc]
    · rfl
  unfold withCs
  rw [hb, emitAll_fail he h]
  rfl

/-- A window whose closing release fails: all its events, the last one failed, nothing more (R110, R115). -/
theorem window_close_fails {k : Bit} {bs : List Byte} {s : State}
    (h : FirstFailAt (answersTaken (.set .cs false :: frameEvents s.cfg.link k bs)) s) :
    withCs (sendFrames k bs) s =
      (failEvent (performEvents s (.set .cs false :: frameEvents s.cfg.link k bs)) (.set .cs true), some .linkFailure) := by
  have hd : Runs s.cfg (drive .cs csActive) [.set .cs false] := Runs.emit s.cfg (.set .cs false)
  have hf : Runs s.cfg (sendFrames k bs) (frameEvents s.cfg.link k bs) := by
    intro t ht hok; rw [sendFrames_straight, ht]; exact emitAll_ok hok
  have hz := h.after (Nat.le_refl _)
  rw [Nat.sub_self] at hz
  unfold withCs
  rw [(hd.andThen hf) s rfl (h.answersOk (Nat.le_refl _))]
  exact emit_fail (e := .set .cs true) rfl hz.next

end Sys2Proof.Machine
end

