-- ==== Sys2Proof/Laws/Emits.lean ====
section
/-! SUPPORT. Everything a piece of an operation can do: it appends events with the environment's answers, nothing else, and which
ones depends on the static parameters and the answers alone. One lemma for each piece; the whole-machine claims follow. -/

namespace Sys2Proof.Machine

/-! ## How a piece ends -/

/-- How the events of a piece and its end fit together: unless it ends with a link failure every answer was `ok`; a link
failure follows the first failed event, after which there is at most one release of chip-select, and none where `bare`. -/
def EndsAs (bare : Bool) (o : List TraceEntry × Option Raise) : Prop :=
  match o.2 with
  | some .linkFailure => ∃ us e tail, o.1 = us ++ ⟨e, .fail⟩ :: tail ∧ (∀ t ∈ us, t.answer = .ok) ∧ e.fallible = true ∧
      (tail = [] ∨ (bare = false ∧ ∃ a, tail = [⟨.set .cs true, a⟩]))
  | _ => ∀ t ∈ o.1, t.answer = .ok

theorem EndsAs.mono {bare : Bool} {o : List TraceEntry × Option Raise} (h : EndsAs bare o) : EndsAs false o := by
  unfold EndsAs at *
  split at h
  · obtain ⟨us, e, tail, h1, h2, h3, h4⟩ := h
    exact ⟨us, e, tail, h1, h2, h3, h4.imp id (fun ⟨_, h⟩ => ⟨rfl, h⟩)⟩
  · exact h

theorem EndsAs.after {bare : Bool} {ts us : List TraceEntry} {r : Option Raise} (ht : ∀ t ∈ ts, t.answer = .ok)
    (h : EndsAs bare (us, r)) : EndsAs bare (ts ++ us, r) := by
  unfold EndsAs at *
  simp only at h ⊢
  split at h
  · obtain ⟨vs, e, tail, h1, h2, h3, h4⟩ := h
    refine ⟨ts ++ vs, e, tail, by simp [h1], fun t h => ?_, h3, h4⟩
    rcases List.mem_append.1 h with h | h
    · exact ht t h
    · exact h2 t h
  · intro t hm
    rcases List.mem_append.1 hm with h' | h'
    · exact ht t h'
    · exact h t h'

/-- What a piece does: given the parameters and the answers, the events it appends, each of a kind `P` allows, and how it ends,
the same on every state with those parameters and answers. -/
def Emits (P : Config → Event → Prop) (bare : Bool) (a : Act) : Prop :=
  ∀ (c : Config) (as : List Answer), ∃ (ts : List TraceEntry) (r : Option Raise),
    (∀ s : State, s.cfg = c → s.answers = as → a s = (applyEntries s ts, r)) ∧
      (∀ t ∈ ts, P c t.event) ∧ EndsAs bare (ts, r)

theorem EndsAs.raiseOnFail {bare : Bool} {e : Event} (he : e.fallible = true) (a : Answer) :
    EndsAs bare ([⟨e, a⟩], raiseOnFail a) := by
  cases a with
  | ok => intro t ht; rw [List.mem_singleton.1 ht]
  | fail => exact ⟨[], e, [], rfl, by simp, he, .inl rfl⟩

section
variable {P Q : Config → Event → Prop} {bare : Bool} {a b : Act}

theorem Emits.mono (h : Emits P bare a) (hpq : ∀ c e, P c e → Q c e) : Emits Q false a := by
  intro c as
  obtain ⟨ts, r, h1, h2, h3⟩ := h c as
  exact ⟨ts, r, h1, fun t ht => hpq _ _ (h2 t ht), h3.mono⟩

theorem Emits.done : Emits P bare done := fun _ _ => ⟨[], none, fun _ _ _ => rfl, by simp, by simp [EndsAs]⟩

theorem Emits.raise {r : Raise} (hr : r ≠ .linkFailure) : Emits P bare (raise r) := by
  refine fun c as => ⟨[], some r, fun _ _ _ => rfl, by simp, ?_⟩
  cases r <;> first | exact absurd rfl hr | simp [EndsAs]

theorem Emits.require {c : Bool} : Emits P bare (require c) := by
  cases c
  · exact Emits.raise (by simp)
  · exact Emits.done

theorem Emits.emit {e : Event} (h : ∀ c, P c e) : Emits P bare (emit e) := by
  intro c as
  cases e with
  | delay n =>
    refine ⟨[⟨.delay n, .ok⟩], none, fun _ _ _ => rfl, by simpa using h c, ?_⟩
    intro t ht; rw [List.mem_singleton.1 ht]
  | set l v =>
    refine ⟨[⟨.set l v, as.headD .ok⟩], Machine.raiseOnFail (as.headD .ok), fun s _ hs => ?_, by simpa using h c,
      EndsAs.raiseOnFail rfl _⟩
    subst hs; rfl
  | hwWrite bs =>
    refine ⟨[⟨.hwWrite bs, as.headD .ok⟩], Machine.raiseOnFail (as.headD .ok), fun s _ hs => ?_, by simpa using h c,
      EndsAs.raiseOnFail rfl _⟩
    subst hs; rfl

theorem Emits.andThen (ha : Emits P bare a) (hb : Emits P bare b) : Emits P bare (andThen a b) := by
  intro c as
  obtain ⟨ts, r, h1, h2, h3⟩ := ha c as
  cases r with
  | some r => exact ⟨ts, some r, fun s hc hs => andThen_of_some (h1 s hc hs), h2, h3⟩
  | none =>
    obtain ⟨us, r, g1, g2, g3⟩ := hb c (as.drop (answersTaken (ts.map (·.event))))
    refine ⟨ts ++ us, r, fun s hc hs => ?_, ?_, g3.after h3⟩
    · rw [andThen_of_none (h1 s hc hs), g1 _ (by simpa using hc) (by simp [hs]), applyEntries_append]
    · intro t ht
      rcases List.mem_append.1 ht with h | h
      · exact h2 t h
      · exact g2 t h

theorem Emits.inOrder {as : List Act} (h : ∀ a ∈ as, Emits P bare a) : Emits P bare (inOrder as) := by
  induction as with
  | nil => exact Emits.done
  | cons a as ih => exact (h a (by simp)).andThen (ih (fun b hb => h b (by simp [hb])))

/-- A piece that reads the parameters, where what it may emit depends on them. -/
theorem Emits.withConfig' {f : Config → Act} (h : ∀ c, Emits (fun d e => d = c → P d e) bare (f c)) :
    Emits P bare (Machine.withConfig f) := by
  intro c as
  obtain ⟨ts, r, h1, h2, h3⟩ := h c c as
  refine ⟨ts, r, fun s hc hs => ?_, fun t ht => h2 t ht rfl, h3⟩
  rw [withConfig_apply, hc]
  exact h1 s hc hs

theorem Emits.withConfig {f : Config → Act} (h : ∀ c, Emits P bare (f c)) : Emits P bare (withConfig f) := by
  intro c as
  obtain ⟨ts, r, h1, h2, h3⟩ := h c c as
  refine ⟨ts, r, fun s hc hs => ?_, h2, h3⟩
  rw [withConfig_apply, hc]
  exact h1 s hc hs

theorem Emits.emitAll {es : List Event} (h : ∀ c, ∀ e ∈ es, P c e) : Emits P bare (emitAll es) := by
  refine Emits.inOrder (fun a ha => ?_)
  obtain ⟨e, he, rfl⟩ := List.mem_map.1 ha
  exact Emits.emit (fun c => h c e he)

/-- A chip-select scope around a piece with no scope of its own. -/
theorem Emits.withCs {body : Act} (hc : ∀ c v, P c (.set .cs v)) (h : Emits P true body) : Emits P false (withCs body) := by
  have hopen : Emits P true (Machine.andThen (drive .cs csActive) body) :=
    Emits.andThen (Emits.emit (e := .set .cs false) (fun c => hc c _)) h
  have hclose : Emits P false (drive .cs (!csActive)) := Emits.emit (e := .set .cs true) (fun c => hc c _)
  intro c as
  obtain ⟨ts, r, h1, h2, h3⟩ := hopen c as
  rcases r with _ | (_ | _ | _)
  · obtain ⟨us, r, g1, g2, g3⟩ := hclose c (as.drop (answersTaken (ts.map (·.event))))
    refine ⟨ts ++ us, r, fun s hs ha => ?_, ?_, g3.after h3⟩
    · unfold Machine.withCs
      rw [h1 s hs ha]
      show drive .cs (!csActive) (applyEntries s ts) = _
      rw [g1 _ (by simpa using hs) (by simp [ha]), applyEntries_append]
    · intro t ht
      rcases List.mem_append.1 ht with h | h
      · exact h2 t h
      · exact g2 t h
  · refine ⟨ts ++ [⟨.set .cs true, (as.drop (answersTaken (ts.map (·.event)))).headD .ok⟩], some .linkFailure,
      fun s hs ha => ?_, ?_, ?_⟩
    · unfold Machine.withCs
      rw [h1 s hs ha, applyEntries_append]
      simp [closeCs, driveIgnore, emitSet_eq, State.nextAnswer, csActive, ha]
    · intro t ht
      rcases List.mem_append.1 ht with h | h
      · exact h2 t h
      · rw [List.mem_singleton.1 h]; exact hc _ _
    · obtain ⟨us, e, tail, k1, k2, k3, k4⟩ := h3
      have k5 : tail = [] := by simpa using k4
      have k1' : ts = us ++ [⟨e, .fail⟩] := by rw [← k5]; exact k1
      refine ⟨us, e, [⟨.set .cs true, (as.drop (answersTaken (ts.map (·.event)))).headD .ok⟩], ?_, k2, k3, .inr ⟨rfl, _, rfl⟩⟩
      generalize (as.drop (answersTaken (ts.map (·.event)))).headD .ok = x
      simp [k1']
  · exact ⟨ts, _, fun s hs ha => by unfold Machine.withCs; rw [h1 s hs ha]; rfl, h2, h3.mono⟩
  · exact ⟨ts, _, fun s hs ha => by unfold Machine.withCs; rw [h1 s hs ha]; rfl, h2, h3.mono⟩

end

/-! ## The kinds of events -/

/-- What a directly requested `SHIFT_BYTE` emits: clock and data (R101). -/
def shiftEvent (_ : Config) (e : Event) : Prop := (∃ v, e = .set .clk v) ∨ ∃ v, e = .set .data v

/-- What a channel operation emits (R22, R111): chip-select; the line `DC` where there is one; clock and data when it
bit-bangs; one `HwWrite` when it does not. -/
def channelEvent (c : Config) (e : Event) : Prop :=
  (∃ v, e = .set .cs v) ∨ (c.link.dcStyle = .line ∧ ∃ v, e = .set .dc v) ∨
    (c.link.xfer = .bitbang ∧ shiftEvent c e) ∨ (c.link.xfer = .hw ∧ ∃ bs, e = .hwWrite bs)

/-- What the reset pulse emits: the reset line and delays (R220). -/
def pulseEvent (_ : Config) (e : Event) : Prop := (∃ v, e = .set .rst v) ∨ ∃ n, e = .delay n

/-- What an initialisation emits. -/
def initEvent (c : Config) (e : Event) : Prop := channelEvent c e ∨ pulseEvent c e

theorem bitEvents_shift (c : Config) (v : Bit) : ∀ e ∈ bitEvents v, shiftEvent c e := by
  simp [bitEvents, shiftEvent]

theorem byteEvents_shift (c : Config) (b : Byte) : ∀ e ∈ byteEvents b, shiftEvent c e := by
  intro e he
  simp only [byteEvents, List.mem_append] at he
  rcases he with ((((((h | h) | h) | h) | h) | h) | h) | h <;> exact bitEvents_shift c _ e h

theorem shiftByte_emits (b : Byte) : Emits shiftEvent true (shiftByte b) := by
  rw [shiftByte_straight]; exact Emits.emitAll (fun c => byteEvents_shift c b)

theorem frameEvents_channel (c : Config) (k : Bit) (bs : List Byte) : ∀ e ∈ frameEvents c.link k bs, channelEvent c e := by
  intro e he
  unfold frameEvents at he
  cases hl : c.link <;> simp only [hl] at he
  · rcases List.mem_cons.1 he with rfl | he
    · exact .inr (.inl ⟨by simp [hl, LinkStyle.dcStyle], _, rfl⟩)
    · obtain ⟨b, -, hb⟩ := List.mem_flatMap.1 he
      exact .inr (.inr (.inl ⟨by simp [hl, LinkStyle.xfer], byteEvents_shift c b e hb⟩))
  · rcases List.mem_cons.1 he with rfl | he
    · exact .inr (.inl ⟨by simp [hl, LinkStyle.dcStyle], _, rfl⟩)
    · exact .inr (.inr (.inr ⟨by simp [hl, LinkStyle.xfer], bs, List.mem_singleton.1 he⟩))
  · obtain ⟨b, -, hb⟩ := List.mem_flatMap.1 he
    refine .inr (.inr (.inl ⟨by simp [hl, LinkStyle.xfer], ?_⟩))
    rcases List.mem_append.1 hb with h | h
    · exact bitEvents_shift c k e h
    · exact byteEvents_shift c b e h

theorem sendFrames_emits (k : Bit) (bs : List Byte) : Emits channelEvent true (sendFrames k bs) := by
  have h : sendFrames k bs = withConfig (fun c => emitAll (frameEvents c.link k bs)) := by
    funext s; rw [sendFrames_straight]; rfl
  rw [h]
  refine Emits.withConfig' (fun c => Emits.emitAll (fun d e he hd => ?_))
  subst hd
  exact frameEvents_channel d k bs e he

theorem window_emits (k : Bit) (bs : List Byte) : Emits channelEvent false (withCs (sendFrames k bs)) :=
  Emits.withCs (fun _ v => .inl ⟨v, rfl⟩) (sendFrames_emits k bs)

theorem sendCommand_emits (b : Byte) : Emits channelEvent false (sendCommand b) := window_emits _ _

theorem sendData_emits (bs : List Byte) : Emits channelEvent false (sendData bs) := window_emits _ _

theorem sendCommands_emits (bytes : List Byte) : Emits channelEvent false (sendCommands bytes) := by
  refine Emits.inOrder (fun a ha => ?_)
  obtain ⟨b, -, rfl⟩ := List.mem_map.1 ha
  exact sendCommand_emits b

theorem requireCoeffs_emits {P : Config → Event → Prop} (v t b : Byte) : Emits P false (requireCoeffs v t b) := by
  refine Emits.inOrder (fun a ha => ?_)
  simp only [List.mem_cons, List.not_mem_nil, or_false] at ha
  rcases ha with rfl | rfl | rfl <;> exact Emits.require

/-! ## The operations -/

theorem aSetPage_emits (p : Byte) : Emits channelEvent false (aSetPage p) := Emits.require.andThen (sendCommand_emits _)

theorem aSetColumn_emits (x : Byte) : Emits channelEvent false (aSetColumn x) := Emits.require.andThen (sendCommands_emits _)

theorem aSetContrast_emits (x : Byte) : Emits channelEvent false (aSetContrast x) :=
  Emits.require.andThen (sendCommand_emits _)

theorem aSetMode_emits (m : DisplayMode) : Emits channelEvent false (aSetMode m) := sendCommands_emits _

theorem bSetPage_emits (p : Byte) : Emits channelEvent false (bSetPage p) := Emits.require.andThen (sendCommand_emits _)

theorem bSetColumn_emits (x : Byte) : Emits channelEvent false (bSetColumn x) := Emits.require.andThen (sendCommand_emits _)

theorem bSetCoeffs_emits (v t b : Byte) : Emits channelEvent false (bSetCoeffs v t b) :=
  (requireCoeffs_emits v t b).andThen (Emits.withConfig (fun _ => sendCommands_emits _))

theorem setPosition_emits (x p : Byte) : Emits channelEvent false (setPosition x p) := by
  refine Emits.withConfig (fun c => ?_)
  refine Emits.require.andThen (Emits.require.andThen (Emits.andThen ?_ Emits.done))
  cases c.variant
  · exact (aSetPage_emits p).andThen (aSetColumn_emits x)
  · exact (bSetPage_emits p).andThen (bSetColumn_emits x)

theorem clear_emits : Emits channelEvent false clear :=
  Emits.withConfig (fun _ =>
    (setPosition_emits 0 0).andThen ((sendData_emits _).andThen ((setPosition_emits 0 0).andThen Emits.done)))

theorem printChar_emits (code : Byte) : Emits channelEvent false (printChar code) := by
  refine Emits.withConfig (fun c => ?_)
  cases glyphOf c code with
  | none => exact Emits.raise (by simp)
  | some g => exact (sendData_emits g).andThen (sendData_emits _)

theorem print_emits (bs : List Byte) : Emits channelEvent false (print bs) := by
  refine Emits.inOrder (fun a ha => ?_)
  obtain ⟨b, -, rfl⟩ := List.mem_map.1 ha
  exact printChar_emits b

theorem aPowerUp_emits : Emits channelEvent false aPowerUp :=
  (sendCommand_emits _).andThen ((aSetContrast_emits 0).andThen ((aSetMode_emits .normal).andThen
    ((sendCommand_emits _).andThen ((sendCommand_emits _).andThen (clear_emits.andThen Emits.done)))))

theorem bDrawBuffer_emits (buf : List Byte) : Emits channelEvent false (bDrawBuffer buf) :=
  (sendCommand_emits _).andThen ((setPosition_emits 0 0).andThen ((sendData_emits buf).andThen
    ((sendCommand_emits _).andThen ((setPosition_emits 0 0).andThen Emits.done))))

theorem bPowerUp_emits (v t b : Byte) : Emits channelEvent false (bPowerUp v t b) :=
  (requireCoeffs_emits v t b).andThen ((bSetCoeffs_emits v t b).andThen ((sendCommand_emits _).andThen
    (clear_emits.andThen Emits.done)))

theorem resetPulse_emits : Emits pulseEvent false resetPulse := by
  have h : resetPulse = withConfig (fun c => emitAll (pulseEvents c)) := by funext s; rfl
  rw [h]
  refine Emits.withConfig (fun c => Emits.emitAll (fun d e he => ?_))
  simp only [pulseEvents, List.mem_cons, List.not_mem_nil, or_false] at he
  rcases he with rfl | rfl | rfl | rfl | rfl | rfl <;> simp [pulseEvent]

theorem aInit_emits : Emits initEvent false aInit :=
  (resetPulse_emits.mono (fun _ _ h => .inr h)).andThen (aPowerUp_emits.mono (fun _ _ h => .inl h))

theorem bInit_emits (v t b : Byte) : Emits initEvent false (bInit v t b) :=
  (requireCoeffs_emits v t b).andThen ((resetPulse_emits.mono (fun _ _ h => .inr h)).andThen
    (((bPowerUp_emits v t b).mono (fun _ _ h => .inl h)).andThen Emits.done))

end Sys2Proof.Machine
end

