-- ==== Sys2Proof/Laws/Exec.lean ====
section
/-! SUPPORT. Every arm of exec as one shape: the checks, then a body; and what the body of each instruction can emit. -/

namespace Sys2Proof.Machine

/-- The body of an instruction: its pseudocode, without the checks before it. -/
def bodyOf : Instr → Act
  | .shiftByte b => shiftByte b
  | .sendCommand b => sendCommand b
  | .sendData bs => sendData bs
  | .setPosition x p => setPosition x p
  | .clear => clear
  | .printChar x => printChar x
  | .print bs => print bs
  | .getPixelRes => done
  | .getCharRes => done
  | .aSetPage p => aSetPage p
  | .aSetColumn x => aSetColumn x
  | .aSetContrast x => aSetContrast x
  | .aSetMode m => aSetMode m
  | .aFlipH f => aFlipH f
  | .aFlipV f => aFlipV f
  | .aPowerOn => aPowerOn
  | .aDisplayEnable => aDisplayEnable
  | .aScanStart => aScanStart
  | .aPowerUp => aPowerUp
  | .aInit => aInit
  | .bSetPage p => bSetPage p
  | .bSetColumn x => bSetColumn x
  | .bSetCoeffs v t b => bSetCoeffs v t b
  | .bSetMode m => bSetMode m
  | .bSetAddressing f => bSetAddressing f
  | .bDrawBuffer buf => bDrawBuffer buf
  | .bPowerUp v t b => bPowerUp v t b
  | .bInit v t b => bInit v t b
  | .cmdAColLo x => sendCommand (byteAColLo x)
  | .cmdAColHi x => sendCommand (byteAColHi x)
  | .cmdAPowerOn => sendCommand byteAPowerOn
  | .cmdAScanStart => sendCommand byteAScanStart
  | .cmdAContrast x => sendCommand (byteAContrast x)
  | .cmdAFlipHOn => sendCommand byteAFlipHOn
  | .cmdAAllOn x => sendCommand (byteAAllOn x)
  | .cmdAInverse x => sendCommand (byteAInverse x)
  | .cmdAFlipHOff => sendCommand byteAFlipHOff
  | .cmdADisplayEnable => sendCommand byteADisplayEnable
  | .cmdASetPage x => sendCommand (byteASetPage x)
  | .cmdAFlipV x => sendCommand (byteAFlipV x)
  | .cmdBMode d e => sendCommand (byteBMode d e)
  | .cmdBFunction v x => sendCommand (byteBFunction v x)
  | .cmdBSetPage x => sendCommand (byteBSetPage x)
  | .cmdBSetCol x => sendCommand (byteBSetCol x)
  | .cmdBXTemp x => sendCommand (byteBXTemp x)
  | .cmdBXBias x => sendCommand (byteBXBias x)
  | .cmdBXVop x => sendCommand (byteBXVop x)
  | .cmdBXExit => withConfig (fun c => sendCommand c.bExtExit)

/-- Whether the payload an instruction carries has the length it takes. -/
def suitsOf : Instr → Bool
  | .bDrawBuffer buf => fitsFrame buf
  | _ => true

/-- The value an instruction reports when it ends `OK`. -/
def valueOf : Instr → Config → Value
  | .getPixelRes => pixelRes
  | .getCharRes => charRes
  | _ => fun _ => 0

theorem next_answer_congr {h h' : Option Variant} {p p' : Bool} {v v' : Config → Value} {b b' : Act} {s : State}
    (hh : h = h') (hp : p = p') (hv : v = v') (hb : b = b') :
    (.next (answer h p v b s) : Host.Outcome State Fault Refusal) = .next (answer h' p' v' b' s) := by
  rw [hh, hp, hv, hb]

/-- Every arm of `exec` is one shape, and always a next state. -/
theorem exec_eq (i : Instr) (s : State) : exec i s = .next (answer i.home (suitsOf i) (valueOf i) (bodyOf i) s) := by
  cases i <;> exact next_answer_congr rfl rfl rfl rfl

/-- An instruction that passes the checks runs its body. -/
theorem exec_body {i : Instr} {s : State} (h : Accepts i s) (hp : suitsOf i = true) :
    exec i s = .next (finish (valueOf i s.cfg) (bodyOf i s)) := by
  rw [exec_eq]; simp [answer, h.1, h.2, hp]

/-- An instruction whose body runs to its end. -/
theorem exec_runs {i : Instr} {s : State} {es : List Event} (h : Accepts i s) (hp : suitsOf i = true)
    (hr : Runs s.cfg (bodyOf i) es) (hok : AnswersOk es s) :
    exec i s = .next ((performEvents s es).respond .ok (valueOf i s.cfg)) := by
  rw [exec_body h hp, hr s rfl hok]; rfl

/-- The kinds of events an instruction can emit. -/
def eventsOf : Instr → Config → Event → Prop
  | .shiftByte _ => shiftEvent
  | .aInit => initEvent
  | .bInit _ _ _ => initEvent
  | .getPixelRes => fun _ _ => False
  | .getCharRes => fun _ _ => False
  | _ => channelEvent

theorem bodyOf_emits (i : Instr) : Emits (eventsOf i) false (bodyOf i) := by
  cases i
  case shiftByte b => exact (shiftByte_emits b).mono (fun _ _ h => h)
  case sendCommand b => exact sendCommand_emits b
  case sendData bs => exact sendData_emits bs
  case setPosition x p => exact setPosition_emits x p
  case clear => exact clear_emits
  case printChar x => exact printChar_emits x
  case print bs => exact print_emits bs
  case getPixelRes => exact Emits.done
  case getCharRes => exact Emits.done
  case aSetPage p => exact aSetPage_emits p
  case aSetColumn x => exact aSetColumn_emits x
  case aSetContrast x => exact aSetContrast_emits x
  case aSetMode m => exact aSetMode_emits m
  case aPowerUp => exact aPowerUp_emits
  case aInit => exact aInit_emits
  case bSetPage p => exact bSetPage_emits p
  case bSetColumn x => exact bSetColumn_emits x
  case bSetCoeffs v t b => exact bSetCoeffs_emits v t b
  case bDrawBuffer buf => exact bDrawBuffer_emits buf
  case bPowerUp v t b => exact bPowerUp_emits v t b
  case bInit v t b => exact bInit_emits v t b
  case cmdBXExit => exact Emits.withConfig (fun _ => sendCommand_emits _)
  all_goals exact sendCommand_emits _

end Sys2Proof.Machine
end

