-- ==== Sys2Proof/Laws/Operations.lean ====
section
/-! SUPPORT. For each operation, the events it emits when every answer is `ok`: the event lists of Machine/Frames.lean. -/

namespace Sys2Proof.Machine

theorem commandsEvents_append (link : LinkStyle) (bs cs : List Byte) :
    commandsEvents link (bs ++ cs) = commandsEvents link bs ++ commandsEvents link cs := by simp [commandsEvents]

theorem commandsEvents_cons (link : LinkStyle) (b : Byte) (bs : List Byte) :
    commandsEvents link (b :: bs) = commandEvents link b ++ commandsEvents link bs := by simp [commandsEvents]

@[simp] theorem commandsEvents_nil (link : LinkStyle) : commandsEvents link [] = [] := rfl

theorem below_of_lt {x : Byte} {n : Nat} (h : x.toNat < n) : below x n = true := decide_eq_true h

/-- A piece that runs may stand for its list of events written another way. -/
theorem Runs.of_eq {c : Config} {a : Act} {es fs : List Event} (h : Runs c a es) (he : es = fs) : Runs c a fs := he ▸ h

/-- A check that passes, then a piece. -/
theorem Runs.checked {c : Config} {p : Bool} {a : Act} {es : List Event} (hp : p = true) (h : Runs c a es) :
    Runs c (Machine.andThen (Machine.require p) a) es := by
  subst hp; exact h

theorem requireCoeffs_done {v t b : Byte} (hv : v.toNat < 91) (ht : t.toNat < 4) (hb : b.toNat < 8) :
    requireCoeffs v t b = done := by
  have h : inOrder [require (below v vLim), require (below t tLim), require (below b bLim)] = done := by
    rw [below_of_lt (show v.toNat < vLim from hv), below_of_lt (show t.toNat < tLim from ht),
      below_of_lt (show b.toNat < bLim from hb)]
    rfl
  exact h

theorem requireCoeffs_violation {v t b : Byte} (h : ¬(v.toNat < 91 ∧ t.toNat < 4 ∧ b.toNat < 8)) :
    requireCoeffs v t b = raise .preconditionViolation := by
  have hs : ∀ x y z : Bool, (x && y && z) = false →
      inOrder [require x, require y, require z] = raise .preconditionViolation := by
    intro x y z; cases x <;> cases y <;> cases z <;> first | (intro h; cases h; done) | (intro _; rfl)
  refine hs _ _ _ (Bool.eq_false_iff.2 fun h' => h ?_)
  simp only [Bool.and_eq_true, below, decide_eq_true_eq] at h'
  exact ⟨h'.1.1, h'.1.2, h'.2⟩

/-! ## Controller A -/

theorem aSetPage_runs (c : Config) {x : Byte} (h : x.toNat < 8) : Runs c (aSetPage x) (commandEvents c.link (0xB0#8 ||| x)) :=
  Runs.checked (below_of_lt h) (sendCommand_runs c _)

theorem aSetColumn_runs (c : Config) {x : Byte} (h : x.toNat < 96) :
    Runs c (aSetColumn x) (commandsEvents c.link [0x10#8 ||| (x >>> 4), x &&& 0x0F#8]) := by
  have hb : byteForColumnLowA x = x &&& 0x0F#8 := by simp [byteForColumnLowA]
  refine Runs.of_eq (es := commandsEvents c.link [byteForColumnHighA x, byteForColumnLowA x])
    (Runs.checked (below_of_lt h) (sendCommands_runs c _)) ?_
  rw [hb]; rfl

theorem aSetContrast_runs (c : Config) {x : Byte} (h : x.toNat < 32) :
    Runs c (aSetContrast x) (commandEvents c.link (0x80#8 ||| x)) :=
  Runs.checked (below_of_lt h) (sendCommand_runs c _)

theorem aSetMode_runs (c : Config) (m : DisplayMode) :
    Runs c (aSetMode m) (commandsEvents c.link [byteForInverseA m, byteForAllOnA m]) := sendCommands_runs c _

/-! ## Controller B -/

theorem bSetPage_runs (c : Config) {x : Byte} (h : x.toNat < 6) : Runs c (bSetPage x) (commandEvents c.link (0x40#8 ||| x)) :=
  Runs.checked (below_of_lt h) (sendCommand_runs c _)

theorem bSetColumn_runs (c : Config) {x : Byte} (h : x.toNat < 84) :
    Runs c (bSetColumn x) (commandEvents c.link (0x80#8 ||| x)) :=
  Runs.checked (below_of_lt h) (sendCommand_runs c _)

theorem bSetCoeffs_runs (c : Config) {v t b : Byte} (hv : v.toNat < 91) (ht : t.toNat < 4) (hb : b.toNat < 8) :
    Runs c (bSetCoeffs v t b) (commandsEvents c.link (coeffBytes c v t b)) := by
  unfold bSetCoeffs
  rw [requireCoeffs_done hv ht hb, done_andThen]
  exact Runs.withConfig (sendCommands_runs c _)

/-! ## The façade -/

/-- The bounds of a position on a block (R190). -/
theorem setPosition_runs (c : Config) {x p : Byte} (hx : x.toNat < width c.variant) (hp : p.toNat < pages c.variant) :
    Runs c (setPosition x p) (positionEvents c x p) := by
  refine Runs.withConfig ?_
  rw [below_of_lt hx, below_of_lt hp]
  show Runs c (andThen _ done) _
  rw [andThen_done]
  unfold positionEvents positionBytes
  cases hv : c.variant <;> simp only [hv] at hx hp ⊢
  · exact ((aSetPage_runs c hp).andThen (aSetColumn_runs c hx)).of_eq (by simp [commandsEvents])
  · exact ((bSetPage_runs c hp).andThen (bSetColumn_runs c hx)).of_eq (by simp [commandsEvents])

theorem zeroFill_eq (v : Variant) : zeroFill v = List.replicate (clearLen v) 0#8 := by cases v <;> rfl

theorem origin_runs (c : Config) : Runs c (setPosition 0 0) (positionEvents c 0 0) := by
  refine setPosition_runs c ?_ ?_ <;> cases c.variant <;> decide

theorem clear_runs (c : Config) : Runs c clear (clearEvents c) := by
  refine Runs.withConfig ?_
  refine Runs.of_eq ((origin_runs c).andThen ((sendData_runs c _).andThen ((origin_runs c).andThen (Runs.done c)))) ?_
  simp [clearEvents, zeroFill_eq]

theorem glyphOf_some (c : Config) {code : Byte} (h : Representable code) : glyphOf c code = some (glyphColumns c code) := by
  have h' : 0x20 ≤ code.toNat ∧ code.toNat ≤ 0x7E := h
  unfold glyphOf glyphColumns
  rw [dif_pos h']
  have hlt : code.toNat - 32 < c.glyphs.toList.length := by simp; omega
  rw [List.getD_eq_getElem?_getD, List.getElem?_eq_getElem hlt]
  simp

theorem glyphOf_none (c : Config) {code : Byte} (h : ¬ Representable code) : glyphOf c code = none := by
  have h' : ¬ (0x20 ≤ code.toNat ∧ code.toNat ≤ 0x7E) := h
  unfold glyphOf
  rw [dif_neg h']

theorem printChar_runs (c : Config) {code : Byte} (h : Representable code) : Runs c (printChar code) (charEvents c code) := by
  refine Runs.withConfig ?_
  rw [glyphOf_some c h]
  exact (sendData_runs c _).andThen (sendData_runs c _)

theorem print_runs (c : Config) {bs : List Byte} (h : ∀ x ∈ bs, Representable x) : Runs c (print bs) (textEvents c bs) :=
  Runs.inOrder_map (fun x hx => printChar_runs c (h x hx))

theorem printChar_unrepresentable {code : Byte} (h : ¬ Representable code) :
    printChar code = raise .unrepresentableGlyph := by
  funext s
  unfold printChar
  rw [withConfig_apply, glyphOf_none _ h]

/-! ## The composites -/

theorem aPowerUp_runs (c : Config) : Runs c aPowerUp (powerUpEventsA c) := by
  have h0 : Runs c (aSetContrast 0) (commandEvents c.link 0x80#8) := (aSetContrast_runs c (by decide)).of_eq rfl
  refine Runs.of_eq ((sendCommand_runs c 0x2F#8).andThen (h0.andThen ((aSetMode_runs c .normal).andThen
    ((sendCommand_runs c 0xAF#8).andThen ((sendCommand_runs c 0x40#8).andThen ((clear_runs c).andThen (Runs.done c))))))) ?_
  simp [powerUpEventsA, powerUpBytesA, commandsEvents, byteForInverseA, byteForAllOnA, inverseOf, allOnOf]

theorem bDrawBuffer_runs (c : Config) (hc : c.variant = .b) (buf : List Byte) :
    Runs c (bDrawBuffer buf) (drawEvents c buf) := by
  have h0 : positionEvents c 0 0 = commandsEvents c.link [0x40#8, 0x80#8] := by simp [positionEvents, positionBytes, hc]
  refine Runs.of_eq ((sendCommand_runs c 0x22#8).andThen ((origin_runs c).andThen ((sendData_runs c buf).andThen
    ((sendCommand_runs c 0x20#8).andThen ((origin_runs c).andThen (Runs.done c)))))) ?_
  rw [h0]
  simp [drawEvents, commandsEvents]

theorem bPowerUp_runs (c : Config) {v t b : Byte} (hv : v.toNat < 91) (ht : t.toNat < 4) (hb : b.toNat < 8) :
    Runs c (bPowerUp v t b) (powerUpEventsB c v t b) := by
  unfold bPowerUp
  rw [inOrder_cons, requireCoeffs_done hv ht hb, done_andThen]
  refine Runs.of_eq ((bSetCoeffs_runs c hv ht hb).andThen ((sendCommand_runs c 0x0C#8).andThen
    ((clear_runs c).andThen (Runs.done c)))) ?_
  simp [powerUpEventsB, commandsEvents]

theorem aInit_runs (c : Config) : Runs c aInit (pulseEvents c ++ powerUpEventsA c) :=
  (resetPulse_runs c).andThen (aPowerUp_runs c)

theorem bInit_runs (c : Config) {v t b : Byte} (hv : v.toNat < 91) (ht : t.toNat < 4) (hb : b.toNat < 8) :
    Runs c (bInit v t b) (pulseEvents c ++ powerUpEventsB c v t b) := by
  unfold bInit
  rw [inOrder_cons, requireCoeffs_done hv ht hb, done_andThen]
  exact ((resetPulse_runs c).andThen ((bPowerUp_runs c hv ht hb).andThen (Runs.done c))).of_eq (by simp)

end Sys2Proof.Machine
end

