-- ==== Sys2Proof/Laws/Checks.lean ====
section
/-! SUPPORT. Precondition violations come before any event (60_exceptions.md R242): every check of a body stands before its first
event, or is one that an earlier check has already decided. -/

namespace Sys2Proof.Machine

/-- A piece that never ends with a precondition violation. -/
def Clean (a : Act) : Prop := ∀ s, (a s).2 ≠ some .preconditionViolation

/-- A piece that changes nothing when it ends with a precondition violation. -/
def ViolatesFirst (a : Act) : Prop := ∀ s, (a s).2 = some .preconditionViolation → a s = (s, some .preconditionViolation)

theorem raiseOnFail_clean (a : Answer) : raiseOnFail a ≠ some .preconditionViolation := by cases a <;> simp [raiseOnFail]

theorem Clean.done : Clean done := by simp [Clean, Machine.done]

theorem Clean.emit (e : Event) : Clean (emit e) := by
  intro s
  cases e with
  | delay n => simp [Machine.emit, delayMs]
  | set l v => exact raiseOnFail_clean _
  | hwWrite bs => exact raiseOnFail_clean _

section
variable {a b : Act}

theorem Clean.andThen (ha : Clean a) (hb : Clean b) : Clean (andThen a b) := by
  intro s
  have h := ha s
  unfold Machine.andThen
  rcases hx : a s with ⟨s', _ | r⟩
  · exact hb s'
  · rwa [hx] at h

theorem Clean.inOrder {as : List Act} (h : ∀ a ∈ as, Clean a) : Clean (inOrder as) := by
  induction as with
  | nil => exact Clean.done
  | cons a as ih => exact (h a (by simp)).andThen (ih (fun b hb => h b (by simp [hb])))

theorem Clean.inOrder_map {α : Type} {f : α → Act} (xs : List α) (h : ∀ x, Clean (f x)) : Clean (Machine.inOrder (xs.map f)) :=
  Clean.inOrder (fun a ha => by obtain ⟨x, -, rfl⟩ := List.mem_map.1 ha; exact h x)

theorem Clean.emitAll (es : List Event) : Clean (emitAll es) := Clean.inOrder_map es Clean.emit

theorem Clean.withConfig {f : Config → Act} (h : ∀ c, Clean (f c)) : Clean (withConfig f) := fun s => h s.cfg s

theorem Clean.withCs {body : Act} (h : Clean body) : Clean (withCs body) := by
  intro s
  have h1 : Clean (Machine.andThen (drive .cs csActive) body) := Clean.andThen (Clean.emit (.set .cs false)) h
  have h2 := h1 s
  unfold Machine.withCs
  rcases hx : Machine.andThen (drive .cs csActive) body s with ⟨s', _ | (_ | _ | _)⟩
  · exact Clean.emit (.set .cs true) s'
  · simp [closeCs]
  · rw [hx] at h2; exact absurd rfl h2
  · simp [closeCs]

theorem Clean.raise {r : Raise} (h : r ≠ .preconditionViolation) : Clean (raise r) := by
  intro s; simpa [Machine.raise] using h

theorem Clean.violatesFirst (h : Clean a) : ViolatesFirst a := fun s hs => absurd hs (h s)

theorem ViolatesFirst.andThen (ha : ViolatesFirst a) (hb : Clean b) : ViolatesFirst (Machine.andThen a b) := by
  intro s hs
  rcases hx : a s with ⟨s', _ | r⟩
  · rw [andThen_of_none hx] at hs; exact absurd hs (hb s')
  · rw [andThen_of_some hx] at hs ⊢
    cases (show some r = some Raise.preconditionViolation from hs)
    have := ha s (by rw [hx])
    rw [← hx, this]

/-- A check, then a piece that is clean when the check passes. -/
theorem ViolatesFirst.checked {p : Bool} (h : p = true → ViolatesFirst a) :
    ViolatesFirst (Machine.andThen (Machine.require p) a) := by
  cases p
  · intro s _; rfl
  · exact h rfl

theorem ViolatesFirst.withConfig {f : Config → Act} (h : ∀ c, ViolatesFirst (f c)) :
    ViolatesFirst (Machine.withConfig f) := fun s => h s.cfg s

end

/-! ## The pieces -/

theorem shiftByte_clean (b : Byte) : Clean (shiftByte b) := by rw [shiftByte_straight]; exact Clean.emitAll _

theorem window_clean (k : Bit) (bs : List Byte) : Clean (withCs (sendFrames k bs)) := by
  refine Clean.withCs ?_
  have h : sendFrames k bs = withConfig (fun c => emitAll (frameEvents c.link k bs)) := by
    funext s; rw [sendFrames_straight]; rfl
  rw [h]
  exact Clean.withConfig (fun c => Clean.emitAll _)

theorem sendCommand_clean (b : Byte) : Clean (sendCommand b) := window_clean _ _

theorem sendData_clean (bs : List Byte) : Clean (sendData bs) := window_clean _ _

theorem sendCommands_clean (bs : List Byte) : Clean (sendCommands bs) := Clean.inOrder_map bs sendCommand_clean

theorem checked_clean {p : Bool} {a : Act} (hp : p = true) (h : Clean a) : Clean (andThen (require p) a) := by
  subst hp; exact h

theorem aSetPage_clean {x : Byte} (h : below x (pages .a) = true) : Clean (aSetPage x) :=
  checked_clean h (sendCommand_clean _)

theorem aSetColumn_clean {x : Byte} (h : below x (width .a) = true) : Clean (aSetColumn x) :=
  checked_clean h (sendCommands_clean _)

theorem bSetPage_clean {x : Byte} (h : below x (pages .b) = true) : Clean (bSetPage x) :=
  checked_clean h (sendCommand_clean _)

theorem bSetColumn_clean {x : Byte} (h : below x (width .b) = true) : Clean (bSetColumn x) :=
  checked_clean h (sendCommand_clean _)

theorem setPosition_violatesFirst (x p : Byte) : ViolatesFirst (setPosition x p) := by
  refine ViolatesFirst.withConfig (fun c => ?_)
  refine ViolatesFirst.checked (fun hx => ViolatesFirst.checked (fun hp => ?_))
  refine Clean.violatesFirst (Clean.andThen ?_ Clean.done)
  cases hv : c.variant <;> rw [hv] at hx hp
  · exact (aSetPage_clean hp).andThen (aSetColumn_clean hx)
  · exact (bSetPage_clean hp).andThen (bSetColumn_clean hx)

theorem origin_clean : Clean (setPosition 0 0) := by
  refine Clean.withConfig (fun c => ?_)
  cases c.variant
  · exact checked_clean (by decide) (checked_clean (by decide) (Clean.andThen
      ((aSetPage_clean (by decide)).andThen (aSetColumn_clean (by decide))) Clean.done))
  · exact checked_clean (by decide) (checked_clean (by decide) (Clean.andThen
      ((bSetPage_clean (by decide)).andThen (bSetColumn_clean (by decide))) Clean.done))

theorem clear_clean : Clean clear :=
  Clean.withConfig (fun _ => origin_clean.andThen ((sendData_clean _).andThen (origin_clean.andThen Clean.done)))

theorem printChar_clean (code : Byte) : Clean (printChar code) := by
  refine Clean.withConfig (fun c => ?_)
  cases glyphOf c code with
  | none => exact Clean.raise (by simp)
  | some g => exact (sendData_clean g).andThen (sendData_clean _)

theorem aPowerUp_clean : Clean aPowerUp :=
  (sendCommand_clean _).andThen (Clean.andThen (checked_clean (by decide) (sendCommand_clean _))
    ((sendCommands_clean _).andThen ((sendCommand_clean _).andThen ((sendCommand_clean _).andThen
      (clear_clean.andThen Clean.done)))))

theorem bDrawBuffer_clean (buf : List Byte) : Clean (bDrawBuffer buf) :=
  (sendCommand_clean _).andThen (origin_clean.andThen ((sendData_clean buf).andThen
    ((sendCommand_clean _).andThen (origin_clean.andThen Clean.done))))

theorem resetPulse_clean : Clean resetPulse :=
  Clean.withConfig (fun c => Clean.emitAll (pulseEvents c))

/-- The three coefficient checks, then a piece that is clean when they pass. -/
theorem coeffs_violateFirst {v t b : Byte} {a : Act} (h : requireCoeffs v t b = done → Clean a) :
    ViolatesFirst (andThen (requireCoeffs v t b) a) := by
  have hs : ∀ x y z : Bool, inOrder [require x, require y, require z] = done ∨
      inOrder [require x, require y, require z] = raise .preconditionViolation := by
    intro x y z; cases x <;> cases y <;> cases z <;> first | exact .inl rfl | exact .inr rfl
  rcases hs (below v vLim) (below t tLim) (below b bLim) with h' | h'
  · have h'' : requireCoeffs v t b = done := h'
    rw [h'', done_andThen]; exact (h h'').violatesFirst
  · have h'' : requireCoeffs v t b = raise .preconditionViolation := h'
    rw [h'']; intro s _; rfl

theorem bracket_clean (v t b : Byte) : Clean (withConfig (fun c =>
    sendCommands [c.bExtEnter, byteForVoltage v, byteForTemperature t, byteForBias b, c.bExtExit])) :=
  Clean.withConfig (fun _ => sendCommands_clean _)

theorem bSetCoeffs_clean {v t b : Byte} (h : requireCoeffs v t b = done) : Clean (bSetCoeffs v t b) := by
  unfold bSetCoeffs; rw [h, done_andThen]; exact bracket_clean v t b

theorem bPowerUp_clean {v t b : Byte} (h : requireCoeffs v t b = done) : Clean (bPowerUp v t b) := by
  unfold bPowerUp; rw [inOrder_cons, h, done_andThen]
  exact (bSetCoeffs_clean h).andThen ((sendCommand_clean _).andThen (clear_clean.andThen Clean.done))

/-- Every body changes nothing when it ends with a precondition violation (R242). -/
theorem bodyOf_violatesFirst (i : Instr) : ViolatesFirst (bodyOf i) := by
  cases i
  case shiftByte b => exact (shiftByte_clean b).violatesFirst
  case sendData bs => exact (sendData_clean bs).violatesFirst
  case setPosition x p => exact setPosition_violatesFirst x p
  case clear => exact clear_clean.violatesFirst
  case printChar x => exact (printChar_clean x).violatesFirst
  case print bs => exact (Clean.inOrder_map bs printChar_clean).violatesFirst
  case getPixelRes => exact Clean.done.violatesFirst
  case getCharRes => exact Clean.done.violatesFirst
  case aSetPage p => exact ViolatesFirst.checked (fun _ => (sendCommand_clean _).violatesFirst)
  case aSetColumn x => exact ViolatesFirst.checked (fun _ => (sendCommands_clean _).violatesFirst)
  case aSetContrast x => exact ViolatesFirst.checked (fun _ => (sendCommand_clean _).violatesFirst)
  case aSetMode m => exact (sendCommands_clean _).violatesFirst
  case aPowerUp => exact aPowerUp_clean.violatesFirst
  case aInit => exact (resetPulse_clean.andThen aPowerUp_clean).violatesFirst
  case bSetPage p => exact ViolatesFirst.checked (fun _ => (sendCommand_clean _).violatesFirst)
  case bSetColumn x => exact ViolatesFirst.checked (fun _ => (sendCommand_clean _).violatesFirst)
  case bSetCoeffs v t b => exact coeffs_violateFirst (fun _ => bracket_clean v t b)
  case bDrawBuffer buf => exact (bDrawBuffer_clean buf).violatesFirst
  case bPowerUp v t b =>
    exact coeffs_violateFirst (fun h => (bSetCoeffs_clean h).andThen ((sendCommand_clean _).andThen
      (clear_clean.andThen Clean.done)))
  case bInit v t b =>
    exact coeffs_violateFirst (fun h => resetPulse_clean.andThen ((bPowerUp_clean h).andThen Clean.done))
  case cmdBXExit => exact (Clean.withConfig (fun _ => sendCommand_clean _)).violatesFirst
  all_goals exact (sendCommand_clean _).violatesFirst

end Sys2Proof.Machine
end

