-- ==== Sys2Proof/Laws/Wire.lean ====
section
/-! SUPPORT. What a receiver hears of a chip-select window and of a sequence of windows. -/

namespace Sys2Proof.Machine

theorem scan_append (style : DcStyle) (s : Scan) (es fs : List Event) :
    scan style s (es ++ fs) =
      ((scan style (scan style s es).1 fs).1, (scan style s es).2 ++ (scan style (scan style s es).1 fs).2) := by
  induction es generalizing s with
  | nil => simp [scan]
  | cons e es ih => simp [scan, ih]

theorem okEvents_append_ok {t u : List TraceEntry} (h : ∀ e ∈ t, e.answer = .ok) :
    okEvents (t ++ u) = okEvents t ++ okEvents u := by
  induction t with
  | nil => rfl
  | cons x t ih => simp [okEvents, h x (by simp), ih (fun e he => h e (by simp [he]))]

@[simp] theorem okEvents_okEntries (es : List Event) : okEvents (okEntries es) = es := by
  induction es with
  | nil => rfl
  | cons e es ih => simpa [okEvents, okEntries] using ih

/-! ## Bits and bytes -/

/-- A byte is made of its bits, bit 7 first. -/
theorem byteOfBits_byte : ∀ b : Byte, byteOfBits [b.getLsbD 7, b.getLsbD 6, b.getLsbD 5, b.getLsbD 4, b.getLsbD 3,
    b.getLsbD 2, b.getLsbD 1, b.getLsbD 0] = b := by decide

/-- One bit clocked into an open window joins the frame under way. -/
theorem scan_bit (style : DcStyle) (v : Bit) (s : Scan) (hc : s.cs = false) :
    scan style s (bitEvents v) = collect style { s with clk := false, data := some v, buf := s.buf ++ [v] } := by
  rcases s with ⟨cs, clk, dc, data, buf⟩
  subst hc
  simp [bitEvents, scan, scanEvent, sample]

theorem collect_short (style : DcStyle) (s : Scan) (h : s.buf.length < 8) : collect style s = (s, []) := by
  cases style <;> simp [collect] <;> omega

theorem collect_line (s : Scan) (h : s.buf.length = 8) :
    collect .line s = ({ s with buf := [] }, [⟨kindOfLine s.dc, byteOfBits s.buf⟩]) := by simp [collect, h]

theorem collect_inband8 (s : Scan) (h : s.buf.length = 8) : collect .inband s = (s, []) := by simp [collect, h]

theorem collect_inband (s : Scan) (h : s.buf.length = 9) :
    collect .inband s = ({ s with buf := [] }, [⟨kindOfBit (s.buf.headD false), byteOfBits s.buf.tail⟩]) := by
  simp [collect, h]

/-- A byte clocked into an open window of a link with a `DC` line. -/
theorem scan_byte_line (b : Byte) (s : Scan) (hc : s.cs = false) (hb : s.buf = []) :
    scan .line s (byteEvents b) =
      ({ s with clk := false, data := some (b.getLsbD 0), buf := [] }, [⟨kindOfLine s.dc, b⟩]) := by
  rcases s with ⟨cs, clk, dc, data, buf⟩
  subst hc hb
  simp [byteEvents, scan_append, scan_bit, collect_short, collect_line]
  exact byteOfBits_byte b

/-- A discriminator bit and a byte clocked into an open window of an in-band link. -/
theorem scan_byte_inband (k : Bit) (b : Byte) (s : Scan) (hc : s.cs = false) (hb : s.buf = []) :
    scan .inband s (bitEvents k ++ byteEvents b) =
      ({ s with clk := false, data := some (b.getLsbD 0), buf := [] }, [⟨kindOfBit k, b⟩]) := by
  rcases s with ⟨cs, clk, dc, data, buf⟩
  subst hc hb
  simp [byteEvents, scan_append, scan_bit, collect_short, collect_inband8, collect_inband]
  exact byteOfBits_byte b

/-! ## Windows -/

/-- The kind of the frames of a window. -/
def kindOf (k : Bit) : FrameKind := if k then .data else .command

theorem scan_bytes_line (bs : List Byte) (s : Scan) (hc : s.cs = false) (hb : s.buf = []) (hk : s.clk = false) :
    (scan .line s (bs.flatMap byteEvents)).2 = bs.map (fun b => ⟨kindOfLine s.dc, b⟩) ∧
      (scan .line s (bs.flatMap byteEvents)).1.clk = false := by
  induction bs generalizing s with
  | nil => exact ⟨rfl, hk⟩
  | cons b bs ih =>
    rw [List.flatMap_cons, scan_append, scan_byte_line b s hc hb]
    obtain ⟨h1, h2⟩ := ih { s with clk := false, data := some (b.getLsbD 0), buf := [] } hc rfl rfl
    exact ⟨by rw [h1]; rfl, h2⟩

theorem scan_bytes_inband (k : Bit) (bs : List Byte) (s : Scan) (hc : s.cs = false) (hb : s.buf = []) (hk : s.clk = false) :
    (scan .inband s (bs.flatMap (fun b => bitEvents k ++ byteEvents b))).2 = bs.map (fun b => ⟨kindOfBit k, b⟩) ∧
      (scan .inband s (bs.flatMap (fun b => bitEvents k ++ byteEvents b))).1.clk = false := by
  induction bs generalizing s with
  | nil => exact ⟨rfl, hk⟩
  | cons b bs ih =>
    rw [List.flatMap_cons, scan_append, scan_byte_inband k b s hc hb]
    obtain ⟨h1, h2⟩ := ih { s with clk := false, data := some (b.getLsbD 0), buf := [] } hc rfl rfl
    exact ⟨by rw [h1]; rfl, h2⟩

theorem kindOfLine_some (k : Bit) : kindOfLine (some k) = kindOf k := by cases k <;> rfl

theorem kindOfBit_eq (k : Bit) : kindOfBit k = kindOf k := rfl

/-- A window shows the receiver its bytes, whatever came before it, and leaves the clock low and chip-select released (R118). -/
theorem scan_window (link : LinkStyle) (k : Bit) (bs : List Byte) (s : Scan) (hk : s.clk = false) :
    (scan link.dcStyle s (windowEvents link k bs)).2 = bs.map (fun b => ⟨kindOf k, b⟩) ∧
      (scan link.dcStyle s (windowEvents link k bs)).1.clk = false ∧
      (scan link.dcStyle s (windowEvents link k bs)).1.cs = true := by
  rcases s with ⟨cs, clk, dc, data, buf⟩
  have hk' : clk = false := hk
  subst hk'
  cases link
  · obtain ⟨h1, h2⟩ := scan_bytes_line bs ⟨false, false, some k, data, []⟩ rfl rfl rfl
    simp [windowEvents, frameEvents, LinkStyle.dcStyle, scan, scan_append, scanEvent, h1, h2, kindOfLine_some]
  · simp [windowEvents, frameEvents, LinkStyle.dcStyle, scan, scanEvent, kindOfLine_some]
  · obtain ⟨h1, h2⟩ := scan_bytes_inband k bs ⟨false, false, dc, data, []⟩ rfl rfl rfl
    simp [windowEvents, frameEvents, LinkStyle.dcStyle, scan, scan_append, scanEvent, h1, h2, kindOfBit_eq]

theorem windowEvents_no_rst (link : LinkStyle) (k : Bit) (bs : List Byte) :
    ∀ e ∈ windowEvents link k bs, ∀ v, e ≠ .set .rst v := by
  have hbit : ∀ v, ∀ e ∈ bitEvents v, ∀ w, e ≠ .set .rst w := by simp [bitEvents]
  have hbyte : ∀ b, ∀ e ∈ byteEvents b, ∀ w, e ≠ .set .rst w := by
    intro b e he
    simp only [byteEvents, List.mem_append] at he
    rcases he with ((((((h | h) | h) | h) | h) | h) | h) | h <;> exact hbit _ e h
  intro e he
  simp only [windowEvents, List.cons_append, List.mem_cons, List.mem_append, List.not_mem_nil, or_false] at he
  rcases he with rfl | he | rfl
  · simp
  · cases link <;> simp only [frameEvents, List.mem_cons, List.mem_flatMap, List.mem_append, List.not_mem_nil, or_false] at he
    · rcases he with rfl | ⟨b, -, h⟩
      · simp
      · exact hbyte b e h
    · rcases he with rfl | rfl <;> simp
    · rcases he with ⟨b, -, h | h⟩
      · exact hbit k e h
      · exact hbyte b e h
  · simp

/-! ## Sequences of windows -/

/-- A list of events that shows a receiver the frames `fs` from wherever the scan stands with the clock low, and leaves the clock
low, chip-select released and the reset line alone. -/
structure Shows (link : LinkStyle) (es : List Event) (fs : List Frame) : Prop where
  frames : ∀ s : Scan, s.clk = false → (scan link.dcStyle s es).2 = fs
  clk : ∀ s : Scan, s.clk = false → (scan link.dcStyle s es).1.clk = false
  cs : ∀ s : Scan, s.clk = false → s.cs = true → (scan link.dcStyle s es).1.cs = true
  noRst : ∀ e ∈ es, ∀ v, e ≠ .set .rst v

theorem Shows.nil (link : LinkStyle) : Shows link [] [] := ⟨fun _ _ => rfl, fun _ h => h, fun _ _ h => h, by simp⟩

theorem Shows.window (link : LinkStyle) (k : Bit) (bs : List Byte) :
    Shows link (windowEvents link k bs) (bs.map (fun b => ⟨kindOf k, b⟩)) :=
  ⟨fun s h => (scan_window link k bs s h).1, fun s h => (scan_window link k bs s h).2.1,
    fun s h _ => (scan_window link k bs s h).2.2, windowEvents_no_rst link k bs⟩

theorem Shows.append {link : LinkStyle} {es es' : List Event} {fs fs' : List Frame} (h : Shows link es fs)
    (h' : Shows link es' fs') : Shows link (es ++ es') (fs ++ fs') where
  frames := fun s hs => by rw [scan_append, h.frames s hs, h'.frames _ (h.clk s hs)]
  clk := fun s hs => by rw [scan_append]; exact h'.clk _ (h.clk s hs)
  cs := fun s hs hc => by rw [scan_append]; exact h'.cs _ (h.clk s hs) (h.cs s hs hc)
  noRst := fun e he => by
    rcases List.mem_append.1 he with he | he
    · exact h.noRst e he
    · exact h'.noRst e he

/-- A command frame. -/
def commandFrame (b : Byte) : Frame := ⟨.command, b⟩

/-- A data frame. -/
def dataFrame (b : Byte) : Frame := ⟨.data, b⟩

theorem Shows.command (link : LinkStyle) (b : Byte) : Shows link (commandEvents link b) [commandFrame b] :=
  Shows.window link false [b]

theorem Shows.commands (link : LinkStyle) (bs : List Byte) : Shows link (commandsEvents link bs) (bs.map commandFrame) := by
  induction bs with
  | nil => exact Shows.nil link
  | cons b bs ih => rw [commandsEvents_cons]; exact (Shows.command link b).append ih

theorem Shows.data (link : LinkStyle) (bs : List Byte) : Shows link (dataEvents link bs) (bs.map dataFrame) :=
  Shows.window link true bs

theorem Shows.position (c : Config) (x p : Byte) :
    Shows c.link (positionEvents c x p) ((positionBytes c.variant x p).map commandFrame) := Shows.commands _ _

theorem Shows.clear (c : Config) : Shows c.link (clearEvents c)
    ((positionBytes c.variant 0 0).map commandFrame ++ (zeroFill c.variant).map dataFrame ++
      (positionBytes c.variant 0 0).map commandFrame) :=
  ((Shows.position c 0 0).append (Shows.data _ _)).append (Shows.position c 0 0)

/-! ## The link in step -/

/-- What `LinkInSync` gives: where the scan stands after the trace. -/
theorem LinkInSync.wire_append {s t : State} {es : List Event} {fs : List Frame} (h : LinkInSync s) (hc : t.cfg = s.cfg)
    (ht : t.trace = s.trace ++ okEntries es) (hs : Shows s.cfg.link es fs) : t.wire = s.wire ++ fs ∧ LinkInSync t := by
  obtain ⟨h1, h2, h3⟩ := h
  have ho : okEvents t.trace = okEvents s.trace ++ es := by rw [ht, okEvents_append_ok h1, okEvents_okEntries]
  refine ⟨?_, ?_, ?_, ?_⟩
  · unfold State.wire Machine.wire
    rw [ho, hc, scan_append, hs.frames _ h2]
  · intro e he
    rw [ht] at he
    rcases List.mem_append.1 he with he | he
    · exact h1 e he
    · obtain ⟨x, -, rfl⟩ := List.mem_map.1 he; rfl
  · rw [ho, hc, scan_append]; exact hs.clk _ h2
  · rw [ho, hc, scan_append]; exact hs.cs _ h2 h3

theorem LinkInSync.afterOk {s : State} {es : List Event} {fs : List Frame} (h : LinkInSync s) (hs : Shows s.cfg.link es fs) :
    (Machine.afterOk s es).wire = s.wire ++ fs ∧ LinkInSync (Machine.afterOk s es) :=
  h.wire_append (by simp [Machine.afterOk]) (by simp [Machine.afterOk]) hs

end Sys2Proof.Machine
end

