-- ==== Sys2Proof/Laws/Controller.lean ====
section
/-! SUPPORT. What the events of a trace do to the receiver's view of the controller: in step while every answer is `ok`, described again by an
INIT that ends `OK`, back in step after most failures with the release of chip-select. -/

namespace Sys2Proof.Machine

/-! ## Frames -/

theorem hear_data (c : Config) (k : Controller) (b : Byte) : k.hear c (dataFrame b) = k.moved := by
  unfold Controller.hear dataFrame; cases c.variant <;> rfl

theorem moved_moved (k : Controller) : k.moved.moved = k.moved := rfl

/-- Any number of data frames, one at least, only loses the cursor. -/
theorem hear_datas (c : Config) (k : Controller) (b : Byte) (bs : List Byte) :
    ((b :: bs).map dataFrame).foldl (Controller.hear c) k = k.moved := by
  induction bs generalizing k b with
  | nil => exact hear_data c k b
  | cons b' bs ih =>
    rw [List.map_cons, List.foldl_cons, hear_data, ih, moved_moved]

theorem hear_command_a {c : Config} (hv : c.variant = .a) {k : Controller} (hk : k.described = true) (b : Byte) :
    k.hear c (commandFrame b) = k.row (decodeCommandA b) Controller.unknown := by
  simp [Controller.hear, commandFrame, hv, hk]

theorem hear_command_b {c : Config} (hv : c.variant = .b) {k : Controller} (hk : k.described = true) (b : Byte) :
    k.hear c (commandFrame b) = k.hearB c b := by
  simp [Controller.hear, commandFrame, hv, hk]

@[simp] theorem command_described (k : Controller) (i : Instr) : (k.command i).described = k.described := by cases i <;> rfl

theorem row_listed {k j : Controller} {i : Instr} (h : listed i = true) : k.row (some i) j = k.command i := by
  simp [Controller.row, h]

/-- In the basic set, a byte that is not `B_EXT_ENTER` and spells a listed row has the row's effect (R70). -/
theorem hearB_basic {c : Config} {k : Controller} {b : Byte} {i : Instr} (hs : k.set = some .basic) (he : b ≠ c.bExtEnter)
    (hd : decodeCommandB b = some i) (hl : listed i = true) : k.hearB c b = k.command i := by
  have hk : ({ k with set := some .basic } : Controller) = k := by rw [← hs]
  simp only [Controller.hearB, hs, Controller.hearIn, if_neg he, hd, row_listed hl, hk]

/-- In the extended set, a byte that is not `B_EXT_EXIT` and spells a listed row has the row's effect (R71). -/
theorem hearB_extended {c : Config} {k : Controller} {b : Byte} {i : Instr} (hs : k.set = some .extended)
    (he : b ≠ c.bExtExit) (hd : decodeCoefficient b = some i) (hl : listed i = true) : k.hearB c b = k.command i := by
  have hk : ({ k with set := some .extended } : Controller) = k := by rw [← hs]
  simp only [Controller.hearB, hs, Controller.hearIn, if_neg he, hd, row_listed hl, hk]

/-- `B_EXT_EXIT` ends the extended set (R71). -/
theorem hearB_exit {c : Config} {k : Controller} (hs : k.set = some .extended) :
    k.hearB c c.bExtExit = { k with set := some .basic } := by
  simp [Controller.hearB, hs, Controller.hearIn]

/-- `B_EXT_ENTER` opens the extended set (R71). -/
theorem hearB_enter {c : Config} {k : Controller} (hs : k.set = some .basic) :
    k.hearB c c.bExtEnter = { k.addressed c.bExtEnter with set := some .extended } := by
  simp [Controller.hearB, hs, Controller.hearIn]

/-- Nothing a controller hears makes it described (R283). -/
theorem hear_undescribed (c : Config) {k : Controller} (h : k.described = false) (f : Frame) :
    (k.hear c f).described = false := by
  rcases f with ⟨kind, b⟩
  cases kind <;> cases hv : c.variant <;> simp [Controller.hear, hv, h, Controller.moved]

theorem hears_undescribed (c : Config) (fs : List Frame) {k : Controller} (h : k.described = false) :
    (fs.foldl (Controller.hear c) k).described = false := by
  induction fs generalizing k with
  | nil => exact h
  | cons f fs ih => exact ih (hear_undescribed c h f)

theorem meet_undescribed {k : Controller} (h : k.described = false) (j : Controller) : k.meet j = Controller.unknown := by
  simp [Controller.meet, h]

theorem mayHear_undescribed (c : Config) (fs : List Frame) {k : Controller} (h : k.described = false) :
    (k.mayHear c fs).described = false := by
  cases fs with
  | nil => exact h
  | cons f fs => simp [Controller.mayHear, meet_undescribed h, Controller.unknown]

@[simp] theorem agree_self {α : Type} [DecidableEq α] (x : Option α) : agree x x = x := by simp [agree]

theorem meet_described {k j : Controller} (hk : k.described = true) (hj : j.described = true) :
    (k.meet j).described = true := by simp [Controller.meet, hk, hj]

theorem meet_set {k j : Controller} (hk : k.described = true) (hj : j.described = true) :
    (k.meet j).set = agree k.set j.set := by simp [Controller.meet, hk, hj]

theorem meet_vertical {k j : Controller} (hk : k.described = true) (hj : j.described = true) :
    (k.meet j).vertical = agree k.vertical j.vertical := by simp [Controller.meet, hk, hj]

/-- What a frame keeps and a meet keeps, frames that may have been heard keep. -/
theorem mayHear_keeps (c : Config) (P : Controller → Prop) (hmeet : ∀ k j, P k → P j → P (k.meet j)) (fs : List Frame)
    (hf : ∀ f ∈ fs, ∀ k, P k → P (k.hear c f)) {k : Controller} (hk : P k) : P (k.mayHear c fs) := by
  induction fs generalizing k with
  | nil => exact hk
  | cons f fs ih =>
    exact hmeet _ _ hk (ih (fun g hg => hf g (by simp [hg])) (hf f (by simp) k hk))

/-- What each frame keeps, all of them keep. -/
theorem hears_keep (c : Config) (P : Controller → Prop) (fs : List Frame) (hf : ∀ f ∈ fs, ∀ k, P k → P (k.hear c f))
    {k : Controller} (hk : P k) : P (fs.foldl (Controller.hear c) k) := by
  induction fs generalizing k with
  | nil => exact hk
  | cons f fs ih => exact ih (fun g hg => hf g (by simp [hg])) (hf f (by simp) k hk)

/-! ## Events answered `ok` -/

/-- A receiver that is surely in step. -/
def inStep (s : Scan) (k : Controller) (p : InitPhase) : Receiver := ⟨s, true, true, true, k, p⟩

@[simp] theorem inStep_scan (s : Scan) (k : Controller) (p : InitPhase) : (inStep s k p).scan = s := rfl
@[simp] theorem inStep_controller (s : Scan) (k : Controller) (p : InitPhase) : (inStep s k p).controller = k := rfl
@[simp] theorem inStep_phase (s : Scan) (k : Controller) (p : InitPhase) : (inStep s k p).phase = p := rfl

theorem inStep_of_sure {r : Receiver} (h : r.sure = true) : r = inStep r.scan r.controller r.phase := by
  rcases r with ⟨s, a, b, d, k, p⟩
  simp only [Receiver.sure, Bool.and_eq_true] at h
  obtain ⟨⟨rfl, rfl⟩, rfl⟩ := h
  rfl

theorem follows_inStep (s : Scan) (k : Controller) (p : InitPhase) (e : Event) : (inStep s k p).follows e = true := by
  cases e <;> simp [inStep, Receiver.follows, Receiver.sure]

@[simp] theorem controllerOn_inStep (c : Config) (s : Scan) (k : Controller) (p : InitPhase) (e : Event) :
    (inStep s k p).controllerOn c e = (scanEvent c.link.dcStyle s e).2.foldl (Controller.hear c) k := by
  unfold Receiver.controllerOn
  rw [if_pos (follows_inStep s k p e)]
  rfl

@[simp] theorem controllerOnFail_inStep (c : Config) (s : Scan) (k : Controller) (p : InitPhase) (e : Event) :
    (inStep s k p).controllerOnFail c e = k.mayHear c (scanEvent c.link.dcStyle s e).2 := by
  unfold Receiver.controllerOnFail
  rw [if_pos (follows_inStep s k p e)]
  rfl

theorem ok_inStep (c : Config) (s : Scan) (k : Controller) (p : InitPhase) (e : Event) :
    (inStep s k p).ok c e =
      inStep (scanEvent c.link.dcStyle s e).1 ((scanEvent c.link.dcStyle s e).2.foldl (Controller.hear c) k) p := by
  cases e with
  | delay n => rfl
  | hwWrite bs => simp [Receiver.ok]; rfl
  | set l v =>
    cases l with
    | clk =>
      cases v
      · simp [Receiver.ok]; rfl
      · simp [Receiver.ok, inStep, scanEvent]
    | _ => simp [Receiver.ok, inStep, scanEvent]

/-- The scan goes on whether or not it is sure. -/
@[simp] theorem ok_scan (c : Config) (r : Receiver) (e : Event) : (r.ok c e).scan = (scanEvent c.link.dcStyle r.scan e).1 := by
  cases e with
  | delay n => rfl
  | hwWrite bs => rfl
  | set l v =>
    cases l with
    | clk => cases v <;> rfl
    | _ => rfl

@[simp] theorem ok_phase (c : Config) (r : Receiver) (e : Event) : (r.ok c e).phase = r.phase := by
  cases e with
  | delay n => rfl
  | hwWrite bs => rfl
  | set l v =>
    cases l with
    | clk => cases v <;> rfl
    | _ => rfl

/-- The phase after `n` events answered `ok`, none of them a reset pulse and not enough of them to end an INIT, that show the
frames `fs`. -/
def InitPhase.after (c : Config) (p : InitPhase) (n : Nat) (fs : List Frame) : InitPhase :=
  match p with
  | .notDone => .notDone
  | .running left told => .running (left - n) (fs.foldl (Controller.hear c) told)
  | .done => .done

/-- An INIT under way has more than `n` events to come. -/
def Receiver.Longer (r : Receiver) (n : Nat) : Prop := ∀ left told, r.phase = .running left told → n < left

theorem Receiver.Settled.longer {r : Receiver} (h : r.Settled) (n : Nat) : r.Longer n := fun l k hp => absurd hp (h l k)

@[simp] theorem after_settled (c : Config) {r : Receiver} (h : r.Settled) (n : Nat) (fs : List Frame) :
    r.phase.after c n fs = r.phase := by
  cases hp : r.phase with
  | running l k => exact absurd hp (h l k)
  | _ => rfl

/-- While every answer is `ok`, no reset pulse comes and no INIT ends, a receiver in step stays so: its scan is that of R118, and its
controller hears the frames the scan puts out. -/
theorem receiver_ok (c : Config) (es : List Event) (h : ∀ e ∈ es, e ≠ .set .rst (rstAct c)) (s : Scan) (k : Controller)
    (p : InitPhase) (hl : (inStep s k p).Longer es.length) :
    (okEntries es).foldl (Receiver.entry c) (inStep s k p) =
      inStep (scan c.link.dcStyle s es).1 ((scan c.link.dcStyle s es).2.foldl (Controller.hear c) k)
        (p.after c es.length (scan c.link.dcStyle s es).2) := by
  induction es generalizing s k p with
  | nil => cases p <;> rfl
  | cons e es ih =>
    have he : (inStep s k p).entry c ⟨e, .ok⟩ = inStep (scanEvent c.link.dcStyle s e).1
        ((scanEvent c.link.dcStyle s e).2.foldl (Controller.hear c) k) (p.after c 1 (scanEvent c.link.dcStyle s e).2) := by
      simp only [Receiver.entry, if_neg (h e (by simp)), Receiver.heard, inStep_phase]
      cases p with
      | notDone => exact ok_inStep c s k _ e
      | done => exact ok_inStep c s k _ e
      | running left told =>
        have := hl left told rfl
        simp only [List.length_cons] at this
        simp only [if_neg (show ¬ left ≤ 1 by omega), ok_inStep]
        rfl
    show (okEntries es).foldl (Receiver.entry c) ((inStep s k p).entry c ⟨e, .ok⟩) = _
    rw [he, ih (fun e he => h e (by simp [he]))]
    · cases p <;> simp [scan, InitPhase.after, Nat.sub_sub, Nat.add_comm]
    · intro l t hp
      cases p with
      | running left told =>
        have := hl left told rfl
        simp only [InitPhase.after, inStep_phase, InitPhase.running.injEq, List.length_cons] at hp this
        omega
      | _ => simp [InitPhase.after] at hp

/-- The last event of an INIT ends it: the receiver is in step and its controller has heard every frame of it, whatever was unsure
before (R283, R297). -/
theorem receiver_ends (c : Config) (es : List Event) (h : ∀ e ∈ es, e ≠ .set .rst (rstAct c)) (r : Receiver) (told : Controller)
    (hp : r.phase = .running es.length told) (hne : es ≠ []) :
    (okEntries es).foldl (Receiver.entry c) r =
      inStep (scan c.link.dcStyle r.scan es).1 ((scan c.link.dcStyle r.scan es).2.foldl (Controller.hear c) told) .done := by
  induction es generalizing r told with
  | nil => exact absurd rfl hne
  | cons e es ih =>
    show (okEntries es).foldl (Receiver.entry c) (r.entry c ⟨e, .ok⟩) = _
    simp only [Receiver.entry, if_neg (h e (by simp)), Receiver.heard, hp, List.length_cons]
    cases es with
    | nil => simp [okEntries, scan, inStep, Receiver.shown]
    | cons e' es =>
      rw [if_neg (by simp), ih (fun e he => h e (by simp [he])) _ _ rfl (by simp)]
      simp [scan, Receiver.shown]

/-- The events of INIT after its reset pulse has begun. -/
def afterPulseEvents (c : Config) (es : List Event) : List Event :=
  [.delay (rstTPulse c), .set .rst (!rstAct c), .delay (rstTPost c)] ++ es

theorem afterPulseEvents_noPulse {c : Config} {es : List Event} (h : ∀ e ∈ es, ∀ v, e ≠ .set .rst v) :
    ∀ e ∈ afterPulseEvents c es, e ≠ .set .rst (rstAct c) := by
  intro e he
  simp only [afterPulseEvents, List.mem_append, List.mem_cons, List.not_mem_nil, or_false] at he
  rcases he with (rfl | rfl | rfl) | he
  · simp
  · simp
  · simp
  · exact h e he _

theorem scan_afterPulse (c : Config) (es : List Event) (s : Scan) :
    scan c.link.dcStyle s (afterPulseEvents c es) = scan c.link.dcStyle s es := by
  simp [afterPulseEvents, scan, scanEvent]

/-- An event that shows no frame leaves a receiver ready, whether or not it ends an INIT. -/
theorem heard_ready (c : Config) {r : Receiver} (h : r.Ready) {e : Event} (he : r.ok c e = r)
    (hs : ∀ x, (scanEvent c.link.dcStyle x e).1 = x) : (r.heard c e).Ready := by
  obtain ⟨h1, h2, h3⟩ := h
  unfold Receiver.heard
  split
  · split
    · rw [hs]; exact ⟨rfl, h2, h3⟩
    · rw [he]; exact ⟨h1, h2, h3⟩
  · rw [he]; exact ⟨h1, h2, h3⟩
  · rw [he]; exact ⟨h1, h2, h3⟩

/-- The start of INIT, up to the reset pulse: it leaves a receiver ready that was. -/
theorem receiver_pulse (c : Config) (r : Receiver) (es : List Event) : ∃ r' : Receiver, (r.Ready → r'.Ready) ∧
    ∀ tail : List TraceEntry, (okEntries (pulseEvents c ++ es) ++ tail).foldl (Receiver.entry c) r =
      (okEntries (afterPulseEvents c es) ++ tail).foldl (Receiver.entry c) (r'.pulse c) := by
  refine ⟨(r.heard c (.set .rst (!rstAct c))).heard c (.delay (rstTPre c)),
    fun h => heard_ready c (heard_ready c h rfl fun _ => rfl) rfl fun _ => rfl, fun tail => ?_⟩
  simp [okEntries, pulseEvents, afterPulseEvents, Receiver.entry]

/-- A receiver that was in step between two windows is so after the reset pulse (R290, R292). -/
theorem pulse_ready (c : Config) {r : Receiver} (h : r.Ready) :
    r.pulse c = inStep Scan.start Controller.afterPulse (.running (initLeft c) Controller.afterPulse) := by
  obtain ⟨h1, h2, h3⟩ := h
  simp only [Receiver.sure, Bool.and_eq_true] at h1
  simp [Receiver.pulse, Receiver.away, inStep, h1, h2, h3, Scan.start]

theorem powerUpEventsB_length (c : Config) (v t b v' t' b' : Byte) :
    (powerUpEventsB c v t b).length = (powerUpEventsB c v' t' b').length := by
  have h : ∀ x y, (commandEvents c.link x).length = (commandEvents c.link y).length := by
    intro x y; cases c.link <;> rfl
  simp only [powerUpEventsB, commandsEvents, coeffBytes, List.cons_append, List.nil_append, List.flatMap_cons,
    List.length_append]
  rw [h (0x80#8 ||| v) (0x80#8 ||| v'), h (0x04#8 ||| t) (0x04#8 ||| t'), h (0x10#8 ||| b) (0x10#8 ||| b')]

/-- An INIT that ends `OK` leaves the receiver in step, and its controller as INIT's frames make it, whatever came before it (R283,
R284, R297). -/
theorem receiver_init (c : Config) (r : Receiver) (es : List Event) (h : ∀ e ∈ es, ∀ v, e ≠ .set .rst v)
    (hl : 3 + es.length = initLeft c) : ∃ s : Scan, s.clk = false ∧
      (okEntries (pulseEvents c ++ es)).foldl (Receiver.entry c) r =
        inStep (scan c.link.dcStyle s es).1 ((scan c.link.dcStyle s es).2.foldl (Controller.hear c) Controller.afterPulse)
          .done := by
  obtain ⟨r', -, h'⟩ := receiver_pulse c r es
  have h'' := h' []
  rw [List.append_nil, List.append_nil] at h''
  refine ⟨(r'.pulse c).scan, rfl, ?_⟩
  rw [h'', receiver_ends c _ (afterPulseEvents_noPulse h) _ Controller.afterPulse _ (by simp [afterPulseEvents]),
    scan_afterPulse]
  simp [Receiver.pulse, afterPulseEvents, ← hl]; omega

/-- The receiver after a sequence of windows, from one ready for them, with no INIT under way. -/
theorem receiver_shows {c : Config} {es : List Event} {fs : List Frame} (h : Shows c.link es fs) {r : Receiver} (hr : r.Ready)
    (hs : r.Settled) :
    ((okEntries es).foldl (Receiver.entry c) r).controller = fs.foldl (Controller.hear c) r.controller ∧
      ((okEntries es).foldl (Receiver.entry c) r).phase = r.phase ∧ ((okEntries es).foldl (Receiver.entry c) r).Ready := by
  obtain ⟨h1, h2, h3⟩ := hr
  have hin := inStep_of_sure h1
  have hok := receiver_ok c es (fun e he => h.noRst e he _) r.scan r.controller r.phase (hin ▸ hs.longer _)
  rw [hin, hok]
  refine ⟨?_, after_settled c hs _ _, rfl, h.cs _ h3 h2, h.clk _ h3⟩
  show List.foldl _ _ (scan c.link.dcStyle r.scan es).2 = _
  rw [h.frames _ h3]
  rfl

theorem receiverAfter_append (c : Config) (t u : List TraceEntry) :
    receiverAfter c (t ++ u) = u.foldl (Receiver.entry c) (receiverAfter c t) := by
  simp [receiverAfter]

/-! ## What is known -/

theorem known_done {r : Receiver} (h : r.phase = .done) : r.known = r.controller := by simp [Receiver.known, h]

theorem known_partly {r : Receiver} (h : r.phase ≠ .done) : r.known = r.controller.partly := by
  cases hp : r.phase with
  | done => exact absurd hp h
  | _ => simp [Receiver.known, hp]

/-- The instruction set is known at every phase as far as it was heard (R71, R293). -/
@[simp] theorem known_set (r : Receiver) : r.known.set = r.controller.set := by
  cases hp : r.phase <;> simp [Receiver.known, hp, Controller.partly]

/-- So are the coefficients while the extended set is in force (R293). -/
theorem known_voltage {r : Receiver} (h : r.controller.set = some .extended) : r.known.voltage = r.controller.voltage := by
  cases hp : r.phase <;> simp [Receiver.known, hp, Controller.partly, h]

/-- The rules describe the controller only after an INIT that ended `OK` (R283, R297). -/
theorem known_described (r : Receiver) : r.known.described = true ↔ r.phase = .done ∧ r.controller.described = true := by
  cases hp : r.phase <;> simp [Receiver.known, hp, Controller.partly, Controller.unknown]

/-! ## Chip-select that is not sure -/

/-- Where chip-select is not sure, the scan has it low, so that every bit a selected receiver may take is in the scan (R292). -/
def Receiver.LowIfUnsure (r : Receiver) : Prop := r.csSure = false → r.scan.cs = false

theorem sample_cs (s : Scan) : (sample s).cs = s.cs := by unfold sample; split <;> rfl

theorem collect_cs (style : DcStyle) (s : Scan) : (collect style s).1.cs = s.cs := by
  unfold collect; cases style <;> simp only <;> split <;> rfl

/-- Only an event of chip-select moves the scan's chip-select. -/
theorem scanEvent_cs (style : DcStyle) (s : Scan) {e : Event} (h : ∀ v, e ≠ .set .cs v) : (scanEvent style s e).1.cs = s.cs := by
  cases e with
  | set l v =>
    cases l with
    | cs => exact absurd rfl (h v)
    | clk =>
      simp only [scanEvent]
      split
      · rw [collect_cs]; exact sample_cs s
      · rfl
    | _ => rfl
  | _ => rfl

theorem ok_csSure (c : Config) (r : Receiver) {e : Event} (h : ∀ v, e ≠ .set .cs v) : (r.ok c e).csSure = r.csSure := by
  cases e with
  | set l v =>
    cases l with
    | cs => exact absurd rfl (h v)
    | clk => cases v <;> rfl
    | _ => rfl
  | _ => rfl

theorem entry_lowIfUnsure (c : Config) {r : Receiver} (h : r.LowIfUnsure) (t : TraceEntry) : (r.entry c t).LowIfUnsure := by
  have hok : ∀ e, (r.ok c e).LowIfUnsure := by
    intro e
    by_cases he : ∀ v, e ≠ .set .cs v
    · intro hs
      rw [ok_csSure c r he] at hs
      rw [ok_scan, scanEvent_cs _ _ he]; exact h hs
    · simp only [not_forall, not_not] at he
      obtain ⟨v, rfl⟩ := he
      exact fun hs => by cases hs
  rcases t with ⟨e, a⟩
  cases a with
  | ok =>
    simp only [Receiver.entry]
    split
    · exact fun hs => hs
    · unfold Receiver.heard
      split
      · split
        · exact fun hs => by cases hs
        · exact hok e
      · exact hok e
      · exact hok e
  | fail =>
    show (r.failed c e).csSure = false → (r.failed c e).scan.cs = false
    cases e with
    | set l v =>
      cases l with
      | cs => exact fun _ => rfl
      | _ => exact h
    | _ => exact h

theorem receiverAfter_lowIfUnsure (c : Config) (t : List TraceEntry) : (receiverAfter c t).LowIfUnsure := by
  unfold receiverAfter
  have h : ∀ (t : List TraceEntry) (r : Receiver), r.LowIfUnsure → (t.foldl (Receiver.entry c) r).LowIfUnsure := by
    intro t
    induction t with
    | nil => exact fun _ h => h
    | cons x t ih => exact fun r h => ih _ (entry_lowIfUnsure c h x)
  exact h t _ (fun hs => by cases hs)

/-! ## Events answered `fail` -/

/-- A failed event that is not one of the reset line: the controller may or may not have heard the frames of the event. -/
theorem failed_inStep (c : Config) (s : Scan) (k : Controller) (p : InitPhase) {e : Event} (h : ∀ v, e ≠ .set .rst v) :
    ((inStep s k p).failed c e).controller = k.mayHear c (scanEvent c.link.dcStyle s e).2 := by
  cases e with
  | delay n => rfl
  | hwWrite bs => simp [Receiver.failed]
  | set l v =>
    cases l with
    | rst => exact absurd rfl (h v)
    | clk => simp [Receiver.failed]
    | cs => rfl
    | dc => rfl
    | data => rfl

/-- No INIT is under way after a failed event. -/
theorem stopped_settled (c : Config) (r : Receiver) (e : Event) : (r.entry c ⟨e, .fail⟩).Settled := by
  intro left told h
  have h' : r.phase.stopped e = .running left told := h
  cases hp : r.phase with
  | done => cases e with
    | set l v => cases l <;> simp [InitPhase.stopped, hp] at h'
    | _ => simp [InitPhase.stopped, hp] at h'
  | _ => simp [InitPhase.stopped, hp] at h'

theorem stopped_done {p : InitPhase} {e : Event} (h : ∀ v, e ≠ .set .rst v) : p.stopped e = .done ↔ p = .done := by
  cases p with
  | done => cases e with
    | set l v => cases l <;> first | exact absurd rfl (h v) | simp [InitPhase.stopped]
    | _ => simp [InitPhase.stopped]
  | _ => simp [InitPhase.stopped]

/-- An event of a settled receiver that is not a reset pulse. -/
theorem entry_settled (c : Config) {r : Receiver} (hr : r.Settled) {e : Event} (h : e ≠ .set .rst (rstAct c)) :
    r.entry c ⟨e, .ok⟩ = r.ok c e := by
  cases hp : r.phase with
  | running l k => exact absurd hp (hr l k)
  | _ => simp [Receiver.entry, h, Receiver.heard, hp]

/-- A release of chip-select, whatever its answer, leaves a settled receiver's controller and phase. -/
theorem release_keeps (c : Config) {r : Receiver} (hr : r.Settled) (a : Answer) :
    (r.entry c ⟨.set .cs true, a⟩).controller = r.controller ∧ (r.entry c ⟨.set .cs true, a⟩).phase = r.phase := by
  cases a with
  | ok => rw [entry_settled c hr (by simp)]; exact ⟨rfl, rfl⟩
  | fail =>
    refine ⟨rfl, ?_⟩
    show r.phase.stopped (.set .cs true) = _
    cases hp : r.phase with
    | running l k => exact absurd hp (hr l k)
    | _ => rfl

/-- A release of chip-select answered `ok` gets the receiver in step again where the clock is known. -/
theorem ok_release (c : Config) {r : Receiver} (hr : r.Settled) (h1 : r.clkSure = true) (h2 : r.scan.clk = false) :
    (r.entry c ⟨.set .cs true, .ok⟩).Ready := by
  rw [entry_settled c hr (by simp)]
  refine ⟨?_, rfl, ?_⟩
  · simp [Receiver.ok, Receiver.sure, h1]
  · simpa [Receiver.ok, scanEvent] using h2

/-- No event but one of the reset line starts an INIT or ends one that is not under way. -/
theorem entry_phase (c : Config) {r : Receiver} (hr : r.Settled) {t : TraceEntry} (h : ∀ v, t.event ≠ .set .rst v) :
    (r.entry c t).phase = r.phase := by
  rcases t with ⟨e, a⟩
  cases a with
  | ok => rw [entry_settled c hr (h _), ok_phase]
  | fail =>
    show r.phase.stopped e = _
    cases hp : r.phase with
    | running l k => exact absurd hp (hr l k)
    | notDone => rfl
    | done => exact (stopped_done h).2 rfl

theorem entries_phase (c : Config) (ts : List TraceEntry) (h : ∀ t ∈ ts, ∀ v, t.event ≠ .set .rst v) {r : Receiver}
    (hr : r.Settled) : (ts.foldl (Receiver.entry c) r).phase = r.phase := by
  induction ts generalizing r with
  | nil => rfl
  | cons t ts ih =>
    have h1 := entry_phase c hr (h t (by simp))
    rw [List.foldl_cons, ih (fun t ht => h t (by simp [ht])) (fun l k hp => hr l k (h1 ▸ hp)), h1]

/-- Nothing but an INIT makes a controller described (R283, R297). -/
theorem entry_undescribed (c : Config) {r : Receiver} (hs : r.Settled) (hr : r.controller.described = false) {t : TraceEntry}
    (h : ∀ v, t.event ≠ .set .rst v) : (r.entry c t).controller.described = false := by
  have hon : ∀ e, (r.controllerOn c e).described = false := by
    intro e; unfold Receiver.controllerOn; split
    · exact hears_undescribed c _ hr
    · rfl
  have hfail : ∀ e, (r.controllerOnFail c e).described = false := by
    intro e; unfold Receiver.controllerOnFail; split
    · exact mayHear_undescribed c _ hr
    · rfl
  rcases t with ⟨e, a⟩
  cases a with
  | ok =>
    rw [entry_settled c hs (h _)]
    cases e with
    | delay n => exact hr
    | hwWrite bs => exact hon _
    | set l v =>
      cases l with
      | clk =>
        cases v
        · exact hon _
        · exact hr
      | _ => exact hr
  | fail =>
    show (r.failed c e).controller.described = false
    cases e with
    | delay n => exact hr
    | hwWrite bs => exact hfail _
    | set l v =>
      cases l with
      | clk => exact hfail _
      | rst => rfl
      | _ => exact hr

theorem entries_undescribed (c : Config) (ts : List TraceEntry) (h : ∀ t ∈ ts, ∀ v, t.event ≠ .set .rst v) {r : Receiver}
    (hs : r.Settled) (hr : r.known.described = false) : (ts.foldl (Receiver.entry c) r).known.described = false := by
  have hp := entries_phase c ts h hs
  rw [Bool.eq_false_iff, Ne, known_described, hp]
  rw [Bool.eq_false_iff, Ne, known_described] at hr
  rintro ⟨h1, h2⟩
  have hd : r.controller.described = false := by simpa [h1] using hr
  have hall : ∀ (ts : List TraceEntry) (r : Receiver), (∀ t ∈ ts, ∀ v, t.event ≠ .set .rst v) → r.Settled →
      r.controller.described = false → (ts.foldl (Receiver.entry c) r).controller.described = false := by
    intro ts
    induction ts with
    | nil => exact fun r _ _ h => h
    | cons t ts ih =>
      intro r h hs hr
      exact ih _ (fun t ht => h t (by simp [ht])) (fun l k hp => hs l k (entry_phase c hs (h t (by simp)) ▸ hp))
        (entry_undescribed c hs hr (h t (by simp)))
  rw [hall ts r h hs hd] at h2
  simp at h2

end Sys2Proof.Machine
end

