-- ==== Sys2Proof/Laws/Decode.lean ====
section
/-! SUPPORT. The encodings: the fields of a packed word, and the small round trips the decoder and the encoder are made of. -/

namespace Sys2Proof

section
variable (op a0 a1 a2 : Byte)

theorem packWord_toNat : (packWord op a0 a1 a2).toNat = op.toNat * 16777216 + a0.toNat * 65536 + a1.toNat * 256 + a2.toNat := by
  have hj : ∀ x y : Nat, y < 2 ^ 8 → x <<< 8 ||| y = x * 256 + y := by
    intro x y h; rw [← Nat.shiftLeft_add_eq_or_of_lt h, Nat.shiftLeft_eq]
  have h0 := a0.isLt; have h1 := a1.isLt; have h2 := a2.isLt
  simp only [packWord, BitVec.toNat_append, hj _ _ h0, hj _ _ h1, hj _ _ h2]
  omega

@[simp] theorem opField_packWord : opField (packWord op a0 a1 a2) = op := by
  apply BitVec.eq_of_toNat_eq
  have := op.isLt; have := a0.isLt; have := a1.isLt; have := a2.isLt
  simp only [opField, BitVec.extractLsb'_toNat, packWord_toNat, Nat.shiftRight_eq_div_pow]
  omega

@[simp] theorem a0Field_packWord : a0Field (packWord op a0 a1 a2) = a0 := by
  apply BitVec.eq_of_toNat_eq
  have := op.isLt; have := a0.isLt; have := a1.isLt; have := a2.isLt
  simp only [a0Field, BitVec.extractLsb'_toNat, packWord_toNat, Nat.shiftRight_eq_div_pow]
  omega

@[simp] theorem a1Field_packWord : a1Field (packWord op a0 a1 a2) = a1 := by
  apply BitVec.eq_of_toNat_eq
  have := op.isLt; have := a0.isLt; have := a1.isLt; have := a2.isLt
  simp only [a1Field, BitVec.extractLsb'_toNat, packWord_toNat, Nat.shiftRight_eq_div_pow]
  omega

@[simp] theorem a2Field_packWord : a2Field (packWord op a0 a1 a2) = a2 := by
  apply BitVec.eq_of_toNat_eq
  have := op.isLt; have := a0.isLt; have := a1.isLt; have := a2.isLt
  simp only [a2Field, BitVec.extractLsb'_toNat, packWord_toNat, Nat.shiftRight_eq_div_pow]
  omega

end

/-- A word is its four fields. -/
theorem packWord_fields (w : ReqWord) : packWord (opField w) (a0Field w) (a1Field w) (a2Field w) = w := by
  apply BitVec.eq_of_toNat_eq
  have := w.isLt
  rw [packWord_toNat]
  simp only [opField, a0Field, a1Field, a2Field, BitVec.extractLsb'_toNat, Nat.shiftRight_eq_div_pow]
  omega

@[simp] theorem decodeMode_encodeMode (m : DisplayMode) : decodeMode (encodeMode m) = some m := by cases m <;> rfl

@[simp] theorem decodeFlag_encodeFlag (f : Bit) : decodeFlag (encodeFlag f) = some f := by cases f <;> rfl

theorem decodeMode_some {x : Byte} {m : DisplayMode} (h : decodeMode x = some m) : x = encodeMode m := by
  revert x; cases m <;> decide

theorem decodeFlag_some {x : Byte} {f : Bit} (h : decodeFlag x = some f) : x = encodeFlag f := by
  revert x; cases f <;> decide

@[simp] theorem whenUnused_zero1 (i : Instr) : whenUnused [0#8] i = some i := rfl
@[simp] theorem whenUnused_zero2 (i : Instr) : whenUnused [0#8, 0#8] i = some i := rfl
@[simp] theorem whenUnused_zero3 (i : Instr) : whenUnused [0#8, 0#8, 0#8] i = some i := rfl

theorem whenUnused_some {fs : List Byte} {i j : Instr} (h : whenUnused fs i = some j) : (∀ f ∈ fs, f = 0#8) ∧ i = j := by
  unfold whenUnused at h
  split at h
  · next hz => exact ⟨by simpa using hz, by simpa using h⟩
  · cases h

/-- Each row of Controller A's table reads its own bytes. -/
theorem decodeCommandA_rows :
    (∀ x, decodeCommandA (byteAColLo x) = some (.cmdAColLo x)) ∧ (∀ x, decodeCommandA (byteAColHi x) = some (.cmdAColHi x)) ∧
    decodeCommandA byteAPowerOn = some .cmdAPowerOn ∧ decodeCommandA byteAScanStart = some .cmdAScanStart ∧
    (∀ x, decodeCommandA (byteAContrast x) = some (.cmdAContrast x)) ∧ decodeCommandA byteAFlipHOn = some .cmdAFlipHOn ∧
    (∀ x, decodeCommandA (byteAAllOn x) = some (.cmdAAllOn x)) ∧ (∀ x, decodeCommandA (byteAInverse x) = some (.cmdAInverse x)) ∧
    decodeCommandA byteAFlipHOff = some .cmdAFlipHOff ∧ decodeCommandA byteADisplayEnable = some .cmdADisplayEnable ∧
    (∀ x, decodeCommandA (byteASetPage x) = some (.cmdASetPage x)) ∧
    (∀ x, decodeCommandA (byteAFlipV x) = some (.cmdAFlipV x)) := by decide

/-- Each row of Controller B's basic table reads its own bytes. -/
theorem decodeCommandB_rows :
    (∀ d e, decodeCommandB (byteBMode d e) = some (.cmdBMode d e)) ∧
    (∀ v x, decodeCommandB (byteBFunction v x) = some (.cmdBFunction v x)) ∧
    (∀ x, decodeCommandB (byteBSetPage x) = some (.cmdBSetPage x)) ∧
    (∀ x, decodeCommandB (byteBSetCol x) = some (.cmdBSetCol x)) := by decide

/-- Each coefficient row of Controller B's extended table reads its own bytes. -/
theorem decodeCoefficient_rows :
    (∀ x, decodeCoefficient (byteBXTemp x) = some (.cmdBXTemp x)) ∧ (∀ x, decodeCoefficient (byteBXBias x) = some (.cmdBXBias x)) ∧
    (∀ x, decodeCoefficient (byteBXVop x) = some (.cmdBXVop x)) := by decide

/-- A byte no row claims twice: what a byte decodes to is spelled by that byte. -/
theorem decodeCommandA_some : ∀ b : Byte, ∀ i, decodeCommandA b = some i → encode 0 i = .command .cmdA b := by
  have h : ∀ b : Byte, (decodeCommandA b).all (fun i => decide (encode 0 i = .command .cmdA b)) = true := by decide
  intro b i hi
  have := h b
  rw [hi] at this
  simpa using this

theorem decodeCommandB_some : ∀ b : Byte, ∀ i, decodeCommandB b = some i → encode 0 i = .command .cmdB b := by
  have h : ∀ b : Byte, (decodeCommandB b).all (fun i => decide (encode 0 i = .command .cmdB b)) = true := by decide
  intro b i hi
  have := h b
  rw [hi] at this
  simpa using this

theorem decodeCoefficient_some : ∀ b : Byte, ∀ i, decodeCoefficient b = some i → encode 0 i = .command .cmdBExt b := by
  have h : ∀ b : Byte, (decodeCoefficient b).all (fun i => decide (encode 0 i = .command .cmdBExt b)) = true := by decide
  intro b i hi
  have := h b
  rw [hi] at this
  simpa using this

/-- The exit byte matters to the exit row alone. -/
theorem encode_exit (x y : Byte) (i : Instr) (h : i ≠ .cmdBXExit) : encode x i = encode y i := by
  cases i <;> first | rfl | exact absurd rfl h

/-- A request word that passes every check. -/
theorem decodeRequest_word {c : Config} {w : ReqWord} {p : Option (List Byte)} {i : Instr}
    (hd : decodeWord w (p.getD []) = some i) (he : existsOn i.home c.variant = true) (hp : payloadSuits i p = true) :
    decodeRequest c (.word w p) = .ok i := by simp [decodeRequest, hd, checkRequest, he, hp]

/-- A command byte that passes every check. -/
theorem decodeRequest_command {c : Config} {t : CommandTable} {b : Byte} {i : Instr}
    (hd : decodeCommand c.bExtExit t b = some i) (he : existsOn i.home c.variant = true) (hp : i.takesPayload = false) :
    decodeRequest c (.command t b) = .ok i := by simp [decodeRequest, hd, checkRequest, he, payloadSuits, hp]

end Sys2Proof
end

