-- ==== Sys2Proof/Laws/Effect.lean ====
section
/-! SUPPORT. Everything `exec` and `step` can do, said once: the inversion lemmas the whole-machine claims cite. -/

namespace Sys2Proof.Machine

/-- What an instruction that passed its checks leaves: its events applied, and how it ended. -/
structure Effect (i : Instr) (c : Config) (ts : List TraceEntry) (r : Option Raise) : Prop where
  events : ∀ t ∈ ts, eventsOf i c t.event
  ends : EndsAs false (ts, r)
  violates : r = some .preconditionViolation → ts = []

/-- The events and the end of an instruction's body depend on the parameters and the answers alone. -/
theorem bodyOf_effect (i : Instr) (c : Config) (as : List Answer) : ∃ ts r, Effect i c ts r ∧
    ∀ s : State, s.cfg = c → s.answers = as → bodyOf i s = (applyEntries s ts, r) := by
  obtain ⟨ts, r, h1, h2, h3⟩ := bodyOf_emits i c as
  refine ⟨ts, r, ⟨h2, h3, fun hr => ?_⟩, h1⟩
  subst hr
  have hs := h1 { State.ofConfig c with answers := as } rfl rfl
  have hv := bodyOf_violatesFirst i { State.ofConfig c with answers := as } (by rw [hs])
  rw [hv] at hs
  have : (State.ofConfig c).trace = (State.ofConfig c).trace ++ ts := by
    have h := congrArg (fun p => p.1.trace) hs
    simpa using h
  simpa [State.ofConfig, State.trace] using this

/-- Everything `exec` can do. -/
theorem exec_cases (i : Instr) (s : State) :
    (s.halted = true ∧ exec i s = .next (s.respond .refusedHalted 0)) ∨
    (s.halted = false ∧ existsOn i.home s.cfg.variant = false ∧ exec i s = .next (s.respond .wrongVariant 0)) ∨
    (s.halted = false ∧ suitsOf i = false ∧ exec i s = .next (s.respond .badPayload 0)) ∨
    (∃ ts r, Accepts i s ∧ suitsOf i = true ∧ Effect i s.cfg ts r ∧
      exec i s = .next (finish (valueOf i s.cfg) (applyEntries s ts, r))) := by
  by_cases hh : s.halted = true
  · exact .inl ⟨hh, by rw [exec_eq]; simp [answer, hh, refuse]⟩
  rw [Bool.not_eq_true] at hh
  by_cases he : existsOn i.home s.cfg.variant = true
  · by_cases hp : suitsOf i = true
    · obtain ⟨ts, r, h1, h2⟩ := bodyOf_effect i s.cfg s.answers
      exact .inr (.inr (.inr ⟨ts, r, ⟨hh, he⟩, hp, h1, by rw [exec_body ⟨hh, he⟩ hp, h2 s rfl rfl]⟩))
    · rw [Bool.not_eq_true] at hp
      exact .inr (.inr (.inl ⟨hh, hp, by rw [exec_eq]; simp [answer, hh, he, hp, refuse]⟩))
  · rw [Bool.not_eq_true] at he
    exact .inr (.inl ⟨hh, he, by rw [exec_eq]; simp [answer, hh, he, refuse]⟩)

/-- Everything a step can do with a request at the port. -/
theorem step_cases {s : State} {r : Request} {rest : List Request} (hr : s.requests = r :: rest) :
    (s.halted = true ∧ step s = .next ((s.withRequests rest).respond .refusedHalted 0)) ∨
    (∃ e, s.halted = false ∧ decodeRequest s.cfg r = .error e ∧
      step s = .next ((s.withRequests rest).respond (refusalOf e) 0)) ∨
    (∃ i, s.halted = false ∧ decodeRequest s.cfg r = .ok i ∧ step s = exec i (s.withRequests rest)) := by
  by_cases hh : s.halted = true
  · exact .inl ⟨hh, by simp [step, takeRequest, hr, vetRequest, hh, refuse]⟩
  rw [Bool.not_eq_true] at hh
  cases hd : decodeRequest s.cfg r with
  | error e => exact .inr (.inl ⟨e, hh, rfl, by simp [step, takeRequest, hr, vetRequest, hh, hd, refuse]⟩)
  | ok i => exact .inr (.inr ⟨i, hh, rfl, by simp [step, takeRequest, hr, vetRequest, hh, hd]⟩)

/-- One step of a run. -/
theorem core_run_succ {s t : State} (k : Nat) (h : step s = .next t) : core.run (k + 1) s = core.run k t := by
  have : core.step s = .next t := h
  simp [Host.Core.run, this]

section
variable (v : Value) (s : State) (o : Option Raise)

@[simp] theorem finish_cfg : (finish v (s, o)).cfg = s.cfg := by rcases o with _ | (_ | _ | _) <;> rfl
@[simp] theorem finish_trace : (finish v (s, o)).trace = s.trace := by rcases o with _ | (_ | _ | _) <;> rfl
@[simp] theorem finish_answers : (finish v (s, o)).answers = s.answers := by rcases o with _ | (_ | _ | _) <;> rfl
@[simp] theorem finish_requests : (finish v (s, o)).requests = s.requests := by rcases o with _ | (_ | _ | _) <;> rfl
@[simp] theorem finish_line (l : Line) : (finish v (s, o)).line l = s.line l := by
  rcases o with _ | (_ | _ | _) <;> cases l <;> rfl
theorem finish_halted : (finish v (s, o)).halted = (s.halted || o == some .preconditionViolation) := by
  rcases o with _ | (_ | _ | _) <;> simp [finish, takeRaise]

end

end Sys2Proof.Machine
end

