-- ==== Sys2Proof/Laws/Follows.lean ====
section
/-! SUPPORT. Where a piece stops when an answer fails: it follows one sequence of events, which the parameters alone fix, up to the
first failed one; after that there is one release of chip-select where the event was in a scope, else nothing (41_channel.md R110,
60_exceptions.md R251). -/

namespace Sys2Proof.Machine

/-- What follows the failed event `e` in a piece: nothing where the piece is `bare`, that is, has no chip-select scope of its own;
else what R110 says. -/
def TailAfter (bare : Bool) (e : Event) (tail : List TraceEntry) : Prop :=
  if bare = false ∧ releaseFollows e = true then ∃ a, tail = [⟨.set .cs true, a⟩] else tail = []

theorem TailAfter.one {e : Event} {tail : List TraceEntry} {bare : Bool} (h : TailAfter bare e tail) :
    tail = [] ∨ ∃ a, tail = [⟨.set .cs true, a⟩] := by
  unfold TailAfter at h; split at h
  · exact .inr h
  · exact .inl h

theorem TailAfter.of_bare {e : Event} {tail : List TraceEntry} (h : TailAfter true e tail) : tail = [] := by
  simpa [TailAfter] using h

/-- How a piece that would emit `es` stops when the answer to the fallible event number `n` is the first `fail`: the events before
it, the failed one, and what follows it. -/
def StopsAt (bare : Bool) (a : Act) (es : List Event) (s : State) (n : Nat) : Prop :=
  ∃ pre e fs tail, es = pre ++ e :: fs ∧ e.fallible = true ∧ answersTaken pre = n ∧
    TailAfter bare e tail ∧
    a s = (applyEntries s (okEntries pre ++ ⟨e, .fail⟩ :: tail), some .linkFailure)

/-- On parameters `c` the piece follows the events `es`: it emits them all and ends as `r` when their answers are `ok`, and stops at
the first one that fails. -/
structure FollowsOn (c : Config) (bare : Bool) (a : Act) (es : List Event) (r : Option Raise) : Prop where
  ends : r ≠ some .linkFailure
  runs : ∀ s : State, s.cfg = c → AnswersOk es s → a s = (performEvents s es, r)
  stops : ∀ (s : State) (n : Nat), s.cfg = c → FirstFailAt n s → n < answersTaken es → StopsAt bare a es s n

/-- A piece that follows some sequence, on any parameters. -/
def Follows (bare : Bool) (a : Act) : Prop := ∀ c, ∃ es r, FollowsOn c bare a es r

section
variable {c : Config} {bare : Bool} {a b : Act} {es fs : List Event} {r : Option Raise}

theorem FollowsOn.done : FollowsOn c bare done [] none where
  ends := by simp
  runs := fun _ _ _ => rfl
  stops := fun _ _ _ _ h => absurd h (by simp)

theorem FollowsOn.raise {x : Raise} (h : x ≠ .linkFailure) : FollowsOn c bare (raise x) [] (some x) where
  ends := by simpa using h
  runs := fun _ _ _ => rfl
  stops := fun _ _ _ _ h => absurd h (by simp)

/-- A single event, of a bare piece or one that is in no scope. -/
theorem FollowsOn.emit {e : Event} (ho : bare = true ∨ releaseFollows e = false) : FollowsOn c bare (emit e) [e] none where
  ends := by simp
  runs := fun _ _ h => emit_ok h
  stops := fun s n _ hf hn => by
    have he : e.fallible = true := by
      by_contra h
      rw [Bool.not_eq_true] at h
      simp [answersTaken, h] at hn
    have h0 : n = 0 := by simp [answersTaken, he] at hn; exact hn
    subst h0
    refine ⟨[], e, [], [], rfl, he, rfl, ?_, by rw [emit_fail he hf.next, failEvent_eq _ _ he]; rfl⟩
    rcases ho with rfl | ho <;> simp [TailAfter, *]

theorem FollowsOn.andThen (ha : FollowsOn c bare a es none) (hb : FollowsOn c bare b fs r) :
    FollowsOn c bare (andThen a b) (es ++ fs) r where
  ends := hb.ends
  runs := fun s hs h => by
    obtain ⟨h1, h2⟩ := h.split
    rw [andThen_of_none (ha.runs s hs h1), hb.runs _ (by simpa using hs) h2, performEvents_append]
  stops := fun s n hs hf hn => by
    by_cases hlt : n < answersTaken es
    · obtain ⟨pre, e, gs, tail, h1, h2, h3, h4, h5⟩ := ha.stops s n hs hf hlt
      exact ⟨pre, e, gs ++ fs, tail, by simp [h1], h2, h3, h4, andThen_of_some h5⟩
    · have hle : answersTaken es ≤ n := Nat.le_of_not_lt hlt
      rw [answersTaken_append] at hn
      obtain ⟨pre, e, gs, tail, h1, h2, h3, h4, h5⟩ :=
        hb.stops (performEvents s es) (n - answersTaken es) (by simpa using hs) (hf.after hle) (by omega)
      refine ⟨es ++ pre, e, gs, tail, by simp [h1], h2, by rw [answersTaken_append, h3]; omega, h4, ?_⟩
      rw [andThen_of_none (ha.runs s hs (hf.answersOk hle)), h5, performEvents_eq, ← applyEntries_append]
      simp [okEntries]

/-- A piece after one that raises is never reached. -/
theorem FollowsOn.andThen_raised {x : Raise} (ha : FollowsOn c bare a es (some x)) :
    FollowsOn c bare (Machine.andThen a b) es (some x) where
  ends := ha.ends
  runs := fun s hs h => andThen_of_some (ha.runs s hs h)
  stops := fun s n hs hf hn => by
    obtain ⟨pre, e, gs, tail, h1, h2, h3, h4, h5⟩ := ha.stops s n hs hf hn
    exact ⟨pre, e, gs, tail, h1, h2, h3, h4, andThen_of_some h5⟩

theorem FollowsOn.emitAll (es : List Event) (ho : bare = true ∨ ∀ e ∈ es, releaseFollows e = false) :
    FollowsOn c bare (emitAll es) es none := by
  induction es with
  | nil => exact FollowsOn.done
  | cons e es ih =>
    exact FollowsOn.andThen (es := [e]) (FollowsOn.emit (ho.imp id fun h => h e (by simp)))
      (ih (ho.imp id fun h e he => h e (by simp [he])))

/-- A chip-select scope around a piece with no scope of its own. -/
theorem FollowsOn.withCs (h : FollowsOn c true a es none) (hin : ∀ e ∈ es, e.fallible = true → releaseFollows e = true) :
    FollowsOn c false (withCs a) (.set .cs false :: es ++ [.set .cs true]) none := by
  have ho : FollowsOn c true (Machine.andThen (drive .cs csActive) a) (.set .cs false :: es) none :=
    FollowsOn.andThen (es := [.set .cs false]) (FollowsOn.emit (e := .set .cs false) (.inl rfl)) h
  have hc : FollowsOn c false (drive .cs (!csActive)) [.set .cs true] none :=
    FollowsOn.emit (e := .set .cs true) (.inr rfl)
  refine ⟨by simp, withCs_runs h.runs, fun s n hs hf hn => ?_⟩
  rw [answersTaken_append] at hn
  by_cases hlt : n < answersTaken (.set .cs false :: es)
  · obtain ⟨pre, e, gs, tail, h1, h2, h3, h4, h5⟩ := ho.stops s n hs hf hlt
    have h4' : tail = [] := h4.of_bare
    have hrel : releaseFollows e = true := by
      have he : e ∈ (.set .cs false :: es : List Event) := by rw [h1]; simp
      rcases List.mem_cons.1 he with rfl | he
      · rfl
      · exact hin e he h2
    subst h4'
    refine ⟨pre, e, gs ++ [.set .cs true], [⟨.set .cs true, (applyEntries s (okEntries pre ++ [⟨e, .fail⟩])).nextAnswer⟩],
      by simp [h1], h2, h3, by simp [TailAfter, hrel], ?_⟩
    unfold Machine.withCs
    have hk : ∀ x, applyEntries s (okEntries pre ++ [⟨e, .fail⟩, x]) =
        applyEntry (applyEntries s (okEntries pre ++ [⟨e, .fail⟩])) x := fun x => by simp [applyEntries]
    rw [h5, hk]
    rfl
  · have hle : answersTaken (.set .cs false :: es) ≤ n := Nat.le_of_not_lt hlt
    obtain ⟨pre, e, gs, tail, h1, h2, h3, h4, h5⟩ := hc.stops (performEvents s (.set .cs false :: es)) (n - answersTaken
      (.set .cs false :: es)) (by simpa using hs) (hf.after hle) (by omega)
    refine ⟨.set .cs false :: es ++ pre, e, gs, tail, by simp [h1], h2, by rw [answersTaken_append, h3]; omega, h4, ?_⟩
    unfold Machine.withCs
    rw [ho.runs s hs (hf.answersOk hle)]
    show drive .cs (!csActive) _ = _
    rw [h5, performEvents_eq, ← applyEntries_append]
    simp [okEntries]

theorem Follows.done : Follows bare done := fun _ => ⟨_, _, FollowsOn.done⟩

theorem Follows.require {p : Bool} : Follows bare (require p) := fun _ => by
  cases p
  · exact ⟨_, _, FollowsOn.raise (by simp)⟩
  · exact ⟨_, _, FollowsOn.done⟩

theorem Follows.andThen (ha : Follows bare a) (hb : Follows bare b) : Follows bare (andThen a b) := fun c => by
  obtain ⟨es, r, ha⟩ := ha c
  cases r with
  | none =>
    obtain ⟨fs, r, hb⟩ := hb c
    exact ⟨_, _, ha.andThen hb⟩
  | some x => exact ⟨_, _, ha.andThen_raised⟩

theorem Follows.inOrder {as : List Act} (h : ∀ a ∈ as, Follows bare a) : Follows bare (inOrder as) := by
  induction as with
  | nil => exact Follows.done
  | cons a as ih => exact (h a (by simp)).andThen (ih (fun b hb => h b (by simp [hb])))

theorem Follows.inOrder_map {α : Type} {f : α → Act} (xs : List α) (h : ∀ x, Follows bare (f x)) :
    Follows bare (Machine.inOrder (xs.map f)) :=
  Follows.inOrder (fun a ha => by obtain ⟨x, -, rfl⟩ := List.mem_map.1 ha; exact h x)

theorem Follows.withConfig {f : Config → Act} (h : ∀ c, Follows bare (f c)) : Follows bare (withConfig f) := fun c => by
  obtain ⟨es, r, h1, h2, h3⟩ := h c c
  refine ⟨es, r, h1, fun s hs hok => ?_, fun s n hs hf hn => ?_⟩
  · rw [withConfig_apply, hs]; exact h2 s hs hok
  · obtain ⟨pre, e, gs, tail, k1, k2, k3, k4, k5⟩ := h3 s n hs hf hn
    exact ⟨pre, e, gs, tail, k1, k2, k3, k4, by rw [withConfig_apply, hs]; exact k5⟩

end

/-! ## Every operation -/

theorem byteEvents_release (b : Byte) : ∀ e ∈ byteEvents b, releaseFollows e = true := by
  intro e he
  rcases byteEvents_shift Config.default b e he with ⟨v, rfl⟩ | ⟨v, rfl⟩ <;> rfl

/-- Every event within a window is in its scope. -/
theorem frameEvents_release (link : LinkStyle) (k : Bit) (bs : List Byte) :
    ∀ e ∈ frameEvents link k bs, releaseFollows e = true := by
  have hbit : ∀ v, ∀ e ∈ bitEvents v, releaseFollows e = true := by simp [bitEvents, releaseFollows]
  intro e he
  cases link <;> simp only [frameEvents, List.mem_cons, List.mem_flatMap, List.mem_append, List.not_mem_nil, or_false] at he
  · rcases he with rfl | ⟨b, -, h⟩
    · rfl
    · exact byteEvents_release b e h
  · rcases he with rfl | rfl <;> rfl
  · rcases he with ⟨b, -, h | h⟩
    · exact hbit k e h
    · exact byteEvents_release b e h

theorem window_follows (c : Config) (k : Bit) (bs : List Byte) :
    FollowsOn c false (withCs (sendFrames k bs)) (windowEvents c.link k bs) none := by
  refine FollowsOn.withCs (es := frameEvents c.link k bs) ⟨by simp, fun s hs h => ?_, fun s n hs hf hn => ?_⟩
    (fun e he _ => frameEvents_release c.link k bs e he)
  · rw [sendFrames_straight, hs]; exact emitAll_ok h
  · obtain ⟨pre, e, gs, tail, k1, k2, k3, k4, k5⟩ := (FollowsOn.emitAll (c := c) (bare := true) _ (.inl rfl)).stops
      s n hs hf hn
    exact ⟨pre, e, gs, tail, k1, k2, k3, k4, by rw [sendFrames_straight, hs]; exact k5⟩

theorem sendCommand_follows (b : Byte) : Follows false (sendCommand b) := fun c => ⟨_, _, window_follows c _ _⟩

theorem sendData_follows (bs : List Byte) : Follows false (sendData bs) := fun c => ⟨_, _, window_follows c _ _⟩

theorem sendCommands_follows (bs : List Byte) : Follows false (sendCommands bs) :=
  Follows.inOrder_map bs sendCommand_follows

theorem requireCoeffs_follows (v t b : Byte) : Follows false (requireCoeffs v t b) :=
  Follows.require.andThen (Follows.require.andThen (Follows.require.andThen Follows.done))

theorem setPosition_follows (x p : Byte) : Follows false (setPosition x p) := by
  refine Follows.withConfig (fun c => Follows.require.andThen (Follows.require.andThen (Follows.andThen ?_ Follows.done)))
  cases c.variant
  · exact (Follows.require.andThen (sendCommand_follows _)).andThen (Follows.require.andThen (sendCommands_follows _))
  · exact (Follows.require.andThen (sendCommand_follows _)).andThen (Follows.require.andThen (sendCommand_follows _))

theorem clear_follows : Follows false clear :=
  Follows.withConfig (fun _ => (setPosition_follows 0 0).andThen ((sendData_follows _).andThen
    ((setPosition_follows 0 0).andThen Follows.done)))

theorem printChar_follows (code : Byte) : Follows false (printChar code) := by
  refine Follows.withConfig (fun c => ?_)
  cases glyphOf c code with
  | none => exact fun _ => ⟨_, _, FollowsOn.raise (by simp)⟩
  | some g => exact (sendData_follows g).andThen (sendData_follows _)

theorem aPowerUp_follows : Follows false aPowerUp :=
  (sendCommand_follows _).andThen ((Follows.require.andThen (sendCommand_follows _)).andThen
    ((sendCommands_follows _).andThen ((sendCommand_follows _).andThen ((sendCommand_follows _).andThen
      (clear_follows.andThen Follows.done)))))

theorem bSetCoeffs_follows (v t b : Byte) : Follows false (bSetCoeffs v t b) :=
  (requireCoeffs_follows v t b).andThen (Follows.withConfig (fun _ => sendCommands_follows _))

theorem bPowerUp_follows (v t b : Byte) : Follows false (bPowerUp v t b) :=
  (requireCoeffs_follows v t b).andThen ((bSetCoeffs_follows v t b).andThen ((sendCommand_follows _).andThen
    (clear_follows.andThen Follows.done)))

theorem resetPulse_follows : Follows false resetPulse :=
  Follows.withConfig (fun d c => ⟨_, _, FollowsOn.emitAll (c := c) (pulseEvents d) (.inr (by simp [pulseEvents, releaseFollows]))⟩)

/-- `SHIFT_BYTE` has no chip-select scope (R101). -/
theorem shiftByte_follows (b : Byte) : Follows true (bodyOf (.shiftByte b)) := fun c => by
  refine ⟨byteEvents b, none, ?_⟩
  show FollowsOn c true (shiftByte b) _ _
  rw [shiftByte_straight]
  exact FollowsOn.emitAll _ (.inl rfl)

/-- Every other operation drives its lines in scopes, the reset line apart. -/
theorem bodyOf_follows (i : Instr) (h : ∀ b, i ≠ .shiftByte b) : Follows false (bodyOf i) := by
  cases i
  case shiftByte b => exact absurd rfl (h b)
  case sendData bs => exact sendData_follows bs
  case setPosition x p => exact setPosition_follows x p
  case clear => exact clear_follows
  case printChar x => exact printChar_follows x
  case print bs => exact Follows.inOrder_map bs printChar_follows
  case getPixelRes => exact Follows.done
  case getCharRes => exact Follows.done
  case aSetPage p => exact Follows.require.andThen (sendCommand_follows _)
  case aSetColumn x => exact Follows.require.andThen (sendCommands_follows _)
  case aSetContrast x => exact Follows.require.andThen (sendCommand_follows _)
  case aSetMode m => exact sendCommands_follows _
  case aPowerUp => exact aPowerUp_follows
  case aInit => exact resetPulse_follows.andThen aPowerUp_follows
  case bSetPage p => exact Follows.require.andThen (sendCommand_follows _)
  case bSetColumn x => exact Follows.require.andThen (sendCommand_follows _)
  case bSetCoeffs v t b => exact bSetCoeffs_follows v t b
  case bDrawBuffer buf =>
    exact (sendCommand_follows _).andThen ((setPosition_follows 0 0).andThen ((sendData_follows buf).andThen
      ((sendCommand_follows _).andThen ((setPosition_follows 0 0).andThen Follows.done))))
  case bPowerUp v t b => exact bPowerUp_follows v t b
  case bInit v t b =>
    exact (requireCoeffs_follows v t b).andThen (resetPulse_follows.andThen ((bPowerUp_follows v t b).andThen Follows.done))
  case cmdBXExit => exact Follows.withConfig (fun _ => sendCommand_follows _)
  all_goals exact sendCommand_follows _

/-- Every instruction follows a sequence of events, and stops as R101 and R110 say. -/
theorem bodyOf_stops (i : Instr) (c : Config) : ∃ es r bare, FollowsOn c bare (bodyOf i) es r ∧
    ∀ e tail, TailAfter bare e tail → ReleasedAfter i e tail := by
  by_cases h : ∃ b, i = .shiftByte b
  · obtain ⟨b, rfl⟩ := h
    obtain ⟨es, r, hf⟩ := shiftByte_follows b c
    exact ⟨es, r, true, hf, fun e tail ht => ⟨fun _ => ht.of_bare, fun h => absurd rfl (h b)⟩⟩
  · have hn : ∀ b, i ≠ .shiftByte b := fun b hb => h ⟨b, hb⟩
    obtain ⟨es, r, hf⟩ := bodyOf_follows i hn c
    refine ⟨es, r, false, hf, fun e tail ht => ⟨fun hc => ?_, fun _ hr => by simpa [TailAfter, hr] using ht⟩⟩
    rcases hc with hc | hc
    · exact absurd hc h
    · simpa [TailAfter, hc] using ht

end Sys2Proof.Machine
end

