-- ==== Sys2Proof/Laws/Failure.lean ====
section
/-! SUPPORT. A sequence of windows that stops at a failed event: which events came before it, what the receiver's view of the
controller is after it, and when the receiver is in step again (70_reset_and_hazards.md R290 to R294). -/

namespace Sys2Proof.Machine

/-! ## Which events -/

/-- A body that runs as a list of events follows that list, also where an answer fails. -/
theorem FollowsOn.of_runs {c : Config} {i : Instr} {es : List Event} (hi : ∀ b, i ≠ .shiftByte b) (h : Runs c (bodyOf i) es) :
    FollowsOn c false (bodyOf i) es none := by
  obtain ⟨fs, r, hf⟩ := bodyOf_follows i hi c
  have h1 := h { State.ofConfig c with answers := [] } rfl (by intro a ha; simp at ha)
  have h2 := hf.runs { State.ofConfig c with answers := [] } rfl (by intro a ha; simp at ha)
  rw [h1] at h2
  have hr : none = r := congrArg (fun p => p.2) h2
  have hes : es = fs := by
    have h3 := congrArg (fun p => p.1.trace) h2
    simp only [performEvents_trace] at h3
    rw [← okEntries_events es, List.append_cancel_left h3, okEntries_events]
  subst hr hes
  exact hf

theorem answersTaken_of_fallible {es : List Event} (h : ∀ e ∈ es, e.fallible = true) : answersTaken es = es.length := by
  simpa [answersTaken, List.countP_eq_length] using h

theorem byteEvents_fallible (b : Byte) : ∀ e ∈ byteEvents b, e.fallible = true := by
  intro e he
  rcases byteEvents_shift Config.default b e he with ⟨v, rfl⟩ | ⟨v, rfl⟩ <;> rfl

theorem windowEvents_fallible (link : LinkStyle) (k : Bit) (bs : List Byte) :
    ∀ e ∈ windowEvents link k bs, e.fallible = true := by
  intro e he
  have hbit : ∀ b, ∀ e ∈ bitEvents b, e.fallible = true := by simp [bitEvents, Event.fallible]
  simp only [windowEvents, List.cons_append, List.mem_cons, List.mem_append, List.not_mem_nil, or_false] at he
  rcases he with rfl | he | rfl
  · rfl
  · cases link <;> simp only [frameEvents, List.mem_cons, List.mem_flatMap, List.mem_append, List.not_mem_nil, or_false] at he
    · rcases he with rfl | ⟨b, -, h⟩
      · rfl
      · exact byteEvents_fallible b _ h
    · rcases he with rfl | rfl <;> rfl
    · obtain ⟨b, -, h | h⟩ := he
      · exact hbit _ _ h
      · exact byteEvents_fallible b _ h
  · rfl

/-- A command's window has as many events whatever its byte. -/
theorem commandEvents_length (link : LinkStyle) (b c : Byte) :
    (commandEvents link b).length = (commandEvents link c).length := by cases link <;> rfl

/-! ## Which frames -/

theorem scan_prefix (style : DcStyle) (s : Scan) {es fs : List Event} (h : es <+: fs) :
    (scan style s es).2 <+: (scan style s fs).2 := by
  obtain ⟨gs, rfl⟩ := h
  rw [scan_append]
  exact ⟨_, rfl⟩

/-- A command's window without its release has already shown the frame. -/
theorem scan_command_delivered (link : LinkStyle) (b : Byte) (s : Scan) (hs : s.clk = false) :
    (scan link.dcStyle s ((commandEvents link b).take ((commandEvents link b).length - 1))).2 = [commandFrame b] := by
  have h := (Shows.command link b).frames s hs
  have hsplit : commandEvents link b = (commandEvents link b).take ((commandEvents link b).length - 1) ++ [.set .cs true] := by
    cases link <;> rfl
  rw [hsplit, scan_append] at h
  simpa [scan, scanEvent] using h

/-- One event earlier nothing has been shown: the last event but the release delivers the frame. -/
theorem scan_command_short (link : LinkStyle) (b : Byte) (s : Scan) :
    (scan link.dcStyle s ((commandEvents link b).take ((commandEvents link b).length - 2))).2 = [] := by
  rcases s with ⟨cs, clk, dc, data, buf⟩
  cases link <;> simp [commandEvents, windowEvents, frameEvents, byteEvents, bitEvents, scan, scanEvent, sample, collect,
    LinkStyle.dcStyle]

/-! ## The controller after a failed event -/

/-- After a failed event and at most one release, the controller has heard the frames before the event and may have heard those of
the event; no INIT is under way; and the last one ended `OK` only if it had before. -/
theorem stop_controller (c : Config) (r : Receiver) (hr : r.Ready) (pre : List Event) (hl : r.Longer pre.length) (e : Event)
    (tail : List TraceEntry) (hn : ∀ x ∈ pre, x ≠ .set .rst (rstAct c)) (he : ∀ v, e ≠ .set .rst v)
    (ht : tail = [] ∨ ∃ a, tail = [⟨.set .cs true, a⟩]) :
    ((okEntries pre ++ ⟨e, .fail⟩ :: tail).foldl (Receiver.entry c) r).controller =
        ((scan c.link.dcStyle r.scan pre).2.foldl (Controller.hear c) r.controller).mayHear c
          (scanEvent c.link.dcStyle (scan c.link.dcStyle r.scan pre).1 e).2 ∧
      ((okEntries pre ++ ⟨e, .fail⟩ :: tail).foldl (Receiver.entry c) r).Settled ∧
      (((okEntries pre ++ ⟨e, .fail⟩ :: tail).foldl (Receiver.entry c) r).phase = .done ↔ r.phase = .done) := by
  have hin := inStep_of_sure hr.1
  have hok := receiver_ok c pre hn r.scan r.controller r.phase (hin ▸ hl)
  rw [← hin] at hok
  have hs := stopped_settled c ((okEntries pre).foldl (Receiver.entry c) r) e
  have hp : (((okEntries pre).foldl (Receiver.entry c) r).entry c ⟨e, .fail⟩).phase = .done ↔ r.phase = .done := by
    show InitPhase.stopped _ e = .done ↔ _
    rw [stopped_done he, hok, inStep_phase]
    cases r.phase <;> simp [InitPhase.after]
  have hc : (((okEntries pre).foldl (Receiver.entry c) r).entry c ⟨e, .fail⟩).controller =
      ((scan c.link.dcStyle r.scan pre).2.foldl (Controller.hear c) r.controller).mayHear c
        (scanEvent c.link.dcStyle (scan c.link.dcStyle r.scan pre).1 e).2 := by
    rw [hok]; exact failed_inStep c _ _ _ he
  rw [List.foldl_append, List.foldl_cons]
  rcases ht with rfl | ⟨a, rfl⟩
  · exact ⟨hc, hs, hp⟩
  · obtain ⟨k1, k2⟩ := release_keeps c hs a
    rw [List.foldl_cons, List.foldl_nil, k1, k2]
    exact ⟨hc, fun l t h => hs l t (k2 ▸ h), hp⟩

/-! ## In step again -/

/-- The level the events leave the clock at. -/
def clkAfter (x : Bit) (es : List Event) : Bit :=
  es.foldl (fun y e => match e with
    | .set .clk v => v
    | _ => y) x

@[simp] theorem clkAfter_append (x : Bit) (es fs : List Event) : clkAfter x (es ++ fs) = clkAfter (clkAfter x es) fs := by
  simp [clkAfter]

theorem scan_clk (style : DcStyle) (s : Scan) (es : List Event) : (scan style s es).1.clk = clkAfter s.clk es := by
  induction es generalizing s with
  | nil => rfl
  | cons e es ih =>
    simp only [scan, ih, clkAfter, List.foldl_cons]
    congr 1
    cases e with
    | set l v =>
      cases l <;> simp only [scanEvent]
      split
      · unfold collect sample; cases style <;> simp only <;> split <;> split <;> simp_all
      · rfl
    | delay n => rfl
    | hwWrite bs => rfl

/-- Events that start and end with the clock low, and whose every event but the clock's comes with the clock low. -/
structure ClockTidy (es : List Event) : Prop where
  low : clkAfter false es = false
  at_event : ∀ pre e gs, es = pre ++ e :: gs → (∀ v, e ≠ .set .clk v) → clkAfter false pre = false

theorem ClockTidy.nil : ClockTidy [] := ⟨rfl, fun pre e gs h => by simp at h⟩

theorem ClockTidy.append {es fs : List Event} (h : ClockTidy es) (h' : ClockTidy fs) : ClockTidy (es ++ fs) where
  low := by rw [clkAfter_append, h.low, h'.low]
  at_event := by
    intro pre e gs he hv
    rcases List.append_eq_append_iff.1 he with ⟨as, rfl, h2⟩ | ⟨as, h1, h2⟩
    · rw [clkAfter_append, h.low]; exact h'.at_event as e gs h2 hv
    · rcases as with _ | ⟨a, as⟩
      · rw [List.append_nil] at h1; rw [← h1]; exact h.low
      · rw [List.cons_append, List.cons.injEq] at h2
        obtain ⟨rfl, -⟩ := h2
        exact h.at_event pre e as h1 hv

theorem ClockTidy.single {e : Event} (h : ∀ v, e ≠ .set .clk v) : ClockTidy [e] := by
  refine ⟨?_, fun pre e' gs he _ => ?_⟩
  · cases e with
    | set l v => cases l <;> first | rfl | exact absurd rfl (h v)
    | delay n => rfl
    | hwWrite bs => rfl
  · rcases pre with _ | ⟨a, as⟩
    · rfl
    · simp at he

theorem ClockTidy.bit (v : Bit) : ClockTidy (bitEvents v) := by
  refine ⟨rfl, fun pre e gs he hv => ?_⟩
  rcases pre with _ | ⟨a, _ | ⟨b, _ | ⟨d, as⟩⟩⟩ <;> simp [bitEvents] at he
  · rfl
  · exact absurd he.2.1.symm (hv _)
  · exact absurd he.2.2.1.symm (hv _)

theorem ClockTidy.byte (b : Byte) : ClockTidy (byteEvents b) := by
  unfold byteEvents
  repeat' first | exact ClockTidy.bit _ | refine ClockTidy.append ?_ ?_

theorem ClockTidy.flatMap {f : Byte → List Event} (h : ∀ b, ClockTidy (f b)) (bs : List Byte) : ClockTidy (bs.flatMap f) := by
  induction bs with
  | nil => exact ClockTidy.nil
  | cons b bs ih => rw [List.flatMap_cons]; exact (h b).append ih

theorem ClockTidy.window (link : LinkStyle) (k : Bit) (bs : List Byte) : ClockTidy (windowEvents link k bs) := by
  have hs : ∀ l v, l ≠ .clk → ClockTidy [.set l v] := fun l v h => ClockTidy.single (by simp [h])
  have hf : ClockTidy (frameEvents link k bs) := by
    cases link
    · exact (hs .dc k (by simp)).append (ClockTidy.flatMap ClockTidy.byte bs)
    · exact (hs .dc k (by simp)).append (ClockTidy.single (by simp))
    · exact ClockTidy.flatMap (fun b => (ClockTidy.bit k).append (ClockTidy.byte b)) bs
  exact ((hs .cs false (by simp)).append hf).append (hs .cs true (by simp))

/-- Events whose every event but chip-select's comes with chip-select driven low. -/
def InWindows (es : List Event) : Prop :=
  ∀ pre e gs, es = pre ++ e :: gs → (∀ v, e ≠ .set .cs v) → ∀ x, lineFrom .cs x (okEntries pre) = .level false

theorem InWindows.append {es fs : List Event} (h : InWindows es) (h' : InWindows fs) : InWindows (es ++ fs) := by
  intro pre e gs he hv x
  rcases List.append_eq_append_iff.1 he with ⟨as, rfl, h2⟩ | ⟨as, h1, h2⟩
  · rw [show okEntries (es ++ as) = okEntries es ++ okEntries as by simp [okEntries], lineFrom_append]
    exact h' as e gs h2 hv _
  · rcases as with _ | ⟨a, as⟩
    · have := h' [] e gs (by simpa using h2.symm) hv (.level true)
      simp [lineFrom, okEntries] at this
    · rw [List.cons_append, List.cons.injEq] at h2
      obtain ⟨rfl, -⟩ := h2
      exact h pre e as h1 hv x

theorem lineFrom_cs_of_none {es : List Event} (h : ∀ e ∈ es, ∀ v, e ≠ .set .cs v) (x : LineLevel) :
    lineFrom .cs x (okEntries es) = x := by
  induction es generalizing x with
  | nil => rfl
  | cons e es ih =>
    have he := h e (by simp)
    have ih' := ih (fun e he => h e (by simp [he]))
    cases e with
    | set l v => cases l <;> first | exact ih' x | exact absurd rfl (he v)
    | delay n => exact ih' x
    | hwWrite bs => exact ih' x

theorem frameEvents_no_cs (link : LinkStyle) (k : Bit) (bs : List Byte) : ∀ e ∈ frameEvents link k bs, ∀ v, e ≠ .set .cs v := by
  have hbit : ∀ v, ∀ e ∈ bitEvents v, ∀ w, e ≠ .set .cs w := by simp [bitEvents]
  have hbyte : ∀ b, ∀ e ∈ byteEvents b, ∀ w, e ≠ .set .cs w := by
    intro b e he
    rcases byteEvents_shift Config.default b e he with ⟨v, rfl⟩ | ⟨v, rfl⟩ <;> simp
  intro e he
  cases link <;> simp only [frameEvents, List.mem_cons, List.mem_flatMap, List.mem_append, List.not_mem_nil, or_false] at he
  · rcases he with rfl | ⟨b, -, h⟩
    · simp
    · exact hbyte b e h
  · rcases he with rfl | rfl <;> simp
  · rcases he with ⟨b, -, h | h⟩
    · exact hbit k e h
    · exact hbyte b e h

theorem InWindows.window (link : LinkStyle) (k : Bit) (bs : List Byte) : InWindows (windowEvents link k bs) := by
  intro pre e gs he hv x
  have hno := frameEvents_no_cs link k bs
  rcases pre with _ | ⟨a, pre⟩
  · simp only [windowEvents, List.cons_append, List.nil_append, List.cons.injEq] at he
    exact absurd he.1.symm (hv _)
  · simp only [windowEvents, List.cons_append, List.cons.injEq] at he
    obtain ⟨rfl, he⟩ := he
    show lineFrom .cs (.level false) (okEntries pre) = _
    refine lineFrom_cs_of_none (fun y hy => ?_) _
    rcases List.append_eq_append_iff.1 he with ⟨as, h1, h2⟩ | ⟨as, h1, -⟩
    · rcases as with _ | ⟨a, as⟩
      · rw [List.append_nil] at h1; subst h1; exact hno y hy
      · simp at h2
    · exact hno y (by rw [h1]; simp [hy])

theorem InWindows.commands (link : LinkStyle) (bs : List Byte) : InWindows (commandsEvents link bs) := by
  induction bs with
  | nil => intro pre e gs h; simp at h
  | cons b bs ih => rw [commandsEvents_cons]; exact (InWindows.window link false [b]).append ih

theorem ClockTidy.commands (link : LinkStyle) (bs : List Byte) : ClockTidy (commandsEvents link bs) :=
  ClockTidy.flatMap (fun b => ClockTidy.window link false [b]) bs

/-- After a failure among windows, a receiver that was ready is ready again if the clock is not left unspecified (R290) and
chip-select was released (R292). -/
theorem stop_ready (c : Config) (r : Receiver) (hr : r.Ready) {es : List Event} (hw : InWindows es) (hk : ClockTidy es)
    (pre gs : List Event) (hlo : r.Longer pre.length) (e : Event) (tail : List TraceEntry) (hes : es = pre ++ e :: gs)
    (hn : ∀ x ∈ es, ∀ v, x ≠ .set .rst v) (ht : tail = [] ∨ ∃ a, tail = [⟨.set .cs true, a⟩]) (y z : LineLevel)
    (hcs : lineFrom .cs y (okEntries pre ++ ⟨e, .fail⟩ :: tail) = .level true)
    (hclk : lineFrom .clk z (okEntries pre ++ ⟨e, .fail⟩ :: tail) ≠ .unspecified) :
    ((okEntries pre ++ ⟨e, .fail⟩ :: tail).foldl (Receiver.entry c) r).Ready := by
  have hl : ∀ l x, lineFrom l x (okEntries pre ++ ⟨e, .fail⟩ :: tail) =
      lineFrom l (lineFrom l (lineFrom l x (okEntries pre)) [⟨e, .fail⟩]) tail := by
    intro l x
    rw [lineFrom_append, show (⟨e, .fail⟩ : TraceEntry) :: tail = [⟨e, .fail⟩] ++ tail from rfl, lineFrom_append]
  rw [hl] at hcs hclk
  have heclk : ∀ v, e ≠ .set .clk v := by
    rintro v rfl
    apply hclk
    rcases ht with rfl | ⟨a, rfl⟩ <;> simp [lineFrom, levelAfter]
  rcases ht with rfl | ⟨a, rfl⟩
  · exfalso
    by_cases hecs : ∀ v, e ≠ .set .cs v
    · rw [hw pre e gs hes hecs y] at hcs
      cases e with
      | set l v => cases l <;> simp [lineFrom] at hcs; exact hecs _ rfl
      | delay n => simp [lineFrom] at hcs
      | hwWrite bs => simp [lineFrom] at hcs
    · simp only [not_forall, not_not] at hecs
      obtain ⟨v, rfl⟩ := hecs
      simp [lineFrom, levelAfter] at hcs
  · cases a with
    | fail => simp [lineFrom, levelAfter] at hcs
    | ok =>
      have hin := inStep_of_sure hr.1
      have hok := receiver_ok c pre (fun x hx => hn x (by rw [hes]; simp [hx]) _) r.scan r.controller r.phase (hin ▸ hlo)
      rw [← hin] at hok
      rw [List.foldl_append, List.foldl_cons, List.foldl_cons, List.foldl_nil]
      have hc : (scan c.link.dcStyle r.scan pre).1.clk = false := by
        rw [scan_clk, hr.2.2]; exact hk.at_event pre e gs hes heclk
      refine ok_release c (stopped_settled c _ e) ?_ ?_ <;> rw [hok] <;> cases e with
        | set l v => cases l <;> first | rfl | exact hc | exact absurd rfl (heclk v)
        | delay n => first | rfl | exact hc
        | hwWrite bs => first | rfl | exact hc

/-! ## No INIT is left under way -/

/-- Either every answer to the events is `ok`, or one of them is the first `fail`. -/
theorem answersOk_or_firstFail (es : List Event) (s : State) : AnswersOk es s ∨ ∃ n, n < answersTaken es ∧ FirstFailAt n s := by
  suffices h : ∀ (as : List Answer) (m : Nat), (∀ a ∈ as.take m, a = .ok) ∨
      ∃ n, n < m ∧ ∃ rest, as = List.replicate n .ok ++ .fail :: rest from h s.answers _
  intro as
  induction as with
  | nil => exact fun m => .inl (by simp)
  | cons a as ih =>
    intro m
    cases m with
    | zero => exact .inl (by simp)
    | succ m =>
      cases a with
      | fail => exact .inr ⟨0, Nat.succ_pos m, as, rfl⟩
      | ok =>
        rcases ih m with h | ⟨n, hn, rest, h⟩
        · exact .inl (by simpa using h)
        · exact .inr ⟨n + 1, by omega, rest, by simp [h, List.replicate_succ]⟩

/-- Whatever came before a failed event, no INIT is under way after it. -/
theorem stop_settled (c : Config) (r : Receiver) (pre : List Event) (e : Event) (tail : List TraceEntry)
    (ht : tail = [] ∨ ∃ a, tail = [⟨.set .cs true, a⟩]) :
    ((okEntries pre ++ ⟨e, .fail⟩ :: tail).foldl (Receiver.entry c) r).Settled := by
  have hs := stopped_settled c ((okEntries pre).foldl (Receiver.entry c) r) e
  rw [List.foldl_append, List.foldl_cons]
  rcases ht with rfl | ⟨a, rfl⟩
  · exact hs
  · intro l t h
    rw [List.foldl_cons, List.foldl_nil, (release_keeps c hs a).2] at h
    exact hs l t h

/-- `A_INIT` and `B_INIT` leave no INIT under way: they end `OK` after their last event, or a failed event ends them (R223). -/
theorem init_settled (c : Config) (r : Receiver) {i : Instr} (hi : ∀ b, i ≠ .shiftByte b) {es : List Event}
    (hrun : Runs c (bodyOf i) (pulseEvents c ++ es)) (hn : ∀ e ∈ es, ∀ v, e ≠ .set .rst v) (hl : 3 + es.length = initLeft c)
    (s : State) (hc : s.cfg = c) : ∃ ts, (bodyOf i s).1.trace = s.trace ++ ts ∧ (ts.foldl (Receiver.entry c) r).Settled := by
  rcases answersOk_or_firstFail (pulseEvents c ++ es) s with h | ⟨n, h, hf⟩
  · refine ⟨okEntries (pulseEvents c ++ es), by rw [hrun s hc h]; simp, ?_⟩
    obtain ⟨z, -, hz⟩ := receiver_init c r es hn hl
    rw [hz]
    intro l t h
    simp at h
  · obtain ⟨pre, e, gs, tail, -, -, -, h4, h5⟩ := (FollowsOn.of_runs hi hrun).stops s n hc hf h
    exact ⟨okEntries pre ++ ⟨e, .fail⟩ :: tail, by rw [h5]; simp, stop_settled c r pre e tail h4.one⟩

end Sys2Proof.Machine
end

