-- ==== Sys2Proof/Laws/Idle.lean ====
section
/-! SUPPORT. Pieces that end normally leave the clock low and chip-select released, if they were (70_reset_and_hazards.md R290). -/

namespace Sys2Proof.Machine

/-- A piece that, when it ends normally, leaves a line at the level `v` it had. -/
def Keeps (l : Line) (v : Bit) (a : Act) : Prop := ∀ s, s.line l = .level v → (a s).2 = none → (a s).1.line l = .level v

section
variable {l : Line} {v : Bit} {a b : Act}

theorem Keeps.done : Keeps l v done := fun _ h _ => h

theorem Keeps.raise {r : Raise} : Keeps l v (raise r) := fun _ h _ => h

theorem Keeps.require {p : Bool} : Keeps l v (require p) := by cases p <;> exact fun _ h _ => h

theorem Keeps.andThen (ha : Keeps l v a) (hb : Keeps l v b) : Keeps l v (andThen a b) := by
  intro s hs hn
  rcases hx : a s with ⟨s', _ | r⟩
  · rw [andThen_of_none hx] at hn ⊢
    have := ha s hs (by rw [hx])
    rw [hx] at this
    exact hb s' this hn
  · rw [andThen_of_some hx] at hn; cases hn

theorem Keeps.inOrder {as : List Act} (h : ∀ a ∈ as, Keeps l v a) : Keeps l v (inOrder as) := by
  induction as with
  | nil => exact Keeps.done
  | cons a as ih => exact (h a (by simp)).andThen (ih (fun b hb => h b (by simp [hb])))

theorem Keeps.inOrder_map {α : Type} {f : α → Act} (xs : List α) (h : ∀ x, Keeps l v (f x)) :
    Keeps l v (Machine.inOrder (xs.map f)) :=
  Keeps.inOrder (fun a ha => by obtain ⟨x, -, rfl⟩ := List.mem_map.1 ha; exact h x)

theorem Keeps.withConfig {f : Config → Act} (h : ∀ c, Keeps l v (f c)) : Keeps l v (withConfig f) := fun s => h s.cfg s

theorem Keeps.drive_other {l' : Line} {w : Bit} (h : l ≠ l') : Keeps l v (drive l' w) := by
  intro s hs _
  show (emitSet l' w s).line l = _
  unfold emitSet
  rw [State.setLine_line_other _ _ _ _ h]
  simpa using hs

/-- A piece that ends by driving the line to `v` leaves it there, whatever came before. -/
theorem Keeps.andThen_drive : Keeps l v (Machine.andThen a (drive l v)) := by
  intro s _ hn
  rcases hx : a s with ⟨s', _ | r⟩
  · rw [andThen_of_none hx] at hn ⊢
    have hok : s'.nextAnswer = .ok := by
      rcases hy : s'.nextAnswer with _ | _
      · rfl
      · rw [drive_eq, hy] at hn; simp [raiseOnFail] at hn
    show (emitSet l v s').line l = _
    simp [emitSet, hok, levelAfter]
  · rw [andThen_of_some hx] at hn; cases hn

theorem Keeps.delay {n : Nat} : Keeps l v (delayMs n) := fun s hs _ => by simpa [delayMs] using hs

theorem Keeps.hwWrite {bs : List Byte} : Keeps l v (hwWrite bs) := fun s hs _ => by simpa [Machine.hwWrite] using hs

end

/-- Clock low and chip-select released. -/
def KeepsIdle (a : Act) : Prop := Keeps .clk false a ∧ Keeps .cs true a

section
variable {a b : Act}

theorem KeepsIdle.andThen (ha : KeepsIdle a) (hb : KeepsIdle b) : KeepsIdle (andThen a b) := ⟨ha.1.andThen hb.1, ha.2.andThen hb.2⟩

theorem KeepsIdle.done : KeepsIdle done := ⟨Keeps.done, Keeps.done⟩

theorem KeepsIdle.require {p : Bool} : KeepsIdle (require p) := ⟨Keeps.require, Keeps.require⟩

theorem KeepsIdle.withConfig {f : Config → Act} (h : ∀ c, KeepsIdle (f c)) : KeepsIdle (withConfig f) :=
  ⟨Keeps.withConfig (fun c => (h c).1), Keeps.withConfig (fun c => (h c).2)⟩

theorem KeepsIdle.inOrder_map {α : Type} {f : α → Act} (xs : List α) (h : ∀ x, KeepsIdle (f x)) : KeepsIdle (inOrder (xs.map f)) :=
  ⟨Keeps.inOrder_map xs (fun x => (h x).1), Keeps.inOrder_map xs (fun x => (h x).2)⟩

end

theorem shiftBit_keeps_clk (w : Bit) : Keeps .clk false (shiftBit w) := by
  have h : shiftBit w = andThen (andThen (drive .data w) (drive .clk true)) (drive .clk false) := by
    simp [shiftBit, andThen_assoc]
  rw [h]; exact Keeps.andThen_drive

theorem shiftBit_keeps_cs (w : Bit) : Keeps .cs true (shiftBit w) :=
  (Keeps.drive_other (by simp)).andThen ((Keeps.drive_other (by simp)).andThen ((Keeps.drive_other (by simp)).andThen Keeps.done))

theorem shiftByte_keeps (b : Byte) : KeepsIdle (shiftByte b) :=
  ⟨Keeps.inOrder_map _ (fun _ => shiftBit_keeps_clk _), Keeps.inOrder_map _ (fun _ => shiftBit_keeps_cs _)⟩

theorem sendFrames_keeps_clk (k : Bit) (bs : List Byte) : Keeps .clk false (sendFrames k bs) := by
  refine Keeps.withConfig (fun c => ?_)
  cases c.link
  · exact (Keeps.drive_other (by simp)).andThen (Keeps.inOrder_map bs (fun b => (shiftByte_keeps b).1))
  · exact (Keeps.drive_other (by simp)).andThen Keeps.hwWrite
  · exact Keeps.inOrder_map bs (fun b => (shiftBit_keeps_clk k).andThen (shiftByte_keeps b).1)

/-- A scope that ends normally is its body between the two `Set(CS, _)` events. -/
theorem withCs_of_none {body : Act} {s : State} (h : (withCs body s).2 = none) :
    withCs body s = andThen (andThen (drive .cs csActive) body) (drive .cs (!csActive)) s := by
  unfold withCs at h ⊢
  rcases hx : andThen (drive .cs csActive) body s with ⟨s', _ | (_ | _ | _)⟩
  · rw [andThen_of_none hx]; rfl
  all_goals (rw [hx] at h; simp [closeCs] at h)

theorem window_keeps (k : Bit) (bs : List Byte) : KeepsIdle (withCs (sendFrames k bs)) := by
  constructor
  · intro s hs hn
    have h : Keeps .clk false (andThen (andThen (drive .cs csActive) (sendFrames k bs)) (drive .cs (!csActive))) :=
      ((Keeps.drive_other (by simp)).andThen (sendFrames_keeps_clk k bs)).andThen (Keeps.drive_other (by simp))
    have he := withCs_of_none hn
    rw [he] at hn ⊢
    exact h s hs hn
  · intro s hs hn
    have h : Keeps .cs true (andThen (andThen (drive .cs csActive) (sendFrames k bs)) (drive .cs (!csActive))) :=
      Keeps.andThen_drive
    have he := withCs_of_none hn
    rw [he] at hn ⊢
    exact h s hs hn

theorem sendCommand_keeps (b : Byte) : KeepsIdle (sendCommand b) := window_keeps _ _

theorem sendData_keeps (bs : List Byte) : KeepsIdle (sendData bs) := window_keeps _ _

theorem sendCommands_keeps (bs : List Byte) : KeepsIdle (sendCommands bs) := KeepsIdle.inOrder_map bs sendCommand_keeps

theorem requireCoeffs_keeps (v t b : Byte) : KeepsIdle (requireCoeffs v t b) :=
  KeepsIdle.require.andThen (KeepsIdle.require.andThen (KeepsIdle.require.andThen KeepsIdle.done))

theorem setPosition_keeps (x p : Byte) : KeepsIdle (setPosition x p) := by
  refine KeepsIdle.withConfig (fun c => KeepsIdle.require.andThen (KeepsIdle.require.andThen (KeepsIdle.andThen ?_ KeepsIdle.done)))
  cases c.variant
  · exact (KeepsIdle.require.andThen (sendCommand_keeps _)).andThen (KeepsIdle.require.andThen (sendCommands_keeps _))
  · exact (KeepsIdle.require.andThen (sendCommand_keeps _)).andThen (KeepsIdle.require.andThen (sendCommand_keeps _))

theorem clear_keeps : KeepsIdle clear :=
  KeepsIdle.withConfig (fun _ => (setPosition_keeps 0 0).andThen ((sendData_keeps _).andThen
    ((setPosition_keeps 0 0).andThen KeepsIdle.done)))

theorem printChar_keeps (code : Byte) : KeepsIdle (printChar code) := by
  refine KeepsIdle.withConfig (fun c => ?_)
  cases glyphOf c code with
  | none => exact ⟨Keeps.raise, Keeps.raise⟩
  | some g => exact (sendData_keeps g).andThen (sendData_keeps _)

theorem aPowerUp_keeps : KeepsIdle aPowerUp :=
  (sendCommand_keeps _).andThen ((KeepsIdle.require.andThen (sendCommand_keeps _)).andThen
    ((sendCommands_keeps _).andThen ((sendCommand_keeps _).andThen ((sendCommand_keeps _).andThen
      (clear_keeps.andThen KeepsIdle.done)))))

theorem bSetCoeffs_keeps (v t b : Byte) : KeepsIdle (bSetCoeffs v t b) :=
  (requireCoeffs_keeps v t b).andThen (KeepsIdle.withConfig (fun _ => sendCommands_keeps _))

theorem bPowerUp_keeps (v t b : Byte) : KeepsIdle (bPowerUp v t b) :=
  (requireCoeffs_keeps v t b).andThen ((bSetCoeffs_keeps v t b).andThen ((sendCommand_keeps _).andThen
    (clear_keeps.andThen KeepsIdle.done)))

theorem resetPulse_keeps : KeepsIdle resetPulse := by
  have h : ∀ l v, l ≠ Line.rst → Keeps l v resetPulse := fun l v hl =>
    Keeps.withConfig (fun _ => (Keeps.drive_other hl).andThen (Keeps.delay.andThen ((Keeps.drive_other hl).andThen
      (Keeps.delay.andThen ((Keeps.drive_other hl).andThen (Keeps.delay.andThen Keeps.done))))))
  exact ⟨h _ _ (by simp), h _ _ (by simp)⟩

/-- Every body keeps the link idle. -/
theorem bodyOf_keeps (i : Instr) : KeepsIdle (bodyOf i) := by
  cases i
  case shiftByte b => exact shiftByte_keeps b
  case sendData bs => exact sendData_keeps bs
  case setPosition x p => exact setPosition_keeps x p
  case clear => exact clear_keeps
  case printChar x => exact printChar_keeps x
  case print bs => exact KeepsIdle.inOrder_map bs printChar_keeps
  case getPixelRes => exact KeepsIdle.done
  case getCharRes => exact KeepsIdle.done
  case aSetPage p => exact KeepsIdle.require.andThen (sendCommand_keeps _)
  case aSetColumn x => exact KeepsIdle.require.andThen (sendCommands_keeps _)
  case aSetContrast x => exact KeepsIdle.require.andThen (sendCommand_keeps _)
  case aSetMode m => exact sendCommands_keeps _
  case aPowerUp => exact aPowerUp_keeps
  case aInit => exact resetPulse_keeps.andThen aPowerUp_keeps
  case bSetPage p => exact KeepsIdle.require.andThen (sendCommand_keeps _)
  case bSetColumn x => exact KeepsIdle.require.andThen (sendCommand_keeps _)
  case bSetCoeffs v t b => exact bSetCoeffs_keeps v t b
  case bDrawBuffer buf =>
    exact (sendCommand_keeps _).andThen ((setPosition_keeps 0 0).andThen ((sendData_keeps buf).andThen
      ((sendCommand_keeps _).andThen ((setPosition_keeps 0 0).andThen KeepsIdle.done))))
  case bPowerUp v t b => exact bPowerUp_keeps v t b
  case bInit v t b =>
    exact (requireCoeffs_keeps v t b).andThen (resetPulse_keeps.andThen ((bPowerUp_keeps v t b).andThen KeepsIdle.done))
  case cmdBXExit => exact KeepsIdle.withConfig (fun _ => sendCommand_keeps _)
  all_goals exact sendCommand_keeps _

end Sys2Proof.Machine
end

