-- ==== Sys2Proof/Tests/Slice0.lean ====
section
/-! SUPPORT. The model's own tests. Expected results come from spec/95_test_vectors.md (named V-…) and from the tables of
30_encoding.md; each obligation with hypotheses has a named witness that meets them. -/

namespace Sys2Proof.Tests

open Sys2Proof Sys2Proof.Machine

/-! ## Helpers -/

/-- A block of variant `v` and link `l` right after reset, with the other parameters at their defaults and answers to come. -/
def block (v : Variant) (l : LinkStyle) (as : List Answer) : State :=
  { State.ofConfig { Config.default with variant := v, link := l } with answers := as }

/-- `n` answers `ok`, then one `fail`. -/
def failAt (n : Nat) : List Answer := List.replicate n .ok ++ [.fail]

/-- The next state. -/
def nextOf (o : Host.Outcome State Fault Refusal) : Option State :=
  match o with
  | .next s => some s
  | .fault _ => none
  | .refused _ => none

/-- The events, the outcome code and the value of an instruction on a block whose trace is empty. -/
def ran (i : Instr) (s : State) : Option (List Event × Option (BitVec 3 × Value)) :=
  (nextOf (exec i s)).map (fun t => (t.trace.map (fun e => e.event), t.response.map Response.port))

/-- The frames a receiver hears, the number of events and the outcome code. -/
def heard (i : Instr) (s : State) : Option (List Frame × Nat × Option (BitVec 3)) :=
  (nextOf (exec i s)).map (fun t => (t.wire, t.trace.length, t.response.map (fun r => r.outcome.code)))

/-- The lines `CLK CS DATA DC RST` after an instruction, as the vectors list them. -/
def linesAfter (i : Instr) (s : State) : Option (List LineLevel) :=
  (nextOf (exec i s)).map (fun t => [t.clk, t.cs, t.data, t.dc, t.rst])

/-- A command frame. -/
def c (b : Byte) : Frame := ⟨.command, b⟩

/-- A data frame. -/
def d (b : Byte) : Frame := ⟨.data, b⟩

/-- A command on the hardware link. -/
def hw (b : Byte) : List Event := [.set .cs false, .set .dc false, .hwWrite [b], .set .cs true]

/-- The level a line was driven to. -/
def lv (v : Nat) : LineLevel := .level (v == 1)

/-! ## WellFormed -/

theorem test_wf_refuses_short_buffer : (Instr.bDrawBuffer (List.replicate 503 0#8)).wf = false := by decide +kernel

theorem test_wf_accepts_buffer : (Instr.bDrawBuffer (List.replicate 504 0#8)).wf = true := by decide +kernel

theorem test_config_wf : Config.default.wf = true := by decide +kernel

theorem test_config_wf_refuses_glyph_width_zero : { Config.default with glyphW := 0 }.wf = false := by decide +kernel

theorem test_config_wf_refuses_narrow_glyph :
    { Config.default with glyphs := Config.default.glyphs.set 3 [0#8, 0#8] }.wf = false := by decide +kernel

/-! ## Decoding: words written out from 30_encoding.md -/

/-- R62, the generic operations. -/
theorem test_decode_generic :
    decodeTableWord 32 0b00000001_10100101_00000000_00000000 = some (.shiftByte 0b10100101#8) ∧
    decodeTableWord 32 0b00000010_00101111_00000000_00000000 = some (.sendCommand 0b00101111#8) ∧
    decodeTableWord 32 0b00000011_00000000_00000000_00000000 = some (.sendData []) ∧
    decodeTableWord 32 0b00000100_00100101_00000011_00000000 = some (.setPosition 37#8 3#8) ∧
    decodeTableWord 32 0b00000101_00000000_00000000_00000000 = some .clear ∧
    decodeTableWord 32 0b00000110_01000001_00000000_00000000 = some (.printChar 0x41#8) ∧
    decodeTableWord 32 0b00000111_00000000_00000000_00000000 = some (.print []) ∧
    decodeTableWord 32 0b00001000_00000000_00000000_00000000 = some .getPixelRes ∧
    decodeTableWord 32 0b00001001_00000000_00000000_00000000 = some .getCharRes := by decide +kernel

/-- R62, Controller A's operations. -/
theorem test_decode_a :
    decodeTableWord 32 0b00010000_00000111_00000000_00000000 = some (.aSetPage 7#8) ∧
    decodeTableWord 32 0b00010001_01011111_00000000_00000000 = some (.aSetColumn 95#8) ∧
    decodeTableWord 32 0b00010010_00011111_00000000_00000000 = some (.aSetContrast 31#8) ∧
    decodeTableWord 32 0b00010011_00000000_00000000_00000000 = some (.aSetMode .blank) ∧
    decodeTableWord 32 0b00010011_00000001_00000000_00000000 = some (.aSetMode .normal) ∧
    decodeTableWord 32 0b00010011_00000011_00000000_00000000 = some (.aSetMode .inverse) ∧
    decodeTableWord 32 0b00010100_00000001_00000000_00000000 = some (.aFlipH true) ∧
    decodeTableWord 32 0b00010101_00000000_00000000_00000000 = some (.aFlipV false) ∧
    decodeTableWord 32 0b00010110_00000000_00000000_00000000 = some .aPowerOn ∧
    decodeTableWord 32 0b00010111_00000000_00000000_00000000 = some .aDisplayEnable ∧
    decodeTableWord 32 0b00011000_00000000_00000000_00000000 = some .aScanStart ∧
    decodeTableWord 32 0b00011001_00000000_00000000_00000000 = some .aPowerUp ∧
    decodeTableWord 32 0b00011010_00000000_00000000_00000000 = some .aInit := by decide +kernel

/-- R62, Controller B's operations. -/
theorem test_decode_b :
    decodeTableWord 32 0b00100000_00000101_00000000_00000000 = some (.bSetPage 5#8) ∧
    decodeTableWord 32 0b00100001_01010011_00000000_00000000 = some (.bSetColumn 83#8) ∧
    decodeTableWord 32 0b00100010_00111000_00000001_00000100 = some (.bSetCoeffs 0x38#8 1#8 4#8) ∧
    decodeTableWord 32 0b00100011_00000010_00000000_00000000 = some (.bSetMode .filled) ∧
    decodeTableWord 32 0b00100100_00000001_00000000_00000000 = some (.bSetAddressing true) ∧
    decodeTableWord 32 0b00100110_01011010_00000011_00000111 = some (.bPowerUp 90#8 3#8 7#8) ∧
    decodeTableWord 32 0b00100111_00111000_00000000_00000100 = some (.bInit 0x38#8 0#8 4#8) := by decide +kernel

/-- R62: `B_DRAW_BUFFER` with the 504 zero bytes that a table word stands for. -/
theorem test_decode_draw_buffer :
    decodeTableWord 32 0b00100101_00000000_00000000_00000000 = some (.bDrawBuffer (List.replicate 504 0#8)) := by decide +kernel

/-- R69, CMD_A. -/
theorem test_decode_cmd_a :
    decodeCommandA 0b00001010#8 = some (.cmdAColLo 0b1010#4) ∧ decodeCommandA 0b00010110#8 = some (.cmdAColHi 0b0110#4) ∧
    decodeCommandA 0b00101111#8 = some .cmdAPowerOn ∧ decodeCommandA 0b01000000#8 = some .cmdAScanStart ∧
    decodeCommandA 0b10010101#8 = some (.cmdAContrast 0b10101#5) ∧ decodeCommandA 0b10100001#8 = some .cmdAFlipHOn ∧
    decodeCommandA 0b10100101#8 = some (.cmdAAllOn 1#1) ∧ decodeCommandA 0b10100110#8 = some (.cmdAInverse 0#1) ∧
    decodeCommandA 0b10101000#8 = some .cmdAFlipHOff ∧ decodeCommandA 0b10101111#8 = some .cmdADisplayEnable ∧
    decodeCommandA 0b10110101#8 = some (.cmdASetPage 0b101#3) ∧ decodeCommandA 0b11001000#8 = some (.cmdAFlipV 1#1) ∧
    decodeCommandA 0b11000001#8 = none := by decide +kernel

/-- R70 and R71, CMD_B and CMD_B_EXT. -/
theorem test_decode_cmd_b :
    decodeCommandB 0b00001101#8 = some (.cmdBMode 1#1 1#1) ∧ decodeCommandB 0b00001001#8 = some (.cmdBMode 0#1 1#1) ∧
    decodeCommandB 0b00100010#8 = some (.cmdBFunction 1#1 0#1) ∧ decodeCommandB 0b01000101#8 = some (.cmdBSetPage 0b101#3) ∧
    decodeCommandB 0b11010011#8 = some (.cmdBSetCol 0b1010011#7) ∧ decodeCommandB 0b00001010#8 = none ∧
    decodeCommand 0x20#8 .cmdBExt 0b00000111#8 = some (.cmdBXTemp 0b11#2) ∧
    decodeCommand 0x20#8 .cmdBExt 0b00010100#8 = some (.cmdBXBias 0b100#3) ∧
    decodeCommand 0x20#8 .cmdBExt 0b10111000#8 = some (.cmdBXVop 0b0111000#7) ∧
    decodeCommand 0x20#8 .cmdBExt 0b00100000#8 = some .cmdBXExit ∧
    decodeCommand 0x20#8 .cmdBExt 0b00100001#8 = none := by decide +kernel

/-- R63 and R64: a nonzero unused field, a mode 4, a flag 2 and a reserved `op` spell nothing. -/
theorem test_decode_refuses :
    decodeTableWord 32 0x01A50001 = none ∧ decodeTableWord 32 0x13040000 = none ∧ decodeTableWord 32 0x14020000 = none ∧
      decodeTableWord 32 0x0A000000 = none ∧ decodeTableWord 32 0xFF000000 = none ∧ decodeTableWord 16 0x0100 = none := by
  decide +kernel

/-- Log entries 11 and 12: the next step runs the byte's closest row, on the variant that has it. -/
theorem test_fetch_word_runs :
    (nextOf (step (State.reset.withFetchWord 8 0b00000111))).map (fun t => (t.cfg.variant, t.wire)) =
      some (.b, [c 0x07#8]) := by decide +kernel

/-! ## The shifter and the channel -/

/-- V-S1. -/
theorem test_shift_byte :
    ran (.shiftByte 0xA5#8) (block .a .inbandBitbang []) =
      some ([1, 0, 1, 0, 0, 1, 0, 1].flatMap (fun n => [.set .data (n == 1), .set .clk true, .set .clk false]),
        some (0#3, 0#16)) ∧
    linesAfter (.shiftByte 0xA5#8) (block .a .inbandBitbang []) =
      some [lv 0, lv 1, lv 1, .absent, .unspecified] := by decide +kernel

/-- V-S9: `SHIFT_BYTE(0xA5)`, event 4 fails. -/
theorem test_shift_byte_fails :
    ran (.shiftByte 0xA5#8) (block .b .lineBitbang (failAt 4)) =
      some ([.set .data true, .set .clk true, .set .clk false, .set .data false, .set .clk true], some (1#3, 0#16)) ∧
    linesAfter (.shiftByte 0xA5#8) (block .b .lineBitbang (failAt 4)) =
      some [.unspecified, lv 1, lv 0, .unspecified, .unspecified] := by decide +kernel

/-- V-C1 and V-C3: 27 and 29 events, one frame. -/
theorem test_send_command :
    heard (.sendCommand 0x2F#8) (block .b .lineBitbang []) = some ([c 0x2F#8], 27, some 0#3) ∧
    heard (.sendCommand 0x2F#8) (block .a .inbandBitbang []) = some ([c 0x2F#8], 29, some 0#3) ∧
    ran (.sendCommand 0x2F#8) (block .b .lineHw []) = some (hw 0x2F#8, some (0#3, 0#16)) := by decide +kernel

/-- V-C10 and V-C12: the opening and the closing event fail. -/
theorem test_send_command_fails :
    ran (.sendCommand 0x2F#8) (block .a .inbandBitbang (failAt 0)) =
      some ([.set .cs false, .set .cs true], some (1#3, 0#16)) ∧
    linesAfter (.sendCommand 0x2F#8) (block .a .inbandBitbang (failAt 28)) =
      some [lv 0, .unspecified, lv 1, .absent, .unspecified] := by decide +kernel

/-- V-C4, V-C6 and V-C5. -/
theorem test_send_data :
    heard (.sendData [0x12#8, 0xFE#8]) (block .b .lineBitbang []) = some ([d 0x12#8, d 0xFE#8], 51, some 0#3) ∧
    heard (.sendData [0x12#8, 0xFE#8]) (block .a .inbandBitbang []) = some ([d 0x12#8, d 0xFE#8], 56, some 0#3) ∧
    ran (.sendData [0x12#8, 0xFE#8]) (block .b .lineHw []) =
      some ([.set .cs false, .set .dc true, .hwWrite [0x12#8, 0xFE#8], .set .cs true], some (0#3, 0#16)) := by decide +kernel

/-- V-C7 and V-C9, the empty payload; V-C13, event 27 fails. -/
theorem test_send_data_edges :
    ran (.sendData []) (block .b .lineBitbang []) =
      some ([.set .cs false, .set .dc true, .set .cs true], some (0#3, 0#16)) ∧
    ran (.sendData []) (block .a .inbandBitbang []) = some ([.set .cs false, .set .cs true], some (0#3, 0#16)) ∧
    heard (.sendData [0x12#8, 0xFE#8]) (block .b .lineBitbang (failAt 27)) = some ([d 0x12#8], 29, some 1#3) := by decide +kernel

/-! ## Controller A's encoder -/

/-- V-A1 and V-A1x. -/
theorem test_a_set_page :
    ran (.aSetPage 7#8) (block .a .lineHw []) = some (hw 0xB7#8, some (0#3, 0#16)) ∧
    ran (.aSetPage 8#8) (block .a .lineHw []) = some ([], some (2#3, 0#16)) := by decide +kernel

/-- V-A2 and V-A2x. -/
theorem test_a_set_column :
    ran (.aSetColumn 37#8) (block .a .lineHw []) = some (hw 0x12#8 ++ hw 0x05#8, some (0#3, 0#16)) ∧
    ran (.aSetColumn 96#8) (block .a .lineHw []) = some ([], some (2#3, 0#16)) := by decide +kernel

/-- V-A3 and V-A3x. -/
theorem test_a_set_contrast :
    ran (.aSetContrast 21#8) (block .a .lineHw []) = some (hw 0x95#8, some (0#3, 0#16)) ∧
    ran (.aSetContrast 32#8) (block .a .lineHw []) = some ([], some (2#3, 0#16)) := by decide +kernel

/-- V-A4. -/
theorem test_a_set_mode :
    ran (.aSetMode .blank) (block .a .lineHw []) = some (hw 0xA7#8 ++ hw 0xA5#8, some (0#3, 0#16)) ∧
    ran (.aSetMode .normal) (block .a .lineHw []) = some (hw 0xA6#8 ++ hw 0xA4#8, some (0#3, 0#16)) ∧
    ran (.aSetMode .filled) (block .a .lineHw []) = some (hw 0xA6#8 ++ hw 0xA5#8, some (0#3, 0#16)) ∧
    ran (.aSetMode .inverse) (block .a .lineHw []) = some (hw 0xA7#8 ++ hw 0xA4#8, some (0#3, 0#16)) := by decide +kernel

/-- V-A5 and V-A6. -/
theorem test_a_flips :
    ran (.aFlipH true) (block .a .lineHw []) = some (hw 0xA1#8, some (0#3, 0#16)) ∧
    ran (.aFlipH false) (block .a .lineHw []) = some (hw 0xA8#8, some (0#3, 0#16)) ∧
    ran (.aFlipV true) (block .a .lineHw []) = some (hw 0xC8#8, some (0#3, 0#16)) ∧
    ran (.aFlipV false) (block .a .lineHw []) = some (hw 0xC0#8, some (0#3, 0#16)) := by decide +kernel

/-- V-A7, V-A8 and V-A9. -/
theorem test_a_plain_commands :
    ran .aPowerOn (block .a .lineHw []) = some (hw 0x2F#8, some (0#3, 0#16)) ∧
    ran .aDisplayEnable (block .a .lineHw []) = some (hw 0xAF#8, some (0#3, 0#16)) ∧
    ran .aScanStart (block .a .lineHw []) = some (hw 0x40#8, some (0#3, 0#16)) := by decide +kernel

/-- V-A10, on LINE + HW: 52 events. -/
theorem test_a_power_up :
    ran .aPowerUp (block .a .lineHw []) =
      some ([0x2F#8, 0x80#8, 0xA6#8, 0xA4#8, 0xAF#8, 0x40#8, 0xB0#8, 0x10#8, 0x00#8].flatMap hw ++
        [.set .cs false, .set .dc true, .hwWrite (List.replicate 768 0#8), .set .cs true] ++
        [0xB0#8, 0x10#8, 0x00#8].flatMap hw, some (0#3, 0#16)) := by decide +kernel

/-- V-Q6 and V-Q7. -/
theorem test_a_init_fails :
    ran .aInit (block .a .inbandBitbang (failAt 0)) = some ([.set .rst true], some (1#3, 0#16)) ∧
    ran .aInit (block .a .inbandBitbang (failAt 1)) =
      some ([.set .rst true, .delay 50, .set .rst false], some (1#3, 0#16)) ∧
    linesAfter .aInit (block .a .inbandBitbang (failAt 1)) =
      some [lv 0, lv 1, .unspecified, .absent, .unspecified] := by decide +kernel

/-- V-Q1, the pulse, on LINE + HW. -/
theorem test_a_init_pulse :
    (ran .aInit (block .a .lineHw [])).map (fun r => (r.1.take 6, r.1.length)) =
      some ([.set .rst true, .delay 50, .set .rst false, .delay 5, .set .rst true, .delay 10], 58) := by decide +kernel

/-! ## Controller B's encoder -/

/-- V-B1 and V-B1x. -/
theorem test_b_set_page :
    ran (.bSetPage 5#8) (block .b .lineHw []) = some (hw 0x45#8, some (0#3, 0#16)) ∧
    ran (.bSetPage 6#8) (block .b .lineHw []) = some ([], some (2#3, 0#16)) := by decide +kernel

/-- V-B2 and V-B2x. -/
theorem test_b_set_column :
    ran (.bSetColumn 42#8) (block .b .lineHw []) = some (hw 0xAA#8, some (0#3, 0#16)) ∧
    ran (.bSetColumn 84#8) (block .b .lineHw []) = some ([], some (2#3, 0#16)) := by decide +kernel

/-- V-B3. -/
theorem test_b_set_coeffs :
    ran (.bSetCoeffs 90#8 3#8 7#8) (block .b .lineHw []) =
      some (hw 0x21#8 ++ hw 0xDA#8 ++ hw 0x07#8 ++ hw 0x17#8 ++ hw 0x20#8, some (0#3, 0#16)) := by decide +kernel

/-- V-B3x. -/
theorem test_b_set_coeffs_out_of_range :
    ran (.bSetCoeffs 91#8 0#8 0#8) (block .b .lineHw []) = some ([], some (2#3, 0#16)) ∧
    ran (.bSetCoeffs 0#8 4#8 0#8) (block .b .lineHw []) = some ([], some (2#3, 0#16)) ∧
    ran (.bSetCoeffs 0#8 0#8 8#8) (block .b .lineHw []) = some ([], some (2#3, 0#16)) := by decide +kernel

/-- V-B4. -/
theorem test_b_set_mode :
    ran (.bSetMode .blank) (block .b .lineHw []) = some (hw 0x08#8, some (0#3, 0#16)) ∧
    ran (.bSetMode .normal) (block .b .lineHw []) = some (hw 0x0C#8, some (0#3, 0#16)) ∧
    ran (.bSetMode .filled) (block .b .lineHw []) = some (hw 0x09#8, some (0#3, 0#16)) ∧
    ran (.bSetMode .inverse) (block .b .lineHw []) = some (hw 0x0D#8, some (0#3, 0#16)) := by decide +kernel

/-- V-B5. -/
theorem test_b_set_addressing :
    ran (.bSetAddressing true) (block .b .lineHw []) = some (hw 0x22#8, some (0#3, 0#16)) ∧
    ran (.bSetAddressing false) (block .b .lineHw []) = some (hw 0x20#8, some (0#3, 0#16)) := by decide +kernel

/-- V-B6 (28 events on B/HW) and V-B6x. -/
theorem test_b_draw_buffer :
    (ran (.bDrawBuffer (List.replicate 504 0x5A#8)) (block .b .lineHw [])).map (fun r => (r.1.length, r.1.drop 12 |>.take 4)) =
      some (28, [.set .cs false, .set .dc true, .hwWrite (List.replicate 504 0x5A#8), .set .cs true]) ∧
    ran (.bDrawBuffer (List.replicate 503 0x5A#8)) (block .b .lineHw []) = some ([], some (6#3, 0#16)) := by decide +kernel

/-- V-B7, on B/HW: 44 events. -/
theorem test_b_power_up :
    heard (.bPowerUp 0x38#8 0#8 4#8) (block .b .lineHw []) =
      some ([0x21#8, 0xB8#8, 0x04#8, 0x14#8, 0x20#8, 0x0C#8, 0x40#8, 0x80#8].map c ++ List.replicate 504 (d 0#8) ++
        [0x40#8, 0x80#8].map c, 44, some 0#3) := by decide +kernel

/-- The block of V-Q4: pulse 3 ms, post 4 ms. -/
def slowBlock : State := State.ofConfig { Config.default with
  variant := .b
  link := .lineHw
  rstTPulseB := 3
  rstTPostB := 4 }

/-- V-Q4 (the pulse, with pulse 3 and post 4, and 50 events) and V-Q5. -/
theorem test_b_init :
    (ran (.bInit 0x38#8 0#8 4#8) slowBlock).map (fun r => (r.1.take 6, r.1.length)) =
      some ([.set .rst false, .delay 10, .set .rst true, .delay 3, .set .rst false, .delay 4], 50) ∧
    ran (.bInit 91#8 0#8 0#8) (block .b .lineBitbang []) = some ([], some (2#3, 0#16)) := by decide +kernel

/-! ## The façade -/

/-- V-F1 and V-F3, on LINE + HW. -/
theorem test_set_position :
    ran (.setPosition 37#8 3#8) (block .a .lineHw []) = some (hw 0xB3#8 ++ hw 0x12#8 ++ hw 0x05#8, some (0#3, 0#16)) ∧
    ran (.setPosition 83#8 5#8) (block .b .lineHw []) = some (hw 0x45#8 ++ hw 0xD3#8, some (0#3, 0#16)) := by decide +kernel

/-- V-F4. -/
theorem test_set_position_out_of_range :
    ran (.setPosition 84#8 0#8) (block .b .lineBitbang []) = some ([], some (2#3, 0#16)) ∧
    ran (.setPosition 0#8 6#8) (block .b .lineBitbang []) = some ([], some (2#3, 0#16)) ∧
    (nextOf (exec (.setPosition 0#8 6#8) (block .b .lineBitbang []))).map (fun t => t.halted) = some true := by decide +kernel

/-- V-F7. -/
theorem test_clear :
    ran .clear (block .b .lineHw []) =
      some (hw 0x40#8 ++ hw 0x80#8 ++ [.set .cs false, .set .dc true, .hwWrite (List.replicate 504 0#8), .set .cs true] ++
        hw 0x40#8 ++ hw 0x80#8, some (0#3, 0#16)) := by decide +kernel

/-- A block with the glyphs `H` and `i` of V-F10 in its table. -/
def hiBlock (l : LinkStyle) : State :=
  State.ofConfig { Config.default with
    link := l
    glyphs := (Config.default.glyphs.set 0x28 [0x7F#8, 0x08#8, 0x08#8, 0x08#8, 0x7F#8]).set 0x49
      [0x00#8, 0x44#8, 0x7D#8, 0x40#8, 0x00#8] }

/-- V-F10, on LINE + HW, and V-F11. -/
theorem test_print :
    (heard (.print [0x48#8, 0x69#8]) (hiBlock .lineHw)).map (fun r => r.1) =
      some ([0x7F#8, 0x08#8, 0x08#8, 0x08#8, 0x7F#8, 0x00#8, 0x00#8, 0x44#8, 0x7D#8, 0x40#8, 0x00#8, 0x00#8].map d) ∧
    (heard (.print [0x48#8, 0x0A#8, 0x69#8]) (hiBlock .lineHw)).map (fun r => (r.1, r.2.2)) =
      some ([0x7F#8, 0x08#8, 0x08#8, 0x08#8, 0x7F#8, 0x00#8].map d, some 3#3) := by decide +kernel

/-- V-F8's count of events (166, the glyph as one burst, the gap as another), and V-F9. -/
theorem test_print_char :
    (heard (.printChar 0x48#8) (hiBlock .inbandBitbang)).map (fun r => r.2) = some (166, some 0#3) ∧
    ran (.printChar 0x1F#8) (hiBlock .lineHw) = some ([], some (3#3, 0#16)) ∧
    ran (.printChar 0x7F#8) (hiBlock .lineHw) = some ([], some (3#3, 0#16)) := by decide +kernel

/-- V-F13 and V-F14. -/
theorem test_queries :
    ran .getPixelRes (block .a .inbandBitbang []) = some ([], some (0#3, 0x6044#16)) ∧
    ran .getPixelRes (block .b .lineHw []) = some ([], some (0#3, 0x5430#16)) ∧
    ran .getCharRes (block .a .inbandBitbang []) = some ([], some (0#3, 0x1008#16)) ∧
    ran .getCharRes (block .b .lineHw []) = some ([], some (0#3, 0x0E06#16)) := by decide +kernel

/-! ## The wire command bytes as instructions (log entry 10; the bytes are those of R69 to R71) -/

theorem test_command_rows_a :
    [Instr.cmdAColLo 0b1010#4, .cmdAColHi 0b0110#4, .cmdAPowerOn, .cmdAScanStart, .cmdAContrast 0b10101#5, .cmdAFlipHOn,
      .cmdAAllOn 1#1, .cmdAInverse 1#1, .cmdAFlipHOff, .cmdADisplayEnable, .cmdASetPage 0b101#3, .cmdAFlipV 1#1].map
        (fun i => ran i (block .a .lineHw [])) =
    [0b00001010#8, 0b00010110#8, 0b00101111#8, 0b01000000#8, 0b10010101#8, 0b10100001#8, 0b10100101#8, 0b10100111#8,
      0b10101000#8, 0b10101111#8, 0b10110101#8, 0b11001000#8].map (fun b => some (hw b, some (0#3, 0#16))) := by decide +kernel

theorem test_command_rows_b :
    [Instr.cmdBMode 1#1 1#1, .cmdBFunction 1#1 0#1, .cmdBSetPage 0b101#3, .cmdBSetCol 0b1010011#7, .cmdBXTemp 0b11#2,
      .cmdBXBias 0b100#3, .cmdBXVop 0b0111000#7, .cmdBXExit].map (fun i => ran i (block .b .lineHw [])) =
    [0b00001101#8, 0b00100010#8, 0b01000101#8, 0b11010011#8, 0b00000111#8, 0b00010100#8, 0b10111000#8,
      0b00100000#8].map (fun b => some (hw b, some (0#3, 0#16))) := by decide +kernel

/-! ## The request port -/

/-- A block with requests to come. -/
def asked (s : State) (rs : List Request) : State := s.withRequests rs

/-- The outcome code of one step. -/
def stepCode (s : State) : Option (BitVec 3) := (nextOf (step s)).bind (fun t => t.response.map (fun r => r.outcome.code))

/-- V-A4x, V-F4 and the order of checks (R246): an illegal word on the wrong block is illegal; `B_SET_PAGE` on A is of the wrong
variant; a payload too many; a halted block refuses even an illegal word. -/
theorem test_checks :
    stepCode (asked (block .a .lineHw []) [.word 0x13040000#32 none]) = some 4#3 ∧
    stepCode (asked (block .b .lineHw []) [.word 0x13040000#32 none]) = some 4#3 ∧
    stepCode (asked (block .a .lineHw []) [.word 0x20000000#32 none]) = some 5#3 ∧
    stepCode (asked (block .a .lineHw []) [.word 0x05000000#32 (some [])]) = some 6#3 ∧
    stepCode (asked (block .a .lineHw []) [.word 0x03000000#32 none]) = some 6#3 ∧
    stepCode (asked (block .a .lineHw []).halt [.word 0x13040000#32 none]) = some 7#3 := by decide +kernel

/-! ## Witnesses: for each obligation with hypotheses, a state and operands that meet them all -/

/-- With no answers listed every answer is `ok`. -/
theorem answersOk_of_none {es : List Event} {s : State} (h : s.answers = []) : AnswersOk es s := by
  intro a ha; simp [h] at ha

/-- A list of `ok` answers is `ok`. -/
theorem answersOk_replicate {es : List Event} {s : State} (n : Nat) (h : s.answers = List.replicate n .ok) :
    AnswersOk es s := by
  intro a ha
  rw [h] at ha
  exact List.eq_of_mem_replicate (List.mem_of_mem_take ha)

/-- A block right after reset is in step with its receiver. -/
theorem inSync_block (v : Variant) (l : LinkStyle) (as : List Answer) : LinkInSync (block v l as) := by
  refine ⟨by simp [block, State.ofConfig, State.trace], ?_, ?_⟩ <;> rfl

theorem witness_EncodeThenDecode :
    Instr.cmdBXExit.wf = true ∧ existsOn Instr.cmdBXExit.home Variant.b = true ∧
      (Instr.bDrawBuffer (List.replicate 504 1#8)).wf = true ∧ encode 0x20#8 (.cmdBXTemp 3#2) ≠ .command .cmdBExt 0x20#8 := by
  decide +kernel

theorem witness_DecodeThenEncode :
    decodeWord 0x13030000#32 [] = some (.aSetMode .inverse) ∧ decodeCommand 0x20#8 .cmdBExt 0x20#8 = some .cmdBXExit := by
  decide +kernel

/-- One reserved number of each range, at its boundaries. -/
theorem witness_ReservedOpIsRefused :
    (asked (block .a .lineHw []) [.word 0#32 none]).halted = false ∧ opField 0x00000000#32 = 0x00#8 ∧
      (opField 0x0A000000#32).toNat = 0x0A ∧ (opField 0x0F000000#32).toNat = 0x0F ∧ (opField 0x1B000000#32).toNat = 0x1B ∧
      (opField 0x1F000000#32).toNat = 0x1F ∧ (opField 0x28000000#32).toNat = 0x28 ∧ (opField 0xFF000000#32).toNat = 0xFF := by
  decide +kernel

theorem witness_CommandRowsADisjoint :
    (0xB0#8, 0xF8#8) ∈ commandRowsA ∧ 0xB7#8 &&& 0xF8#8 = 0xB0#8 := by decide +kernel

theorem witness_AssembledBytesAreTableRows :
    (7#8 : Byte).toNat < 8 ∧ (95#8 : Byte).toNat < 96 ∧ (31#8 : Byte).toNat < 32 ∧ (1#8 : Byte).toNat < 2 ∧ (5#8 : Byte).toNat < 6 ∧
      (83#8 : Byte).toNat < 84 ∧ (90#8 : Byte).toNat < 91 ∧ (3#8 : Byte).toNat < 4 := by decide +kernel

theorem witness_StepRunsDecodedInstruction :
    (asked (block .b .lineHw []) [.word 0x22380004#32 none]).requests = [.word 0x22380004#32 none] ∧
      decodeRequest (block .b .lineHw []).cfg (.word 0x22380004#32 none) = .ok (.bSetCoeffs 0x38#8 0#8 4#8) := by
  refine ⟨rfl, rfl⟩

/-- One request for each clause. -/
theorem witness_ChecksComeInOrder :
    (block .a .lineHw []).halt.halted = true ∧ decodeWord 0x0A000000#32 [] = none ∧
      decodeWord 0x20000000#32 [] = some (.bSetPage 0#8) ∧ existsOn (Instr.bSetPage 0#8).home Variant.a = false ∧
      decodeWord 0x05000000#32 [] = some .clear ∧ existsOn Instr.clear.home Variant.a = true ∧
      (some ([] : List Byte)).isSome ≠ Instr.clear.takesPayload ∧
      decodeWord 0x25000000#32 (List.replicate 503 0#8) = some (.bDrawBuffer (List.replicate 503 0#8)) ∧
      opField 0x25000000#32 = 0x25#8 ∧ (List.replicate 503 (0#8 : Byte)).length ≠ 504 := by decide +kernel

theorem witness_EveryRequestGetsAnOutcome :
    (asked (block .a .lineHw []) [.word 0xFFFFFFFF#32 none]).requests = .word 0xFFFFFFFF#32 none :: [] := rfl

theorem witness_IdleBlockWaits : (block .a .lineHw []).requests = [] := rfl

/-- Every answer `ok`, although a later one would not be; the first and the last event of the byte fail. -/
theorem witness_ShiftByteEmitsOrStops :
    (block .a .inbandBitbang (failAt 24)).halted = false ∧
      AnswersOk (byteEvents 0xA5#8) (block .a .inbandBitbang (failAt 24)) ∧
      FirstFailAt 0 (block .b .lineHw (failAt 0)) ∧ (byteEvents 0xA5#8)[0]? = some (.set .data true) ∧
      FirstFailAt 23 (block .b .lineHw (failAt 23)) ∧ (byteEvents 0xA5#8)[23]? = some (.set .clk false) := by
  refine ⟨rfl, ?_, ⟨[], rfl⟩, rfl, ⟨[], rfl⟩, rfl⟩
  unfold AnswersOk
  decide +kernel

theorem witness_ShiftByteClocksMsbFirst :
    (block .b .lineHw []).halted = false ∧ AnswersOk (byteEvents 0x80#8) (block .b .lineHw []) :=
  ⟨rfl, answersOk_of_none rfl⟩

theorem witness_SendCommandEmitsOneWindow :
    (block .b .lineBitbang (List.replicate 27 .ok)).halted = false ∧
      AnswersOk (commandEvents .lineBitbang 0x2F#8) (block .b .lineBitbang (List.replicate 27 .ok)) :=
  ⟨rfl, answersOk_replicate 27 rfl⟩

theorem witness_SendDataEmitsOneWindow :
    (block .a .inbandBitbang []).halted = false ∧ AnswersOk (dataEvents .inbandBitbang []) (block .a .inbandBitbang []) ∧
      AnswersOk (dataEvents .lineHw [0x12#8, 0xFE#8]) (block .b .lineHw []) :=
  ⟨rfl, answersOk_of_none rfl, answersOk_of_none rfl⟩

theorem witness_WindowEventCounts :
    (block .a .inbandBitbang []).halted = false ∧ AnswersOk (commandEvents .inbandBitbang 0x2F#8) (block .a .inbandBitbang []) ∧
      AnswersOk (dataEvents .inbandBitbang [0x12#8]) (block .a .inbandBitbang []) :=
  ⟨rfl, answersOk_of_none rfl, answersOk_of_none rfl⟩

theorem witness_BurstHoldsChipSelect :
    (block .b .lineBitbang []).halted = false ∧ AnswersOk (dataEvents .lineBitbang [0x12#8, 0xFE#8]) (block .b .lineBitbang []) :=
  ⟨rfl, answersOk_of_none rfl⟩

/-- The opening event, the last event before the release, and the release. -/
theorem witness_ChannelFailureReleasesOnce :
    FirstFailAt 0 (block .b .lineHw (failAt 0)) ∧ (channelWindow .lineHw (.sendCommand 0x2F#8))[0]? = some (.set .cs false) ∧
      FirstFailAt 2 (block .b .lineHw (failAt 2)) ∧ (channelWindow .lineHw (.sendData [0x12#8]))[2]? = some (.hwWrite [0x12#8]) ∧
      2 + 1 < (channelWindow .lineHw (.sendData [0x12#8])).length ∧
      FirstFailAt 3 (block .b .lineHw (failAt 3)) ∧ (channelWindow .lineHw (.sendData [0x12#8]))[3]? = some (.set .cs true) ∧
      3 + 1 = (channelWindow .lineHw (.sendData [0x12#8])).length :=
  ⟨⟨[], rfl⟩, rfl, ⟨[], rfl⟩, rfl, by decide +kernel, ⟨[], rfl⟩, rfl, rfl⟩

theorem witness_ReceiverHearsCommand :
    (block .a .inbandBitbang []).halted = false ∧ LinkInSync (block .a .inbandBitbang []) ∧
      AnswersOk (commandEvents .inbandBitbang 0x2F#8) (block .a .inbandBitbang []) :=
  ⟨rfl, inSync_block _ _ _, answersOk_of_none rfl⟩

theorem witness_ReceiverHearsBurst :
    (block .b .lineHw []).halted = false ∧ LinkInSync (block .b .lineHw []) ∧
      AnswersOk (dataEvents .lineHw [0x12#8, 0xFE#8]) (block .b .lineHw []) :=
  ⟨rfl, inSync_block _ _ _, answersOk_of_none rfl⟩

/-- The largest operand in range and the least one out of it, for each clause. -/
theorem witness_EncoderASendsOneCommand :
    (block .a .lineHw []).halted = false ∧ (block .a .lineHw []).cfg.variant = .a ∧ (7#8 : Byte).toNat < 8 ∧
      (31#8 : Byte).toNat < 32 ∧ 8 ≤ (8#8 : Byte).toNat ∧ 32 ≤ (32#8 : Byte).toNat ∧ AnswersOk (commandEvents .lineHw 0xB7#8) (block .a .lineHw []) ∧
      AnswersOk (commandEvents .lineHw 0x9F#8) (block .a .lineHw []) :=
  ⟨rfl, rfl, by decide +kernel, by decide +kernel, by decide +kernel, by decide +kernel, answersOk_of_none rfl,
    answersOk_of_none rfl⟩

theorem witness_ColumnASendsHighNibbleFirst :
    (block .a .lineHw []).halted = false ∧ (block .a .lineHw []).cfg.variant = .a ∧ (95#8 : Byte).toNat < 96 ∧
      AnswersOk (commandsEvents .lineHw [0x15#8, 0x0F#8]) (block .a .lineHw []) :=
  ⟨rfl, rfl, by decide +kernel, answersOk_of_none rfl⟩

theorem witness_ModeASendsTwoCommands :
    (block .a .lineHw []).halted = false ∧ (block .a .lineHw []).cfg.variant = .a ∧
      AnswersOk (commandsEvents .lineHw (modeBytesA .inverse)) (block .a .lineHw []) :=
  ⟨rfl, rfl, answersOk_of_none rfl⟩

theorem witness_PowerUpAndInitA :
    (block .a .lineHw []).halted = false ∧ (block .a .lineHw []).cfg.variant = .a ∧
      AnswersOk (powerUpEventsA (block .a .lineHw []).cfg) (block .a .lineHw []) ∧
      AnswersOk (pulseEvents (block .a .lineHw []).cfg ++ powerUpEventsA (block .a .lineHw []).cfg) (block .a .lineHw []) :=
  ⟨rfl, rfl, answersOk_of_none rfl, answersOk_of_none rfl⟩

/-- The largest operand in range and the least one out of it, for each clause, and a mode's byte. -/
theorem witness_EncoderBSendsOneCommand :
    (block .b .lineHw []).halted = false ∧ (block .b .lineHw []).cfg.variant = .b ∧ (5#8 : Byte).toNat < 6 ∧
      (83#8 : Byte).toNat < 84 ∧ 6 ≤ (6#8 : Byte).toNat ∧ 84 ≤ (84#8 : Byte).toNat ∧
      (DisplayMode.filled = .filled → (0x09#8 : Byte) = 0x09#8) ∧
      AnswersOk (commandEvents .lineHw 0x45#8) (block .b .lineHw []) :=
  ⟨rfl, rfl, by decide +kernel, by decide +kernel, by decide +kernel, by decide +kernel, fun _ => rfl, answersOk_of_none rfl⟩

theorem witness_CoeffsSendBracket :
    (block .b .lineHw []).halted = false ∧ (block .b .lineHw []).cfg.variant = .b ∧ (90#8 : Byte).toNat < 91 ∧
      (3#8 : Byte).toNat < 4 ∧ (7#8 : Byte).toNat < 8 ∧
      AnswersOk (commandsEvents .lineHw [0x21#8, 0xDA#8, 0x07#8, 0x17#8, 0x20#8]) (block .b .lineHw []) :=
  ⟨rfl, rfl, by decide +kernel, by decide +kernel, by decide +kernel, answersOk_of_none rfl⟩

theorem witness_DrawBufferSequence :
    (block .b .lineHw []).halted = false ∧ (block .b .lineHw []).cfg.variant = .b ∧
      (List.replicate 504 (0x5A#8 : Byte)).length = 504 ∧ (List.replicate 505 (0x5A#8 : Byte)).length ≠ 504 ∧
      AnswersOk (drawEvents (block .b .lineHw []).cfg (List.replicate 504 0x5A#8)) (block .b .lineHw []) :=
  ⟨rfl, rfl, List.length_replicate, by rw [List.length_replicate]; decide, answersOk_of_none rfl⟩

theorem witness_PowerUpAndInitB :
    (block .b .lineHw []).halted = false ∧ (block .b .lineHw []).cfg.variant = .b ∧ (90#8 : Byte).toNat < 91 ∧
      (3#8 : Byte).toNat < 4 ∧ (7#8 : Byte).toNat < 8 ∧
      AnswersOk (pulseEvents (block .b .lineHw []).cfg ++ powerUpEventsB (block .b .lineHw []).cfg 90#8 3#8 7#8)
        (block .b .lineHw []) :=
  ⟨rfl, rfl, by decide +kernel, by decide +kernel, by decide +kernel, answersOk_of_none rfl⟩

theorem witness_SetPositionSendsPageThenColumn :
    (block .a .lineHw []).halted = false ∧ InBounds .a 95#8 7#8 ∧ InBounds .b 83#8 5#8 ∧
      AnswersOk (positionEvents (block .a .lineHw []).cfg 95#8 7#8) (block .a .lineHw []) :=
  ⟨rfl, ⟨by decide +kernel, by decide +kernel⟩, ⟨by decide +kernel, by decide +kernel⟩, answersOk_of_none rfl⟩

theorem witness_ClearSequence :
    (block .b .lineHw []).halted = false ∧ AnswersOk (clearEvents (block .b .lineHw []).cfg) (block .b .lineHw []) :=
  ⟨rfl, answersOk_of_none rfl⟩

/-- The first and the last code with a glyph. -/
theorem witness_PrintWritesGlyphsAndGaps :
    (hiBlock .lineHw).halted = false ∧ (∀ x ∈ [0x20#8, 0x7E#8], Representable x) ∧
      AnswersOk (textEvents (hiBlock .lineHw).cfg [0x20#8, 0x7E#8]) (hiBlock .lineHw) := by
  refine ⟨rfl, ?_, answersOk_of_none rfl⟩
  unfold Representable
  decide +kernel

theorem witness_UnrepresentableGlyphStopsText :
    (hiBlock .lineHw).halted = false ∧ (∀ x ∈ [0x48#8], Representable x) ∧ ¬ Representable 0x1F#8 ∧ ¬ Representable 0x7F#8 ∧
      AnswersOk (textEvents (hiBlock .lineHw).cfg [0x48#8]) (hiBlock .lineHw) := by
  refine ⟨rfl, ?_, ?_, ?_, answersOk_of_none rfl⟩ <;> unfold Representable <;> decide +kernel

theorem witness_QueriesReportResolution : (block .b .lineHw (failAt 0)).halted = false := rfl

theorem witness_CommandRowsOfASendTheirByte :
    (block .a .lineHw []).halted = false ∧ (block .a .lineHw []).cfg.variant = .a ∧
      encode 0x20#8 (.cmdAFlipV 1#1) = .command .cmdA 0xC8#8 ∧ AnswersOk (commandEvents .lineHw 0xC8#8) (block .a .lineHw []) :=
  ⟨rfl, rfl, rfl, answersOk_of_none rfl⟩

theorem witness_CommandRowsOfBSendTheirByte :
    (block .b .lineHw []).halted = false ∧ (block .b .lineHw []).cfg.variant = .b ∧
      encode (block .b .lineHw []).cfg.bExtExit (.cmdBMode 0#1 1#1) = .command .cmdB 0x09#8 ∧
      encode (block .b .lineHw []).cfg.bExtExit .cmdBXExit = .command .cmdBExt 0x20#8 ∧
      AnswersOk (commandEvents .lineHw 0x20#8) (block .b .lineHw []) :=
  ⟨rfl, rfl, rfl, rfl, answersOk_of_none rfl⟩

/-- The least operand out of range in each clause. -/
theorem witness_OutOfRangeOperandsViolate :
    (block .a .lineHw []).halted = false ∧ ¬ InBounds .a 96#8 0#8 ∧ ¬ InBounds .a 0#8 8#8 ∧ ¬ InBounds .b 84#8 0#8 ∧
      ¬ InBounds .b 0#8 6#8 ∧ 8 ≤ (8#8 : Byte).toNat ∧ 96 ≤ (96#8 : Byte).toNat ∧ 32 ≤ (32#8 : Byte).toNat ∧
      6 ≤ (6#8 : Byte).toNat ∧ 84 ≤ (84#8 : Byte).toNat ∧ 91 ≤ (91#8 : Byte).toNat ∧ 4 ≤ (4#8 : Byte).toNat ∧
      8 ≤ (8#8 : Byte).toNat := by
  unfold InBounds
  decide +kernel

theorem witness_ViolationHappensBeforeAnyEvent :
    exec (.aSetPage 8#8) (block .a .lineHw []) = .next ((block .a .lineHw []).halt.respond .preconditionViolation 0) ∧
      (block .a .lineHw []).halted = false := ⟨rfl, rfl⟩

theorem witness_HaltedOnlyByViolation :
    (∃ t, step (asked (block .a .lineHw []) [.word 0x10080000#32 none]) = .next t ∧ t.halted = true) ∧
      (asked (block .a .lineHw []) [.word 0x10080000#32 none]).requests ≠ [] ∧
      ∃ t, step (asked (block .a .lineHw []).halt [.word 0x10080000#32 none]) = .next t ∧ t.halted = true :=
  ⟨⟨_, rfl, rfl⟩, List.cons_ne_nil _ _, ⟨_, rfl, rfl⟩⟩

/-- The last request of two. -/
theorem witness_HaltedBlockStaysHalted :
    (asked (block .a .lineHw []).halt [.word 0#32 none, .word 0x05000000#32 none]).halted = true ∧
      1 < (asked (block .a .lineHw []).halt [.word 0#32 none, .word 0x05000000#32 none]).requests.length := by
  refine ⟨rfl, by decide +kernel⟩

/-- One request for each refusal. -/
theorem witness_RefusalsChangeNothing :
    (nextOf (step (asked (block .a .lineHw []) [.word 0#32 none]))).map (fun t => t.response) = some (some ⟨.illegalRequest, 0⟩) ∧
    (nextOf (step (asked (block .a .lineHw []) [.word 0x20000000#32 none]))).map (fun t => t.response) =
      some (some ⟨.wrongVariant, 0⟩) ∧
    (nextOf (step (asked (block .a .lineHw []) [.word 0x03000000#32 none]))).map (fun t => t.response) =
      some (some ⟨.badPayload, 0⟩) ∧
    (nextOf (step (asked (block .a .lineHw []).halt [.word 0#32 none]))).map (fun t => t.response) =
      some (some ⟨.refusedHalted, 0⟩) := by decide +kernel

/-- The first and the last fallible event of a command, and a `fail` that comes too late. -/
theorem witness_FailureCutsTheNormalSequence :
    (∃ u, exec (.sendCommand 0x2F#8) { block .b .lineHw (failAt 0) with answers := [] } = .next u ∧
      u.trace = (block .b .lineHw (failAt 0)).trace ++ (hw 0x2F#8).map (fun e => ⟨e, .ok⟩)) ∧
      FirstFailAt 0 (block .b .lineHw (failAt 0)) ∧ FirstFailAt 3 (block .b .lineHw (failAt 3)) ∧
      3 < answersTaken (hw 0x2F#8) ∧ FirstFailAt 4 (block .b .lineHw (failAt 4)) ∧ answersTaken (hw 0x2F#8) ≤ 4 :=
  ⟨⟨_, rfl, rfl⟩, ⟨[], rfl⟩, ⟨[], rfl⟩, by decide +kernel, ⟨[], rfl⟩, by decide +kernel⟩

/-- An instruction that ends `OK` and one that ends `LinkFailure`. -/
theorem witness_OutcomeFollowsAnswers :
    (∃ t, exec (.sendCommand 0x2F#8) (block .b .lineHw []) = .next t ∧ t.response = some ⟨.ok, 0⟩) ∧
      (∃ t, exec (.sendCommand 0x2F#8) (block .b .lineHw (failAt 2)) = .next t ∧ t.response = some ⟨.linkFailure, 0⟩) ∧
      (block .b .lineHw []).halted = false :=
  ⟨⟨_, rfl, rfl⟩, ⟨_, rfl, rfl⟩, rfl⟩

/-- The first and the last reset event. -/
theorem witness_ResetPulseFailureStops :
    (block .a .lineHw (failAt 0)).halted = false ∧ (block .a .lineHw (failAt 0)).cfg.variant = .a ∧
      FirstFailAt 0 (block .a .lineHw (failAt 0)) ∧ (pulseEvents (block .a .lineHw []).cfg)[2 * 0]? = some (.set .rst true) ∧
      (block .b .lineHw (failAt 2)).cfg.variant = .b ∧ (90#8 : Byte).toNat < 91 ∧ (3#8 : Byte).toNat < 4 ∧
      (7#8 : Byte).toNat < 8 ∧ FirstFailAt 2 (block .b .lineHw (failAt 2)) ∧
      (pulseEvents (block .b .lineHw []).cfg)[2 * 2]? = some (.set .rst false) :=
  ⟨rfl, rfl, ⟨[], rfl⟩, rfl, rfl, by decide +kernel, by decide +kernel, by decide +kernel, ⟨[], rfl⟩, rfl⟩

theorem witness_EveryInstructionFrame :
    ∃ t, exec (.sendCommand 0x2F#8) (block .b .lineHw (failAt 2)) = .next t ∧ t.trace ≠ [] :=
  ⟨_, rfl, by decide +kernel⟩

/-- A state for each clause: no initialisation; in band; `SHIFT_BYTE`; the hardware primitive; a query. -/
theorem witness_LinesChangeOnlyByTheirDrivers :
    (∃ t, exec .clear (block .b .lineHw []) = .next t) ∧ (block .a .inbandBitbang []).cfg.link.dcStyle = .inband ∧
      (∃ t, exec (.shiftByte 1#8) (block .a .inbandBitbang []) = .next t) ∧ (block .b .lineHw []).cfg.link.xfer = .hw ∧
      ∃ t, exec .getPixelRes (block .b .lineHw []) = .next t :=
  ⟨⟨_, rfl⟩, rfl, ⟨_, rfl⟩, rfl, ⟨_, rfl⟩⟩

theorem witness_OnlyInitDelaysOrResets :
    (∃ t, exec .clear (block .b .lineHw []) = .next t) ∧ Instr.clear ≠ .aInit ∧ (∀ v x b, Instr.clear ≠ .bInit v x b) ∧
      Consistent (block .b .lineHw []) ∧ (block .b .lineHw []).controller.described = false :=
  ⟨⟨_, rfl⟩, by decide +kernel, fun _ _ _ h => (by cases h),
    ⟨fun l => by cases l <;> rfl, by simp [block, State.ofConfig, State.trace], fun _ _ h => by cases h⟩, rfl⟩

/-- Two blocks that differ in a line, the trace and the response. -/
theorem witness_LinesAndTraceAreNeverRead :
    (block .b .lineHw []).cfg = (((block .b .lineHw []).setLine .rst (lv 1)).log (.delay 1) .ok).cfg ∧
      (block .b .lineHw []) ≠ ((block .b .lineHw []).setLine .rst (lv 1)).log (.delay 1) .ok := by
  refine ⟨rfl, fun h => ?_⟩
  have := congrArg State.rtrace h
  simp [block, State.ofConfig, State.log, State.setLine] at this

theorem witness_StepKeepsInvariant :
    Consistent (asked (block .b .lineHw []) [.word 0x05000000#32 none]) ∧
      ∃ t, step (asked (block .b .lineHw []) [.word 0x05000000#32 none]) = .next t :=
  ⟨⟨fun l => by cases l <;> rfl, by simp [asked, block, State.ofConfig, State.trace, State.withRequests],
    fun _ _ h => by cases h⟩, ⟨_, rfl⟩⟩

theorem witness_IdleLevelsAfterOk :
    (block .b .lineBitbang []).clk = .level false ∧ (block .b .lineBitbang []).cs = .level true ∧
      ∃ t, exec (.sendCommand 0x2F#8) (block .b .lineBitbang []) = .next t ∧ t.response = some ⟨.ok, 0⟩ :=
  ⟨rfl, rfl, ⟨_, rfl, rfl⟩⟩

/-- A link with the line `DC` and one without. -/
theorem witness_ResetValuesAsListed :
    (block .b .lineHw []).cfg.link.dcStyle = .line ∧ (block .a .inbandBitbang []).cfg.link.dcStyle = .inband := ⟨rfl, rfl⟩

theorem witness_BlockResetClearsHalted :
    (asked (block .b .lineHw []).halt [.word 0x05000000#32 none]).requests = [.word 0x05000000#32 none] ∧
      decodeRequest (block .b .lineHw []).cfg (.word 0x05000000#32 none) = .ok .clear ∧
      (block .b .lineHw []).cfg.link.dcStyle = .line ∧ (block .a .inbandBitbang []).cfg.link.dcStyle = .inband :=
  ⟨rfl, rfl, rfl, rfl⟩

theorem witness_PositioningIsIdempotent :
    (block .b .lineHw []).halted = false ∧ LinkInSync (block .b .lineHw []) ∧ InBounds .b 83#8 5#8 ∧
      AnswersOk (positionEvents (block .b .lineHw []).cfg 83#8 5#8 ++ dataEvents .lineHw [0xFF#8] ++
        positionEvents (block .b .lineHw []).cfg 83#8 5#8) (block .b .lineHw []) :=
  ⟨rfl, inSync_block _ _ _, ⟨by decide +kernel, by decide +kernel⟩, answersOk_of_none rfl⟩

theorem witness_ClearFramesNeverVary :
    (block .a .inbandBitbang []).halted = false ∧ LinkInSync (block .a .inbandBitbang []) ∧
      AnswersOk (clearEvents (block .a .inbandBitbang []).cfg) (block .a .inbandBitbang []) :=
  ⟨rfl, inSync_block _ _ _, answersOk_of_none rfl⟩

theorem witness_InitAFrames :
    (block .a .inbandBitbang []).halted = false ∧ (block .a .inbandBitbang []).cfg.variant = .a ∧
      LinkInSync (block .a .inbandBitbang []) ∧ AnswersOk (pulseEvents (block .a .inbandBitbang []).cfg ++
        powerUpEventsA (block .a .inbandBitbang []).cfg) (block .a .inbandBitbang []) :=
  ⟨rfl, rfl, inSync_block _ _ _, answersOk_of_none rfl⟩

theorem witness_DrawBufferFrames :
    (block .b .lineBitbang []).halted = false ∧ (block .b .lineBitbang []).cfg.variant = .b ∧
      LinkInSync (block .b .lineBitbang []) ∧ (List.replicate 504 (0x5A#8 : Byte)).length = 504 ∧
      AnswersOk (drawEvents (block .b .lineBitbang []).cfg (List.replicate 504 0x5A#8)) (block .b .lineBitbang []) :=
  ⟨rfl, rfl, inSync_block _ _ _, List.length_replicate, answersOk_of_none rfl⟩

theorem witness_InitALeavesController :
    (block .a .lineHw []).halted = false ∧ (block .a .lineHw []).cfg.variant = .a ∧
      AnswersOk (pulseEvents (block .a .lineHw []).cfg ++ powerUpEventsA (block .a .lineHw []).cfg) (block .a .lineHw []) :=
  ⟨rfl, rfl, answersOk_of_none rfl⟩

theorem witness_InitBLeavesController :
    (block .b .lineHw []).halted = false ∧ (block .b .lineHw []).cfg.variant = .b ∧
      (90#8 : Byte).toNat < 91 ∧ (3#8 : Byte).toNat < 4 ∧ (7#8 : Byte).toNat < 8 ∧
      (∀ y ∈ [0x80#8 ||| 90#8, 0x04#8 ||| 3#8, 0x10#8 ||| 7#8], y ≠ (block .b .lineHw []).cfg.bExtExit) ∧
      (∀ y ∈ [0x0C#8, 0x40#8, 0x80#8, 0x22#8, 0x23#8], y ≠ (block .b .lineHw []).cfg.bExtEnter) ∧
      AnswersOk (pulseEvents (block .b .lineHw []).cfg ++ powerUpEventsB (block .b .lineHw []).cfg 90#8 3#8 7#8)
        (block .b .lineHw []) :=
  ⟨rfl, rfl, by decide +kernel, by decide +kernel, by decide +kernel, by decide +kernel, by decide +kernel,
    answersOk_of_none rfl⟩

/-- A block whose `B_INIT` ended `OK`. -/
def initialised (as : List Answer) : State :=
  { block .b .lineHw as with
    rtrace := ((pulseEvents (block .b .lineHw as).cfg ++ powerUpEventsB (block .b .lineHw as).cfg 0x38#8 0#8 4#8).map
      (fun e => ⟨e, .ok⟩)).reverse }

theorem basicReady_initialised (as : List Answer) : BasicReady (initialised as) := by
  have hc : (initialised as).cfg = (initialised []).cfg := rfl
  have ht : (initialised as).trace = (initialised []).trace := rfl
  have h : (receiverAfter (initialised []).cfg (initialised []).trace).sure = true ∧
      (receiverAfter (initialised []).cfg (initialised []).trace).scan.cs = true ∧
      (receiverAfter (initialised []).cfg (initialised []).trace).scan.clk = false ∧
      (controllerAfter (initialised []).cfg (initialised []).trace).described = true ∧
      (controllerAfter (initialised []).cfg (initialised []).trace).set = some .basic := by decide +kernel
  unfold BasicReady State.controller Receiver.Ready
  rw [hc, ht]
  exact ⟨⟨h.1, h.2.1, h.2.2.1⟩, h.2.2.2⟩

/-- The first and the last failing event that leaves the bracket open, and the one after, on LINE + HW, where a command is 4 events;
inside `B_INIT`, three events later; and a failure that leaves the clock and chip-select known, so that a column command can
follow. -/
theorem witness_FailedBracketStaysExtended :
    (initialised (failAt 3)).halted = false ∧ (initialised (failAt 3)).cfg.variant = .b ∧
      SendsBracket (.bSetCoeffs 90#8 3#8 7#8) 90#8 3#8 7#8 0 ∧ SendsBracket (.bInit 90#8 3#8 7#8) 90#8 3#8 7#8 3 ∧
      BasicReady (initialised (failAt 3)) ∧ BasicReady (initialised (failAt 17)) ∧ BasicReady (initialised (failAt 18)) ∧
      (∀ y ∈ [0x80#8 ||| 90#8, 0x04#8 ||| 3#8, 0x10#8 ||| 7#8], y ≠ (initialised []).cfg.bExtExit) ∧
      (commandEvents .lineHw 0x00#8).length = 4 ∧ FirstFailAt (0 + 3) (initialised (failAt 3)) ∧
      FirstFailAt (0 + 17) (initialised (failAt 17)) ∧ FirstFailAt (0 + 18) (initialised (failAt 18)) ∧
      (receiverAfter (block .b .lineHw (failAt 6)).cfg (block .b .lineHw (failAt 6)).trace).Ready ∧
      FirstFailAt (3 + 3) (block .b .lineHw (failAt 6)) ∧
      FirstFailAt (3 + 17) (block .b .lineHw (failAt 20)) ∧ FirstFailAt (3 + 18) (block .b .lineHw (failAt 21)) ∧
      ∃ t, exec (.bSetCoeffs 90#8 3#8 7#8) (initialised (failAt 6)) = .next t ∧ t.cs = .level true ∧ t.clk ≠ .unspecified ∧
        0x80#8 ||| 83#8 ≠ t.cfg.bExtExit ∧ AnswersOk (commandEvents t.cfg.link (0x80#8 ||| 83#8)) t := by
  refine ⟨rfl, rfl, .inl ⟨rfl, .inl rfl⟩, .inr ⟨rfl, rfl⟩, basicReady_initialised _, basicReady_initialised _, basicReady_initialised _,
    by decide +kernel, rfl, ⟨[], rfl⟩, ⟨[], rfl⟩, ⟨[], rfl⟩, ⟨rfl, rfl, rfl⟩, ⟨[], rfl⟩, ⟨[], rfl⟩,
    ⟨[], rfl⟩, _, rfl, by decide +kernel,
    by decide +kernel,
    by decide +kernel, answersOk_of_none (by decide +kernel)⟩

/-- The first and the last failing event that leaves vertical addressing on, and the one after, on LINE + HW, where every window is
4 events. -/
theorem witness_FailedDrawStaysVertical :
    (initialised (failAt 3)).halted = false ∧ BasicReady (initialised (failAt 3)) ∧ BasicReady (initialised (failAt 17)) ∧
      BasicReady (initialised (failAt 18)) ∧ (List.replicate 504 (0x5A#8 : Byte)).length = 504 ∧
      (∀ y ∈ [0x22#8, 0x40#8, 0x80#8, 0x20#8], y ≠ (initialised []).cfg.bExtEnter) ∧
      (commandEvents .lineHw 0x00#8).length = 4 ∧ (dataEvents .lineHw (List.replicate 504 0x5A#8)).length = 4 ∧
      FirstFailAt 3 (initialised (failAt 3)) ∧ FirstFailAt 17 (initialised (failAt 17)) ∧ FirstFailAt 18 (initialised (failAt 18)) :=
  ⟨rfl, basicReady_initialised _, basicReady_initialised _, basicReady_initialised _, List.length_replicate, by decide +kernel, rfl, rfl,
    ⟨[], rfl⟩, ⟨[], rfl⟩, ⟨[], rfl⟩⟩

/-! ## What is known of the controller (70_reset_and_hazards.md, 30_encoding.md R73) -/

/-- The state after several instructions, each to its end. -/
def after : List Instr → State → Option State
  | [], s => some s
  | i :: is, s => (nextOf (exec i s)).bind (after is)

/-- R283: what a controller makes of commands before an INIT that ended `OK` is unknown. -/
theorem test_nothing_known_before_init :
    ((after [.aSetContrast 5#8] (block .a .inbandBitbang [])).map State.controller) = some Controller.unknown := by
  decide +kernel

/-- R71, R283, 91 N28: after a `B_INIT` that stopped in its `CLEAR`, and a position sent after it, the basic set is in force and nothing
else is known, the addressing and the cursor included. -/
theorem test_failed_init_leaves_unknown :
    ((after [.bInit 90#8 3#8 7#8, .setPosition 1#8 2#8] (block .b .lineHw (failAt 30))).map State.controller) =
      some { Controller.unknown with set := some .basic } := by decide +kernel

/-- R290, R293: a `B_INIT` that stops inside the bracket leaves the extended set, but not where the clock was unspecified before it,
since the entry command may then have been lost. -/
theorem test_unspecified_clock_may_lose_the_entry :
    ((after [.bInit 90#8 3#8 7#8] (block .b .lineBitbang (failAt 40))).map (fun t => t.controller.set)) =
        some (some .extended) ∧
      ((after [.shiftByte 0#8, .bInit 90#8 3#8 7#8] (block .b .lineBitbang (failAt 1 ++ failAt 40))).map State.controller) =
        some Controller.unknown := by decide +kernel

/-- R292, R293: a window that may have stayed open takes the bits of a `SHIFT_BYTE`, so that in band the entry command of a `B_INIT` that
follows may be garbled; with a line `DC` whole bytes keep the receiver in step (log entry 20: chip-select holds one level). -/
theorem test_stray_bits_garble_the_entry :
    [LinkStyle.inbandBitbang, .lineBitbang].map (fun l => (after [.sendCommand 0x0C#8, .shiftByte 0#8, .bInit 90#8 3#8 7#8]
      (block .b l ([.fail, .fail] ++ failAt 70))).map (fun t => t.controller.set)) =
      [some none, some (some .extended)] := by decide +kernel

/-- R292, R297: an INIT that ends `OK` describes the controller whatever failed before it, a chip-select that may be stuck included. -/
theorem test_init_ok_after_stuck_select :
    ((after [.sendCommand 0x0C#8, .bInit 90#8 3#8 7#8] (block .b .lineHw [.ok, .fail, .fail])).map
      (fun t => (t.controller.described, t.controller.voltage, t.controller.col))) = some (true, some 90, some 0) := by
  decide +kernel

/-- R284, R293: after a failed bracket a column command sets the voltage coefficient, and leaves the column where INIT put it. -/
theorem test_column_after_failed_bracket :
    ((after [.bSetCoeffs 90#8 3#8 7#8, .bSetColumn 0x38#8] (initialised (failAt 6))).map
      (fun t => (t.controller.set, t.controller.voltage, t.controller.col))) =
      some (some .extended, some 0x38, some 0) := by decide +kernel

/-- R293, R297: after a failed bracket a mode command has no listed meaning; nothing is known until the next `B_INIT`. -/
theorem test_init_describes_again :
    ((after [.bSetCoeffs 90#8 3#8 7#8, .bSetMode .normal] (initialised (failAt 6))).map State.controller) =
        some Controller.unknown ∧
      ((after [.bSetCoeffs 90#8 3#8 7#8, .bSetMode .normal, .bInit 1#8 2#8 3#8] (initialised (failAt 6))).map
        (fun t => (t.controller.described, t.controller.voltage, t.controller.vertical))) =
        some (true, some 1, some false) := by decide +kernel

/-- R290: after a failed clock event the next frame may have lost a bit, also for a controller that was described. -/
theorem test_failed_clock_loses_the_controller :
    ((after [.bSetPage 2#8, .bSetPage 3#8] (block .b .lineBitbang (failAt 3))).map (fun t => (t.trace.foldl
      (Receiver.entry t.cfg) { Receiver.atReset with controller := Controller.afterPulse, phase := .done }).known)) =
      some Controller.unknown := by decide +kernel

/-- R73, 93 U11: bytes that fit a row but are not among its emitted values, and 0x23. -/
theorem test_unlisted_bytes_are_unknown :
    [0x46#8, 0xD4#8, 0x23#8, 0x00#8].map (fun b => (after [.sendCommand b] (initialised [])).map State.controller) =
      List.replicate 4 (some Controller.unknown) := by decide +kernel

end Sys2Proof.Tests
end

section
/-! PROOF. The frame of every instruction: the parameters, the requests to come, the trace and the answers (R6, R12, R54). -/

namespace Sys2Proof.Machine

/-- `t` differs from `s`, in its parameters, inputs and trace, by the events `new` alone: they stand at the end of the trace, and one
answer is taken for each fallible one. -/
structure ExtendsBy (s t : State) (new : List TraceEntry) : Prop where
  cfg : t.cfg = s.cfg
  requests : t.requests = s.requests
  trace : t.trace = s.trace ++ new
  answers : t.answers = s.answers.drop (answersTaken (new.map (·.event)))

theorem respond_extendsBy (s : State) (o : OpOutcome) (v : Value) : ExtendsBy s (s.respond o v) [] where
  cfg := rfl
  requests := rfl
  trace := (List.append_nil _).symm
  answers := rfl

theorem finish_extendsBy (s : State) (ts : List TraceEntry) (v : Value) (r : Option Raise) :
    ExtendsBy s (finish v (applyEntries s ts, r)) ts where
  cfg := by simp
  requests := by simp
  trace := by simp
  answers := by simp

/-- A refused instruction emits nothing; one that passes its checks emits the events of its body. -/
theorem exec_extendsBy (i : Instr) (s : State) : ∃ u new, exec i s = .next u ∧ ExtendsBy s u new := by
  obtain ⟨-, halted⟩ | ⟨-, -, wrongVariant⟩ | ⟨-, -, badPayload⟩ | ⟨ts, r, -, -, -, ran⟩ := exec_cases i s
  · exact ⟨_, [], halted, respond_extendsBy s _ 0⟩
  · exact ⟨_, [], wrongVariant, respond_extendsBy s _ 0⟩
  · exact ⟨_, [], badPayload, respond_extendsBy s _ 0⟩
  · exact ⟨_, ts, ran, finish_extendsBy s ts _ r⟩

/-- Settles O44: each way `exec` can end extends the state by a list of events. -/
theorem everyInstructionFrame : Obligations.EveryInstructionFrame := by
  intro i s t h
  obtain ⟨u, new, hu, hframe⟩ := exec_extendsBy i s
  cases hu.symm.trans h
  exact ⟨hframe.cfg, hframe.requests, new, hframe.trace, hframe.answers⟩

end Sys2Proof.Machine
end

section
/-! PROOF. How a request is answered: one rule for each check that can refuse it, and what decides the answer (R12, R20, R21, R246). -/

namespace Sys2Proof.Machine

/-! ## The checks -/

theorem exec_halted (i : Instr) {s : State} (h : s.halted = true) : exec i s = .next (s.respond .refusedHalted 0) := by
  rw [exec_eq]; simp [answer, h, refuse]

theorem exec_wrongVariant {i : Instr} {s : State} (hrun : s.halted = false) (h : existsOn i.home s.cfg.variant = false) :
    exec i s = .next (s.respond .wrongVariant 0) := by
  rw [exec_eq]; simp [answer, hrun, h, refuse]

theorem exec_badPayload {i : Instr} {s : State} (ha : Accepts i s) (h : suitsOf i = false) :
    exec i s = .next (s.respond .badPayload 0) := by
  rw [exec_eq]; simp [answer, ha.1, ha.2, h, refuse]

/-- Without a request the block waits (R281). -/
theorem step_waits {s : State} (hr : s.requests = []) : step s = .next s := by simp [step, takeRequest, hr]

/-! ## The response of an operation that ran -/

/-- The response to an operation of value `v` that ends as `r` (R240, R260). -/
def responseOf (v : Value) (r : Option Raise) : Response :=
  match r with
  | none => ⟨.ok, v⟩
  | some x => ⟨outcomeOf x, 0⟩

@[simp] theorem finish_response (v : Value) (s : State) (r : Option Raise) :
    (finish v (s, r)).response = some (responseOf v r) := by cases r <;> rfl

theorem responseOf_violation (v : Value) (r : Option Raise) :
    (responseOf v r).outcome = .preconditionViolation ↔ r = some .preconditionViolation := by
  rcases r with _ | (_ | _ | _) <;> simp [responseOf, outcomeOf]

/-! ## Parameters, `halted` and answers decide everything -/

/-- `t` is `s` after the events `new`, the response `o` and the flag `halted` at `f`; the lines, which follow from the events, are left
out. -/
structure AnswersBy (s t : State) (new : List TraceEntry) (o : Response) (f : Bool) : Prop extends ExtendsBy s t new where
  response : t.response = some o
  halted : t.halted = f

theorem respond_answersBy (s : State) (o : OpOutcome) (v : Value) : AnswersBy s (s.respond o v) [] ⟨o, v⟩ s.halted :=
  ⟨respond_extendsBy s o v, rfl, rfl⟩

theorem finish_answersBy (s : State) (ts : List TraceEntry) (v : Value) (r : Option Raise) :
    AnswersBy s (finish v (applyEntries s ts, r)) ts (responseOf v r) (s.halted || r == some .preconditionViolation) :=
  ⟨finish_extendsBy s ts v r, finish_response v _ r, by rw [finish_halted, applyEntries_halted]⟩

/-- What an instruction emits, responds and leaves of `halted` is one and the same on every state with the same parameters, `halted` and
answers. -/
theorem exec_determined (i : Instr) (c : Config) (h : Bool) (as : List Answer) : ∃ new o f, ∀ s : State,
    s.cfg = c → s.halted = h → s.answers = as → ∃ t, exec i s = .next t ∧ AnswersBy s t new o f := by
  cases h with
  | true => exact ⟨_, _, true, fun s _ hh _ => ⟨_, exec_halted i hh, hh ▸ respond_answersBy s _ _⟩⟩
  | false =>
    cases hv : existsOn i.home c.variant with
    | false =>
      exact ⟨_, _, false, fun s hc hh _ => ⟨_, exec_wrongVariant hh (hc ▸ hv), hh ▸ respond_answersBy s _ _⟩⟩
    | true =>
      cases hp : suitsOf i with
      | false =>
        exact ⟨_, _, false, fun s hc hh _ => ⟨_, exec_badPayload ⟨hh, hc ▸ hv⟩ hp, hh ▸ respond_answersBy s _ _⟩⟩
      | true =>
        obtain ⟨ts, r, -, hbody⟩ := bodyOf_effect i c as
        refine ⟨ts, responseOf (valueOf i c) r, r == some .preconditionViolation, fun s hc hh ha => ?_⟩
        refine ⟨_, exec_body ⟨hh, hc ▸ hv⟩ hp, ?_⟩
        rw [hbody s hc ha, hc]
        simpa [hh] using finish_answersBy s ts (valueOf i c) r

/-- Settles O47: events, response and flag come from `exec_determined`, which both states meet alike. -/
theorem linesAndTraceAreNeverRead : Obligations.LinesAndTraceAreNeverRead := by
  intro i s s' hcfg hhalted hanswers
  obtain ⟨new, o, f, hdet⟩ := exec_determined i s.cfg s.halted s.answers
  obtain ⟨t, hexec, ht⟩ := hdet s rfl rfl rfl
  obtain ⟨t', hexec', ht'⟩ := hdet s' hcfg.symm hhalted.symm hanswers.symm
  refine ⟨t, t', new, hexec, hexec', ht.trace, ht'.trace, ?_, ?_, ?_⟩
  · rw [ht.response, ht'.response]
  · rw [ht.halted, ht'.halted]
  · rw [ht.answers, ht'.answers, hanswers]

end Sys2Proof.Machine
end

section
/-! PROOF. Which lines an instruction drives, and which events its link can have (R21, R22). -/

namespace Sys2Proof.Machine

/-! ## The kinds of events, by line -/

@[simp] theorem shiftEvent_set (c : Config) (l : Line) (v : Bit) : shiftEvent c (.set l v) ↔ l = .clk ∨ l = .data := by
  simp [shiftEvent]

@[simp] theorem channelEvent_set (c : Config) (l : Line) (v : Bit) : channelEvent c (.set l v) ↔
    l = .cs ∨ (c.link.dcStyle = .line ∧ l = .dc) ∨ (c.link.xfer = .bitbang ∧ (l = .clk ∨ l = .data)) := by
  simp [channelEvent]

@[simp] theorem pulseEvent_set (c : Config) (l : Line) (v : Bit) : pulseEvent c (.set l v) ↔ l = .rst := by
  simp [pulseEvent]

/-! ## Which kinds an instruction has -/

/-- Apart from `SHIFT_BYTE`, every event is one of a channel operation or of the reset pulse. -/
theorem eventsOf_of_not_shiftByte {i : Instr} (hi : ∀ b, i ≠ .shiftByte b) {c : Config} {e : Event} (h : eventsOf i c e) :
    initEvent c e := by
  cases i
  case shiftByte b => exact absurd rfl (hi b)
  case getPixelRes => exact h.elim
  case getCharRes => exact h.elim
  case aInit => exact h
  case bInit => exact h
  all_goals exact .inl h

/-- Apart from the two initialisations, every event is one of a channel operation or of the shifter. -/
theorem eventsOf_of_not_init {i : Instr} (ha : i ≠ .aInit) (hb : ∀ v x b, i ≠ .bInit v x b) {c : Config} {e : Event}
    (h : eventsOf i c e) : channelEvent c e ∨ shiftEvent c e := by
  cases i
  case shiftByte => exact .inr h
  case getPixelRes => exact h.elim
  case getCharRes => exact h.elim
  case aInit => exact absurd rfl ha
  case bInit v x b => exact absurd rfl (hb v x b)
  all_goals exact .inl h

theorem eventsOf_kinds {i : Instr} {c : Config} {e : Event} (h : eventsOf i c e) : shiftEvent c e ∨ initEvent c e := by
  by_cases hi : ∃ b, i = .shiftByte b
  · obtain ⟨b, rfl⟩ := hi
    exact .inl h
  · exact .inr (eventsOf_of_not_shiftByte (fun b hb => hi ⟨b, hb⟩) h)

/-- Only the two initialisations drive the reset line. -/
theorem eventsOf_not_rst {i : Instr} (ha : i ≠ .aInit) (hb : ∀ v x b, i ≠ .bInit v x b) (c : Config) (v : Bit) :
    ¬ eventsOf i c (.set .rst v) := by
  intro h
  have hkind := eventsOf_of_not_init ha hb h
  simp at hkind

/-! ## A line that is not driven -/

theorem lineFrom_of_undriven {l : Line} {ts : List TraceEntry} (h : ∀ t ∈ ts, ∀ v, t.event ≠ .set l v) (x : LineLevel) :
    lineFrom l x ts = x := by
  induction ts generalizing x with
  | nil => rfl
  | cons t ts ih =>
    have hhead : lineFrom l x [t] = x := by
      rcases t with ⟨⟨l', v⟩ | n | bs, a⟩
      · have hl : l' ≠ l := fun hl => h ⟨.set l' v, a⟩ (by simp) v (by rw [hl])
        simp [lineFrom, hl]
      · rfl
      · rfl
    rw [← List.singleton_append, lineFrom_append, hhead]
    exact ih (fun u hu => h u (by simp [hu])) x

/-- An instruction leaves a line that none of its events drives. -/
theorem exec_keeps_line {i : Instr} {s t : State} (h : exec i s = .next t) {l : Line}
    (hl : ∀ v, ¬ eventsOf i s.cfg (.set l v)) : t.line l = s.line l := by
  obtain ⟨-, hx⟩ | ⟨-, -, hx⟩ | ⟨-, -, hx⟩ | ⟨ts, r, -, -, heffect, hx⟩ := exec_cases i s
  all_goals cases hx.symm.trans h
  · exact State.respond_line s _ _ l
  · exact State.respond_line s _ _ l
  · exact State.respond_line s _ _ l
  · rw [finish_line, applyEntries_line]
    exact lineFrom_of_undriven (fun x hx v he => hl v (he ▸ heffect.events x hx)) _

/-- Settles O45: no event of the instruction drives the lines named, by the kinds of events it has. -/
theorem linesChangeOnlyByTheirDrivers : Obligations.LinesChangeOnlyByTheirDrivers := by
  intro i s t h
  refine ⟨fun ha hb => ?_, fun hin => ?_, ?_, fun hhw hi => ?_, fun hq => ?_⟩
  · exact exec_keeps_line h (l := .rst) (eventsOf_not_rst ha hb s.cfg)
  · refine exec_keeps_line h (l := .dc) (fun v he => ?_)
    have hkind := eventsOf_kinds he
    simp [initEvent, hin] at hkind
  · rintro ⟨b, rfl⟩
    have hshift : ∀ l v, eventsOf (.shiftByte b) s.cfg (.set l v) → l = .clk ∨ l = .data :=
      fun l v => (shiftEvent_set s.cfg l v).1
    exact ⟨exec_keeps_line h (l := .cs) (fun v he => by simpa using hshift _ v he),
      exec_keeps_line h (l := .dc) (fun v he => by simpa using hshift _ v he)⟩
  · have hbitbanged : ∀ l v, l = .clk ∨ l = .data → ¬ eventsOf i s.cfg (.set l v) := by
      rintro l v (rfl | rfl) he <;>
      · have hkind := eventsOf_of_not_shiftByte hi he
        simp [initEvent, hhw] at hkind
    exact ⟨exec_keeps_line h (l := .clk) (fun v => hbitbanged _ v (.inl rfl)),
      exec_keeps_line h (l := .data) (fun v => hbitbanged _ v (.inr rfl))⟩
  · have hnone : ∀ l, t.line l = s.line l := fun l =>
      exec_keeps_line h (fun v he => by rcases hq with rfl | rfl <;> exact he)
    exact ⟨hnone .clk, hnone .data, hnone .cs, hnone .dc, hnone .rst⟩

/-! ## Events a link can have -/

theorem shiftEvent_fits {c : Config} {e : Event} (h : shiftEvent c e) : fitsLink c.link e = true := by
  rcases h with ⟨v, rfl⟩ | ⟨v, rfl⟩ <;> rfl

theorem channelEvent_fits {c : Config} {e : Event} (h : channelEvent c e) : fitsLink c.link e = true := by
  obtain ⟨v, rfl⟩ | ⟨hline, v, rfl⟩ | ⟨-, hshift⟩ | ⟨hhw, bs, rfl⟩ := h
  · rfl
  · simp [fitsLink, hline]
  · exact shiftEvent_fits hshift
  · simp [fitsLink, hhw]

theorem pulseEvent_fits {c : Config} {e : Event} (h : pulseEvent c e) : fitsLink c.link e = true := by
  rcases h with ⟨v, rfl⟩ | ⟨n, rfl⟩ <;> rfl

/-- Every event of every instruction can occur on the block's link. -/
theorem eventsOf_fits {i : Instr} {c : Config} {e : Event} (h : eventsOf i c e) : fitsLink c.link e = true := by
  obtain hshift | hchannel | hpulse := eventsOf_kinds h
  · exact shiftEvent_fits hshift
  · exact channelEvent_fits hchannel
  · exact pulseEvent_fits hpulse

end Sys2Proof.Machine
end

section
/-! PROOF. No instruction leaves an INIT under way (R223). -/

namespace Sys2Proof.Machine

theorem powerUpEventsA_no_rst (c : Config) : ∀ e ∈ powerUpEventsA c, ∀ v, e ≠ .set .rst v :=
  ((Shows.commands c.link powerUpBytesA).append (Shows.clear c)).noRst

theorem powerUpEventsB_no_rst (c : Config) (v t b : Byte) : ∀ e ∈ powerUpEventsB c v t b, ∀ w, e ≠ .set .rst w :=
  ((Shows.commands c.link (coeffBytes c v t b ++ [0x0C#8])).append (Shows.clear c)).noRst

theorem existsOn_some {w v : Variant} : existsOn (some w) v = true ↔ v = w :=
  beq_iff_eq.trans eq_comm

/-- The events that the body of `i` adds to the trace of `s` leave a receiver that stood at `r` with no INIT under way. -/
def LeavesSettled (i : Instr) (s : State) (r : Receiver) : Prop :=
  ∃ ts, (bodyOf i s).1.trace = s.trace ++ ts ∧ (ts.foldl (Receiver.entry s.cfg) r).Settled

theorem aInit_leavesSettled {s : State} (hv : s.cfg.variant = .a) (r : Receiver) : LeavesSettled .aInit s r :=
  init_settled s.cfg r (i := .aInit) (by simp) (aInit_runs s.cfg) (powerUpEventsA_no_rst s.cfg) (by simp [initLeft, hv]) s rfl

/-- Operands out of range end `B_INIT` before its reset pulse; with the others it runs. -/
theorem bInit_leavesSettled {s : State} (hv : s.cfg.variant = .b) {r : Receiver} (hr : r.Settled) (v t b : Byte) :
    LeavesSettled (.bInit v t b) s r := by
  by_cases h : v.toNat < 91 ∧ t.toNat < 4 ∧ b.toNat < 8
  · obtain ⟨h1, h2, h3⟩ := h
    refine init_settled s.cfg r (i := .bInit v t b) (by simp) (bInit_runs s.cfg h1 h2 h3) (powerUpEventsB_no_rst s.cfg v t b) ?_ s rfl
    simpa [initLeft, hv] using powerUpEventsB_length s.cfg v t b 0#8 0#8 0#8
  · refine ⟨[], ?_, hr⟩
    show (bInit v t b s).1.trace = _
    simp [bInit, requireCoeffs_violation h, raise]

/-- Without an event of the reset line a settled receiver stays so. -/
theorem entries_settled (c : Config) {ts : List TraceEntry} (h : ∀ t ∈ ts, ∀ v, t.event ≠ .set .rst v) {r : Receiver}
    (hr : r.Settled) : (ts.foldl (Receiver.entry c) r).Settled := by
  intro left told hp
  rw [entries_phase c ts h hr] at hp
  exact hr left told hp

theorem bodyOf_leavesSettled {i : Instr} {s : State} (ha : Accepts i s) {r : Receiver} (hr : r.Settled) :
    LeavesSettled i s r := by
  by_cases hA : i = .aInit
  · subst hA
    exact aInit_leavesSettled (existsOn_some.1 ha.2) r
  by_cases hB : ∃ v x b, i = .bInit v x b
  · obtain ⟨v, x, b, rfl⟩ := hB
    exact bInit_leavesSettled (existsOn_some.1 ha.2) hr v x b
  · obtain ⟨ts, o, heffect, hbody⟩ := bodyOf_effect i s.cfg s.answers
    refine ⟨ts, by rw [hbody s rfl rfl]; simp, entries_settled s.cfg (fun t ht v he => ?_) hr⟩
    exact eventsOf_not_rst hA (fun v x b h => hB ⟨v, x, b, h⟩) s.cfg v (he ▸ heffect.events t ht)

end Sys2Proof.Machine
end

section
/-! PROOF. The invariant: at block reset, and over every step (R21 to R23, R33, R223). -/

namespace Sys2Proof.Machine

/-- The invariant speaks of the parameters, the lines and the trace alone. -/
theorem Consistent.congr {s t : State} (h : Consistent s) (hcfg : t.cfg = s.cfg) (htrace : t.trace = s.trace)
    (hline : ∀ l, t.line l = s.line l) : Consistent t := by
  obtain ⟨hlines, hfits, hsettled⟩ := h
  refine ⟨fun l => ?_, ?_, ?_⟩
  · rw [hline, hcfg, htrace]; exact hlines l
  · rw [hcfg, htrace]; exact hfits
  · rw [hcfg, htrace]; exact hsettled

theorem Consistent.respond {s : State} (h : Consistent s) (o : OpOutcome) (v : Value) : Consistent (s.respond o v) :=
  h.congr rfl rfl (State.respond_line s o v)

theorem Consistent.withRequests {s : State} (h : Consistent s) (rs : List Request) : Consistent (s.withRequests rs) :=
  h.congr rfl rfl (State.withRequests_line s · rs)

theorem Consistent.finish {s : State} (h : Consistent s) (v : Value) (r : Option Raise) : Consistent (finish v (s, r)) :=
  h.congr (finish_cfg v s r) (finish_trace v s r) (finish_line v s r)

/-- Events that the link can have and that leave no INIT under way keep the invariant. -/
theorem Consistent.applyEntries {s : State} (h : Consistent s) {ts : List TraceEntry}
    (hfits : ∀ t ∈ ts, fitsLink s.cfg.link t.event = true)
    (hsettled : (ts.foldl (Receiver.entry s.cfg) (receiverAfter s.cfg s.trace)).Settled) :
    Consistent (applyEntries s ts) := by
  obtain ⟨hlines, hfitsOld, -⟩ := h
  refine ⟨fun l => ?_, fun e he => ?_, ?_⟩
  · rw [applyEntries_line, applyEntries_cfg, applyEntries_trace, lineFrom_append, ← hlines l]
  · rw [applyEntries_trace, List.mem_append] at he
    rw [applyEntries_cfg]
    exact he.elim (hfitsOld e) (hfits e)
  · rw [applyEntries_cfg, applyEntries_trace, receiverAfter_append]
    exact hsettled

theorem Consistent.bodyOf {i : Instr} {s : State} (h : Consistent s) (ha : Accepts i s) : Consistent (bodyOf i s).1 := by
  obtain ⟨ts, o, heffect, hbody⟩ := bodyOf_effect i s.cfg s.answers
  obtain ⟨us, htrace, hsettled⟩ := bodyOf_leavesSettled ha h.2.2
  rw [hbody s rfl rfl] at htrace ⊢
  obtain rfl : ts = us := by simpa using htrace
  exact h.applyEntries (fun t ht => eventsOf_fits (heffect.events t ht)) hsettled

theorem Consistent.exec {i : Instr} {s t : State} (h : Consistent s) (ht : exec i s = .next t) : Consistent t := by
  obtain ⟨-, hx⟩ | ⟨-, -, hx⟩ | ⟨-, -, hx⟩ | ⟨-, -, ha, hp, -, -⟩ := exec_cases i s
  · cases hx.symm.trans ht; exact h.respond _ _
  · cases hx.symm.trans ht; exact h.respond _ _
  · cases hx.symm.trans ht; exact h.respond _ _
  · cases (exec_body ha hp).symm.trans ht; exact (h.bodyOf ha).finish _ _

/-- Settles O48: a step waits, refuses or performs an instruction, and each keeps the invariant. -/
theorem stepKeepsInvariant : Obligations.StepKeepsInvariant := by
  intro s t h ht
  cases hr : s.requests with
  | nil =>
    cases (step_waits hr).symm.trans ht
    exact h
  | cons r rest =>
    obtain ⟨-, hx⟩ | ⟨e, -, -, hx⟩ | ⟨i, -, -, hx⟩ := step_cases hr
    · cases hx.symm.trans ht; exact (h.withRequests rest).respond _ _
    · cases hx.symm.trans ht; exact (h.withRequests rest).respond _ _
    · exact (h.withRequests rest).exec (hx.symm.trans ht)

/-- Settles O49: the trace is empty, so each line has its level at reset and no event has begun an INIT. -/
theorem resetHasInvariant : Obligations.ResetHasInvariant := by
  intro c
  refine ⟨fun l => rfl, fun e he => ?_, fun left told hp => ?_⟩
  · cases he
  · cases hp

/-- Settles O51: the fields of `State.ofConfig`, and `DC` by the link. -/
theorem resetValuesAsListed : Obligations.ResetValuesAsListed := by
  intro c
  refine ⟨rfl, rfl, rfl, rfl, fun hline => ?_, fun hin => ?_, rfl, rfl⟩
  · show dcAtReset c.link = .unspecified
    cases hl : c.link <;> simp [dcAtReset, hl, LinkStyle.dcStyle] at hline ⊢
  · show dcAtReset c.link = .absent
    cases hl : c.link <;> simp [dcAtReset, hl, LinkStyle.dcStyle] at hin ⊢

end Sys2Proof.Machine
end

section
/-! PROOF. One step: the instruction it performs, and when it halts the block (R24, R26). -/

namespace Sys2Proof.Machine

/-- Settles O8: of the three ways a step with a request can go, only the last is left. -/
theorem stepRunsDecodedInstruction : Obligations.StepRunsDecodedInstruction := by
  intro s r rest i hr hrun hd
  obtain ⟨hh, -⟩ | ⟨e, -, he, -⟩ | ⟨j, -, hj, hstep⟩ := step_cases hr
  · simp [hrun] at hh
  · simp [hd] at he
  · cases hd.symm.trans hj
    exact hstep

/-- From `s` to `t` the block halts if it was halted, or if the response is a precondition violation, and else not. -/
def HaltsByViolation (s t : State) : Prop :=
  ∃ o, t.response = some o ∧ t.halted = (s.halted || decide (o.outcome = .preconditionViolation))

theorem respond_haltsByViolation (s : State) {o : OpOutcome} (ho : o ≠ .preconditionViolation) (v : Value) :
    HaltsByViolation s (s.respond o v) := ⟨⟨o, v⟩, rfl, by simp [ho]⟩

theorem finish_haltsByViolation (s : State) (ts : List TraceEntry) (v : Value) (r : Option Raise) :
    HaltsByViolation s (finish v (applyEntries s ts, r)) := by
  have h := finish_answersBy s ts v r
  refine ⟨responseOf v r, h.response, ?_⟩
  rw [h.halted]
  simp only [responseOf_violation, beq_eq_decide]

theorem refusalOf_ne_violation (e : DecodeError) : refusalOf e ≠ .preconditionViolation := by cases e <;> simp [refusalOf]

theorem exec_haltsByViolation {i : Instr} {s t : State} (h : exec i s = .next t) : HaltsByViolation s t := by
  obtain ⟨-, hx⟩ | ⟨-, -, hx⟩ | ⟨-, -, hx⟩ | ⟨ts, r, -, -, -, hx⟩ := exec_cases i s
  all_goals cases hx.symm.trans h
  · exact respond_haltsByViolation s (by simp) 0
  · exact respond_haltsByViolation s (by simp) 0
  · exact respond_haltsByViolation s (by simp) 0
  · exact finish_haltsByViolation s ts _ r

theorem step_haltsByViolation {s t : State} {r : Request} {rest : List Request} (hr : s.requests = r :: rest)
    (h : step s = .next t) : HaltsByViolation s t := by
  obtain ⟨-, hx⟩ | ⟨e, -, -, hx⟩ | ⟨i, -, -, hx⟩ := step_cases hr
  · cases hx.symm.trans h; exact respond_haltsByViolation (s.withRequests rest) (by simp) 0
  · cases hx.symm.trans h; exact respond_haltsByViolation (s.withRequests rest) (refusalOf_ne_violation e) 0
  · exact exec_haltsByViolation (s := s.withRequests rest) (hx.symm.trans h)

/-- Settles O38: a waiting block is unchanged, and a step with a request sets `halted` as `HaltsByViolation` says. -/
theorem haltedOnlyByViolation : Obligations.HaltedOnlyByViolation := by
  intro s t h
  cases hr : s.requests with
  | nil =>
    cases (step_waits hr).symm.trans h
    exact ⟨id, fun _ hne => absurd rfl hne⟩
  | cons r rest =>
    obtain ⟨⟨o, v⟩, hresponse, hhalted⟩ := step_haltsByViolation hr h
    refine ⟨fun hh => by simp [hhalted, hh], fun hh _ => ?_⟩
    simp [hhalted, hh, hresponse]

end Sys2Proof.Machine
end

section
/-! PROOF. The request word: what it decodes to, what spells it, and which words spell an operation (R61 to R64). -/

namespace Sys2Proof.Machine

/-! ## The operand fields -/

theorem whenUnused_eq_some_iff {fs : List Byte} {i j : Instr} : whenUnused fs i = some j ↔ (∀ f ∈ fs, f = 0#8) ∧ i = j := by
  simp [whenUnused]

theorem whenUnused_isSome {fs : List Byte} {i : Instr} : (whenUnused fs i).isSome = true ↔ ∀ f ∈ fs, f = 0#8 := by
  simp [Option.isSome_iff_exists, whenUnused_eq_some_iff]

theorem bind_whenUnused_isSome {α : Type} {o : Option α} {fs : List Byte} {f : α → Instr} :
    (o.bind (fun a => whenUnused fs (f a))).isSome = true ↔ o.isSome = true ∧ ∀ x ∈ fs, x = 0#8 := by
  cases o <;> simp [whenUnused_isSome]

theorem decodeMode_eq_some_iff {x : Byte} {m : DisplayMode} : decodeMode x = some m ↔ x = encodeMode m :=
  ⟨decodeMode_some, fun h => h ▸ decodeMode_encodeMode m⟩

theorem decodeFlag_eq_some_iff {x : Byte} {f : Bit} : decodeFlag x = some f ↔ x = encodeFlag f :=
  ⟨decodeFlag_some, fun h => h ▸ decodeFlag_encodeFlag f⟩

/-- The mask of an operand that spells a mode keeps all but its two low bits. -/
theorem decodeMode_isSome : ∀ x : Byte, (decodeMode x).isSome = true ↔ x &&& 0xFC#8 = 0#8 := by decide

/-- The mask of an operand that spells a flag keeps all but its low bit. -/
theorem decodeFlag_isSome : ∀ x : Byte, (decodeFlag x).isSome = true ↔ x &&& 0xFE#8 = 0#8 := by decide

/-! ## Encoding and decoding -/

theorem packWord_eq_iff {op a0 a1 a2 : Byte} {w : ReqWord} :
    packWord op a0 a1 a2 = w ↔ (opField w).toNat = op.toNat ∧ a0Field w = a0 ∧ a1Field w = a1 ∧ a2Field w = a2 := by
  refine ⟨fun h => by simp [← h], fun ⟨hop, h0, h1, h2⟩ => ?_⟩
  rw [← packWord_fields w, BitVec.eq_of_toNat_eq hop, h0, h1, h2]

/-- Each operation's word, with the payload that comes with it, reads as the operation. -/
theorem decodeWord_encode {x : Byte} {i : Instr} {w : ReqWord} {p : Option (List Byte)} (h : encode x i = .word w p) :
    decodeWord w (p.getD []) = some i := by
  cases i <;> cases h <;> simp [decodeWord]

/-- A word is spelled by what it reads as: its `op` is that of the branch taken, its operands stand in the instruction or are zero. -/
theorem encode_of_decodeWord {x : Byte} {w : ReqWord} {bs : List Byte} {i : Instr} (h : decodeWord w bs = some i) :
    encode x i = .word w (if i.takesPayload then some bs else none) := by
  unfold decodeWord at h
  split at h
  all_goals simp only [whenUnused_eq_some_iff, Option.bind_eq_some_iff, decodeMode_eq_some_iff, decodeFlag_eq_some_iff,
    List.forall_mem_cons, Option.some.injEq, reduceCtorEq] at h
  -- a mode or a flag
  case h_13 | h_14 | h_15 | h_24 | h_25 =>
    obtain ⟨m, hm, hunused, rfl⟩ := h
    simp [encode, plainWord, Instr.takesPayload, packWord_eq_iff, *]
  -- three operands, none unused
  case h_23 | h_27 | h_28 =>
    subst h
    simp [encode, plainWord, Instr.takesPayload, packWord_eq_iff, *]
  all_goals
    obtain ⟨hunused, rfl⟩ := h
    simp [encode, plainWord, Instr.takesPayload, packWord_eq_iff, *]

/-! ## The rows of the opcode table -/

theorem and_allOnes_byte (x : Byte) : x &&& 0xFF#8 = x := BitVec.and_allOnes

/-- A word matches a row when each of its fields matches the row's. -/
theorem and_eq_iff_fields {w m r : ReqWord} : w &&& m = r ↔
    opField w &&& m.extractLsb' 24 8 = r.extractLsb' 24 8 ∧ a0Field w &&& m.extractLsb' 16 8 = r.extractLsb' 16 8 ∧
      a1Field w &&& m.extractLsb' 8 8 = r.extractLsb' 8 8 ∧ a2Field w &&& m.extractLsb' 0 8 = r.extractLsb' 0 8 := by
  simp only [opField, a0Field, a1Field, a2Field, ← BitVec.extractLsb'_and]
  refine ⟨fun h => by simp [h], fun ⟨hop, h0, h1, h2⟩ => ?_⟩
  calc w &&& m
      = packWord (opField (w &&& m)) (a0Field (w &&& m)) (a1Field (w &&& m)) (a2Field (w &&& m)) := (packWord_fields _).symm
    _ = packWord (opField r) (a0Field r) (a1Field r) (a2Field r) := by
      simp only [opField, a0Field, a1Field, a2Field, hop, h0, h1, h2]
    _ = r := packWord_fields r

/-- Settles O4: by fields, the 28 rows are the conditions of the decoder's 28 branches. -/
theorem wordSpellsOperationIffRowMatches : Obligations.WordSpellsOperationIffRowMatches := by
  intro w bs
  simp only [requestRows, List.cons_append, List.nil_append, List.mem_cons, List.not_mem_nil, or_false, exists_eq_or_imp,
    ↓existsAndEq, and_eq_iff_fields, BitVec.reduceExtractLsb', and_allOnes_byte, BitVec.and_zero, true_and, and_self, and_true]
  unfold decodeWord
  split
  -- no operation has the `op`
  case h_29 => simp_all [BitVec.toNat_eq (x := opField w)]
  all_goals simp [BitVec.toNat_eq (x := opField w), *, whenUnused_isSome, bind_whenUnused_isSome, decodeMode_isSome,
    decodeFlag_isSome]

end Sys2Proof.Machine
end

section
/-! PROOF. The wire command bytes: what each decodes to, what spells it, and how the encoders assemble them (R69 to R72). -/

namespace Sys2Proof.Machine

/-! ## Encoding and decoding -/

theorem encode_command_takesPayload {x : Byte} {i : Instr} {t : CommandTable} {b : Byte} (h : encode x i = .command t b) :
    i.takesPayload = false := by
  cases i
  case sendData | print | bDrawBuffer => cases h
  all_goals rfl

/-- Each row's byte reads as the row in its own table, but for a coefficient byte that equals the exit byte. -/
theorem decodeCommand_encode {x : Byte} {i : Instr} {t : CommandTable} {b : Byte} (h : encode x i = .command t b)
    (hexit : t = .cmdBExt → b = x → i = .cmdBXExit) : decodeCommand x t b = some i := by
  cases i <;> cases h
  case cmdBXExit => simp [decodeCommand, decodeCommandBExt]
  case cmdBXTemp | cmdBXBias | cmdBXVop =>
    simpa [decodeCommand, decodeCommandBExt, decodeCoefficient_rows] using hexit
  all_goals simp [decodeCommand, decodeCommandA_rows, decodeCommandB_rows]

/-- In the extended table a byte is the exit byte or a coefficient. -/
theorem decodeCommandBExt_cases {x b : Byte} {i : Instr} (h : decodeCommandBExt x b = some i) :
    (b = x ∧ i = .cmdBXExit) ∨ decodeCoefficient b = some i := by
  unfold decodeCommandBExt at h
  split at h
  · next hb => exact .inl ⟨hb, (Option.some.inj h).symm⟩
  · exact .inr h

theorem decodeCoefficient_ne_exit {b : Byte} {i : Instr} (h : decodeCoefficient b = some i) : i ≠ .cmdBXExit := by
  unfold decodeCoefficient at h
  split_ifs at h <;> cases h <;> simp

/-- A byte is spelled by the row it is read as, whatever the exit byte. -/
theorem encode_of_decodeCommand {x : Byte} {t : CommandTable} {b : Byte} {i : Instr} (h : decodeCommand x t b = some i) :
    encode x i = .command t b := by
  cases t with
  | cmdA =>
    have henc := decodeCommandA_some b i h
    rw [encode_exit x 0 i (by rintro rfl; cases henc), henc]
  | cmdB =>
    have henc := decodeCommandB_some b i h
    rw [encode_exit x 0 i (by rintro rfl; cases henc), henc]
  | cmdBExt =>
    obtain ⟨rfl, rfl⟩ | hcoeff := decodeCommandBExt_cases h
    · rfl
    · rw [encode_exit x 0 i (decodeCoefficient_ne_exit hcoeff), decodeCoefficient_some b i hcoeff]

/-! ## The rows of Controller A -/

/-- Two rows that one byte matches agree on the bits both fix. -/
theorem and_mask_eq_of_match {b m m' r r' : Byte} (h : b &&& m = r) (h' : b &&& m' = r') : r &&& m' = r' &&& m := by
  rw [← h, ← h', BitVec.and_assoc, BitVec.and_assoc, BitVec.and_comm m]

theorem commandRowsA_differ : commandRowsA.Pairwise (fun row row' => row.1 &&& row'.2 ≠ row'.1 &&& row.2) := by decide

/-- Settles O6: the rows are the conditions of the decoder's branches, and two of them always differ on a bit both fix. -/
theorem commandRowsADisjoint : Obligations.CommandRowsADisjoint := by
  refine ⟨fun b => ?_, fun b row row' hrow hrow' h h' => ?_⟩
  · simp [decodeCommandA, commandRowsA, apply_ite Option.isSome, and_allOnes_byte]
  · have hsymm : Std.Symm (fun row row' : Byte × Byte => row.1 &&& row'.2 ≠ row'.1 &&& row.2) := ⟨fun _ _ => Ne.symm⟩
    by_contra hne
    exact commandRowsA_differ.forall hrow hrow' hne (and_mask_eq_of_match h h')

/-! ## Assembled bytes -/

/-- A base with a zero field, or an operand that fits the field: the row's fixed bits, then the low bits of the operand. -/
theorem zero_field_or_of_lt {n k : Nat} (hi : BitVec n) {x : BitVec (n + k)} (h : x.toNat < 2 ^ k) :
    (hi ++ 0#k) ||| x = hi ++ x.extractLsb' 0 k := by
  ext i hlt
  by_cases hik : i < k
  · simp [BitVec.getElem_append, hik, BitVec.getLsbD_eq_getElem hlt]
  · have hx : x[i] = false := by
      rw [BitVec.getElem_eq_testBit_toNat]
      exact Nat.testBit_lt_two_pow (h.trans_le (Nat.pow_le_pow_right (by decide) (not_lt.1 hik)))
    simp [BitVec.getElem_append, hik, hx]

/-- A table that reads the fixed bits `hi` and a field as a row reads an assembled byte as that row. -/
theorem reads_assembled {n k : Nat} {read : BitVec (n + k) → Option Instr} {row : BitVec k → Instr} (hi : BitVec n)
    (hrow : ∀ field, read (hi ++ field) = some (row field)) {x : BitVec (n + k)} (h : x.toNat < 2 ^ k) :
    read ((hi ++ 0#k) ||| x) = some (row (x.extractLsb' 0 k)) := by
  rw [zero_field_or_of_lt hi h, hrow]

/-- Settles O7: each row reads its fixed bits with any field, so it reads the assembled byte. -/
theorem assembledBytesAreTableRows : Obligations.AssembledBytesAreTableRows := by
  obtain ⟨hlo, hhi, -, -, hcontrast, -, hallOn, hinverse, -, -, hpage, -⟩ := decodeCommandA_rows
  obtain ⟨-, -, hpageB, hcol⟩ := decodeCommandB_rows
  obtain ⟨htemp, hbias, hvop⟩ := decodeCoefficient_rows
  refine ⟨fun page h => ?_, fun col h => ⟨?_, ?_⟩, fun k h => ?_, fun f h => ⟨?_, ?_⟩, fun page h => ?_, fun col h => ?_,
    fun v h => ?_, fun t h => ?_, fun b h => ?_⟩
  · exact reads_assembled (k := 3) 0b10110#5 hpage h
  · have hnibble : (col >>> 4).toNat < 2 ^ 4 := by have := col.isLt; simp [Nat.shiftRight_eq_div_pow]; omega
    have hfield : (col >>> 4).extractLsb' 0 4 = col.extractLsb' 4 4 := by ext; simp
    exact hfield ▸ reads_assembled (k := 4) 0b0001#4 hhi hnibble
  · have hnibble : col &&& 0x0F#8 = byteAColLo (col.extractLsb' 0 4) := by revert col; decide
    rw [hnibble, hlo]
  · exact reads_assembled (k := 5) 0b100#3 hcontrast h
  · exact reads_assembled (k := 1) 0b1010011#7 hinverse h
  · exact reads_assembled (k := 1) 0b1010010#7 hallOn h
  · exact reads_assembled (k := 3) 0b01000#5 hpageB (h.trans (by decide))
  · exact reads_assembled (k := 7) 0b1#1 hcol (h.trans (by decide))
  · exact reads_assembled (k := 7) 0b1#1 hvop (h.trans (by decide))
  · exact reads_assembled (k := 2) 0b000001#6 htemp h
  · exact reads_assembled (k := 3) 0b00010#5 hbias h

end Sys2Proof.Machine
end

section
/-! PROOF. The whole decoder: round trips, words of the table, and reserved operations (R61 to R64, R69 to R71). -/

namespace Sys2Proof.Machine

theorem encode_word_payloadSuits {x : Byte} {i : Instr} {w : ReqWord} {p : Option (List Byte)} (h : encode x i = .word w p)
    (hwf : i.wf = true) : payloadSuits i p = true := by
  cases i <;> cases h
  case bDrawBuffer => exact hwf
  all_goals rfl

/-- Settles O2: a request that spells an instruction is a word with its payload, or a byte of the row's own table. -/
theorem encodeThenDecode : Obligations.EncodeThenDecode := by
  intro c i hwf hexists hexit
  cases henc : encode c.bExtExit i with
  | word w p => exact decodeRequest_word (decodeWord_encode henc) hexists (encode_word_payloadSuits henc hwf)
  | command t b =>
    have hread := decodeCommand_encode henc (by rintro rfl rfl; exact hexit henc)
    exact decodeRequest_command hread hexists (encode_command_takesPayload henc)

/-- Settles O3: for words by the decoder's branches, for command bytes by the rows of each table. -/
theorem decodeThenEncode : Obligations.DecodeThenEncode :=
  ⟨fun _ _ _ _ => encode_of_decodeWord, fun _ _ _ _ => encode_of_decodeCommand⟩

/-- Settles O1: the seven words are closed, so the decoder runs on them. -/
theorem tableWordsDecode : Obligations.TableWordsDecode := by
  unfold Obligations.TableWordsDecode
  decide

/-! ## Reserved operations -/

/-- The numbers of `op` that R64 reserves. -/
def ReservedOp (op : Byte) : Prop :=
  op = 0x00#8 ∨ (0x0A ≤ op.toNat ∧ op.toNat ≤ 0x0F) ∨ (0x1B ≤ op.toNat ∧ op.toNat ≤ 0x1F) ∨ 0x28 ≤ op.toNat

theorem decodeWord_reservedOp {w : ReqWord} (h : ReservedOp (opField w)) (bs : List Byte) : decodeWord w bs = none := by
  unfold ReservedOp at h
  unfold decodeWord
  split
  case h_29 => rfl
  all_goals bv_omega

/-- Settles O5: a word with a reserved `op` takes no branch of the decoder, so a step refuses it as illegal. -/
theorem reservedOpIsRefused : Obligations.ReservedOpIsRefused := by
  intro s w p rest hrun hr hop
  have hillegal : decodeRequest s.cfg (.word w p) = .error .illegalRequest := by
    simp [decodeRequest, decodeWord_reservedOp hop]
  obtain ⟨hh, -⟩ | ⟨e, -, he, hstep⟩ | ⟨i, -, hi, -⟩ := step_cases hr
  · simp [hrun] at hh
  · cases hillegal.symm.trans he
    exact hstep
  · cases hillegal.symm.trans hi

end Sys2Proof.Machine
end

section
/-! PROOF. The wire command bytes as instructions of the block: each sends its byte (R69 to R71, R112; log entry 10). -/

namespace Sys2Proof.Machine

/-- The variant whose controller has the table (R69 to R71). -/
def variantOf : CommandTable → Variant
  | .cmdA => .a
  | .cmdB => .b
  | .cmdBExt => .b

/-- What a row of a table does on a block of parameters `c`: it belongs to the table's variant and sends the byte `b`. -/
structure SendsByte (c : Config) (i : Instr) (t : CommandTable) (b : Byte) : Prop where
  home : i.home = some (variantOf t)
  suits : suitsOf i = true
  value : valueOf i c = 0
  runs : Runs c (bodyOf i) (commandEvents c.link b)

theorem encode_command_sendsByte {c : Config} {i : Instr} {t : CommandTable} {b : Byte}
    (h : encode c.bExtExit i = .command t b) : SendsByte c i t b := by
  cases i <;> cases h
  case cmdBXExit => exact ⟨rfl, rfl, rfl, Runs.withConfig (f := fun c => sendCommand c.bExtExit) (sendCommand_runs c _)⟩
  all_goals exact ⟨rfl, rfl, rfl, sendCommand_runs c _⟩

theorem exec_sends_byte {s : State} {i : Instr} {t : CommandTable} {b : Byte} (h : encode s.cfg.bExtExit i = .command t b)
    (hrun : s.halted = false) (hv : s.cfg.variant = variantOf t)
    (hok : AnswersOk (commandEvents s.cfg.link b) s) : exec i s = .next (afterOk s (commandEvents s.cfg.link b)) := by
  obtain ⟨hhome, hsuits, hvalue, hruns⟩ := encode_command_sendsByte h
  have ha : Accepts i s := ⟨hrun, by rw [hhome]; exact existsOn_some.2 hv⟩
  rw [exec_runs ha hsuits hruns hok, hvalue]
  rfl

/-- Settles O34: the rows of CMD_A, whose bytes do not depend on the exit byte. -/
theorem commandRowsOfASendTheirByte : Obligations.CommandRowsOfASendTheirByte := by
  intro s i b x hrun hv h hok
  have henc : encode s.cfg.bExtExit i = .command .cmdA b := by
    rw [encode_exit _ x i (by rintro rfl; cases h), h]
  exact exec_sends_byte henc hrun hv hok

/-- Settles O35: the rows of CMD_B and CMD_B_EXT, the exit byte being the block's own. -/
theorem commandRowsOfBSendTheirByte : Obligations.CommandRowsOfBSendTheirByte := by
  intro s i b hrun hv h hok
  obtain h | h := h
  · exact exec_sends_byte h hrun hv hok
  · exact exec_sends_byte h hrun hv hok

end Sys2Proof.Machine
end

section
/-! PROOF. The shifter: the 24 events of a byte, in the order of R102, and how `SHIFT_BYTE` stops at a failed one (R100, R101). -/

namespace Sys2Proof.Machine

/-! ## The events of a byte -/

theorem byteEvents_length (b : Byte) : (byteEvents b).length = 24 := rfl

/-- Bit `7 - j` of the byte has the events at `3j`, `3j + 1` and `3j + 2`. -/
theorem byteEvents_triple (b : Byte) {j : Nat} (hj : j < 8) :
    (byteEvents b)[3 * j]? = some (.set .data (b.getLsbD (7 - j))) ∧
      (byteEvents b)[3 * j + 1]? = some (.set .clk true) ∧ (byteEvents b)[3 * j + 2]? = some (.set .clk false) := by
  interval_cases j <;> exact ⟨rfl, rfl, rfl⟩

/-- The last of a byte's events are those of bit 0: they leave it on the data line and the clock low. -/
theorem performEvents_byteEvents_lines (s : State) (b : Byte) :
    (performEvents s (byteEvents b)).data = .level (b.getLsbD 0) ∧
      (performEvents s (byteEvents b)).clk = .level false := by
  rw [byteEvents, performEvents_append]
  exact ⟨rfl, rfl⟩

/-- R102 writes the bit `n` of a byte as a shift and a mask. -/
theorem getLsbD_eq_decide_shift_and_one (b : Byte) (n : Nat) : b.getLsbD n = decide ((b >>> n) &&& 1#8 = 1#8) := by
  have hbit : (b >>> n) &&& 1#8 = (BitVec.ofBool (b.getLsbD n)).setWidth 8 := by
    rw [BitVec.and_one_eq_setWidth_ofBool_getLsbD, BitVec.getLsbD_ushiftRight, Nat.add_zero]
  rw [hbit]
  cases b.getLsbD n <;> rfl

/-! ## `SHIFT_BYTE` -/

/-- `SHIFT_BYTE` is checked for nothing but `halted`: every block has it, and it carries no payload (R101). -/
theorem exec_shiftByte {s : State} (b : Byte) (hrun : s.halted = false) :
    exec (.shiftByte b) s = .next (finish 0 (emitAll (byteEvents b) s)) := by
  rw [exec_body ⟨hrun, rfl⟩ rfl, ← shiftByte_straight]
  rfl

theorem exec_shiftByte_ok {s : State} {b : Byte} (hrun : s.halted = false) (hok : AnswersOk (byteEvents b) s) :
    exec (.shiftByte b) s = .next (afterOk s (byteEvents b)) := by
  rw [exec_shiftByte b hrun, emitAll_ok hok]
  rfl

/-- The first failed event ends `SHIFT_BYTE`: the events before it were performed, none follows it (R101). -/
theorem exec_shiftByte_fail {s : State} {b : Byte} {k : Nat} {e : Event} (hrun : s.halted = false) (hf : FirstFailAt k s)
    (he : (byteEvents b)[k]? = some e) :
    exec (.shiftByte b) s = .next ((failEvent (performEvents s ((byteEvents b).take k)) e).respond .linkFailure 0) := by
  obtain ⟨hk, hget⟩ := List.getElem?_eq_some_iff.1 he
  have hsplit : byteEvents b = (byteEvents b).take k ++ e :: (byteEvents b).drop (k + 1) := by
    rw [← hget, ← List.drop_eq_getElem_cons hk, List.take_append_drop]
  have hfallible : ∀ e ∈ byteEvents b, e.fallible = true := byteEvents_fallible b
  have hbefore : answersTaken ((byteEvents b).take k) = k := by
    rw [answersTaken_of_fallible (fun e he => hfallible e (List.mem_of_mem_take he)), List.length_take_of_le hk.le]
  have hstop : emitAll (byteEvents b) s = (failEvent (performEvents s ((byteEvents b).take k)) e, some .linkFailure) := by
    conv_lhs => rw [hsplit]
    exact emitAll_fail (hfallible e (List.mem_of_getElem? he)) (hbefore.symm ▸ hf)
  rw [exec_shiftByte b hrun, hstop]
  rfl

/-- However it ends, `SHIFT_BYTE` drives the clock and the data line alone (R101). -/
theorem exec_shiftByte_keeps_lines {s t : State} {b : Byte} (h : exec (.shiftByte b) s = .next t) :
    t.cs = s.cs ∧ t.dc = s.dc ∧ t.rst = s.rst := by
  have hkeeps : ∀ l, l ≠ .clk → l ≠ .data → t.line l = s.line l := fun l hclk hdata =>
    exec_keeps_line h (fun v he => ((shiftEvent_set s.cfg l v).1 he).elim hclk hdata)
  exact ⟨hkeeps .cs nofun nofun, hkeeps .dc nofun nofun, hkeeps .rst nofun nofun⟩

/-- Settles O12: the two ways a straight line of events can go, with the lines it drives and the three it leaves. -/
theorem shiftByteEmitsOrStops : Obligations.ShiftByteEmitsOrStops := by
  intro s b hrun
  refine ⟨fun hok => ?_, fun k l v hf he => ?_⟩
  · have hexec := exec_shiftByte_ok hrun hok
    obtain ⟨hdata, hclk⟩ := performEvents_byteEvents_lines s b
    exact ⟨hexec, hdata, hclk, exec_shiftByte_keeps_lines hexec⟩
  · have hexec := exec_shiftByte_fail hrun hf he
    obtain ⟨hcs, hdc, hrst⟩ := exec_shiftByte_keeps_lines hexec
    refine ⟨_, hexec, rfl, ?_, ?_, hcs, hdc, hrst, ?_⟩
    · rw [State.respond_trace, failEvent_eq _ _ rfl, applyEntry_trace, performEvents_trace]
      rfl
    · rw [State.respond_line]
      exact State.setLine_line_same _ l _
    · rw [State.respond_halted, failEvent_eq _ _ rfl, applyEntry_halted, performEvents_halted, hrun]

/-- Settles O13: the events of the byte, taken in triples. -/
theorem shiftByteClocksMsbFirst : Obligations.ShiftByteClocksMsbFirst := by
  intro s b hrun hok
  refine ⟨_, byteEvents b, exec_shiftByte_ok hrun hok, performEvents_trace s _, byteEvents_length b, fun j hj => ?_⟩
  rw [← getLsbD_eq_decide_shift_and_one]
  exact byteEvents_triple b hj

end Sys2Proof.Machine
end

section
/-! PROOF. The idle levels after an operation that ended `OK` (R290). -/

namespace Sys2Proof.Machine

theorem responseOf_ok {v : Value} {r : Option Raise} : (responseOf v r).outcome = .ok ↔ r = none := by
  rcases r with _ | (_ | _ | _) <;> simp [responseOf, outcomeOf]

/-- Only an instruction whose body ran to its normal end responds `OK`, and it leaves what the body left. -/
theorem body_of_exec_ok {i : Instr} {s t : State} {v : Value} (h : exec i s = .next t) (ho : t.response = some ⟨.ok, v⟩) :
    ∃ u, bodyOf i s = (u, none) ∧ t = u.respond .ok (valueOf i s.cfg) := by
  obtain ⟨-, hx⟩ | ⟨-, -, hx⟩ | ⟨-, -, hx⟩ | ⟨-, -, ha, hp, -, -⟩ := exec_cases i s
  · cases hx.symm.trans h; cases ho
  · cases hx.symm.trans h; cases ho
  · cases hx.symm.trans h; cases ho
  · cases (exec_body ha hp).symm.trans h
    generalize bodyOf i s = out at ho ⊢
    obtain ⟨u, r⟩ := out
    rw [finish_response, Option.some_inj] at ho
    obtain rfl := responseOf_ok.1 (congrArg Response.outcome ho)
    exact ⟨u, rfl, rfl⟩

/-- Settles O50: every body that ends normally keeps the two levels, and the response changes no line. -/
theorem idleLevelsAfterOk : Obligations.IdleLevelsAfterOk := by
  rintro i s t hclk hcs h - ⟨v, ho⟩
  obtain ⟨u, hbody, rfl⟩ := body_of_exec_ok h ho
  obtain ⟨keepsClk, keepsCs⟩ := bodyOf_keeps i
  have hclk' := keepsClk s hclk (by rw [hbody])
  have hcs' := keepsCs s hcs (by rw [hbody])
  rw [hbody] at hclk' hcs'
  exact ⟨hclk', hcs'⟩

end Sys2Proof.Machine
end

section
/-! PROOF. The channel: one chip-select window for each `SEND_COMMAND` and `SEND_DATA`, how many events it has, how it stops at a failed
one, and what the receiver hears (R110 to R118, R66 to R68). -/

namespace Sys2Proof.Machine

/-! ## The events of a window -/

/-- The link alone decides how many events the frames of a window have, from the number of their bytes. -/
def frameCount (link : LinkStyle) (n : Nat) : Nat :=
  match link with
  | .lineBitbang => 1 + 24 * n
  | .lineHw => 2
  | .inbandBitbang => 27 * n

theorem frameEvents_length (link : LinkStyle) (k : Bit) (bs : List Byte) :
    (frameEvents link k bs).length = frameCount link bs.length := by
  have hmarked : ∀ b : Byte, (bitEvents k ++ byteEvents b).length = 27 := fun _ => rfl
  cases link with
  | lineBitbang => simp [frameEvents, frameCount, List.length_flatMap, byteEvents_length, Nat.mul_comm, Nat.add_comm]
  | lineHw => rfl
  | inbandBitbang =>
    simp only [frameEvents, frameCount, List.length_flatMap, hmarked, List.map_const', List.sum_replicate_nat, Nat.mul_comm]

theorem windowEvents_length (link : LinkStyle) (k : Bit) (bs : List Byte) :
    (windowEvents link k bs).length = frameCount link bs.length + 2 := by
  simp [windowEvents, frameEvents_length]

/-! ## Both operations with every answer `ok` -/

/-- Settles O14: the command's window runs to its end, and the operation is checked for nothing but `halted`. -/
theorem sendCommandEmitsOneWindow : Obligations.SendCommandEmitsOneWindow := fun s b hrun hok =>
  exec_runs (i := .sendCommand b) ⟨hrun, rfl⟩ rfl (sendCommand_runs s.cfg b) hok

/-- Settles O15: the burst's window runs to its end, whatever the number of its bytes. -/
theorem sendDataEmitsOneWindow : Obligations.SendDataEmitsOneWindow := fun s bs hrun hok =>
  exec_runs (i := .sendData bs) ⟨hrun, rfl⟩ rfl (sendData_runs s.cfg bs) hok

theorem afterOk_trace (s : State) (es : List Event) : (afterOk s es).trace = s.trace ++ okEntries es :=
  performEvents_trace s es

theorem afterOk_trace_length (s : State) (es : List Event) :
    (afterOk s es).trace.length = s.trace.length + es.length := by
  simp [afterOk_trace, okEntries]

/-- Settles O16: the trace grows by the window, whose length the link decides. -/
theorem windowEventCounts : Obligations.WindowEventCounts := by
  intro s b bs hrun
  refine ⟨fun hok => ⟨_, sendCommandEmitsOneWindow s b hrun hok, ?_⟩,
    fun hok => ⟨_, sendDataEmitsOneWindow s bs hrun hok, ?_⟩⟩
  · rw [afterOk_trace_length, commandEvents, windowEvents_length]
    cases s.cfg.link <;> rfl
  · rw [afterOk_trace_length, dataEvents, windowEvents_length]
    cases s.cfg.link <;> simp only [frameCount] <;> omega

/-- Settles O17: what stands between the two events of chip-select are the events of the frames, which drive other lines. -/
theorem burstHoldsChipSelect : Obligations.BurstHoldsChipSelect := fun s bs hrun hok =>
  ⟨_, frameEvents s.cfg.link true bs, sendDataEmitsOneWindow s bs hrun hok, afterOk_trace s _,
    fun v hv => frameEvents_no_cs _ _ _ _ hv v rfl⟩

/-! ## A failed event -/

/-- Where every event of a list is answered, as many answers are taken as events were emitted. -/
theorem answersTaken_take {es : List Event} (h : ∀ e ∈ es, e.fallible = true) {n : Nat} (hn : n ≤ es.length) :
    answersTaken (es.take n) = n := by
  rw [answersTaken_of_fallible (fun e he => h e (List.mem_of_mem_take he)), List.length_take_of_le hn]

/-- A window stops at its first failed event: before the closing release with one release more, at it with nothing more (R110, R115). -/
theorem window_firstFail {k : Bit} {bs : List Byte} {s : State} {n : Nat} {e : Event} (hf : FirstFailAt n s)
    (he : (windowEvents s.cfg.link k bs)[n]? = some e) :
    (n + 1 < (windowEvents s.cfg.link k bs).length → withCs (sendFrames k bs) s =
      (emitSet .cs true (failEvent (performEvents s ((windowEvents s.cfg.link k bs).take n)) e), some .linkFailure)) ∧
    (n + 1 = (windowEvents s.cfg.link k bs).length → withCs (sendFrames k bs) s =
      (failEvent (performEvents s ((windowEvents s.cfg.link k bs).take n)) e, some .linkFailure)) := by
  have hfallible := windowEvents_fallible s.cfg.link k bs
  have htaken := answersTaken_take hfallible (List.getElem?_eq_some_iff.1 he).1.le
  have hefallible := hfallible e (List.mem_of_getElem? he)
  rw [windowEvents_eq_append] at he htaken ⊢
  generalize hopened : Event.set .cs false :: frameEvents s.cfg.link k bs = opened at he htaken ⊢
  rw [List.length_append, List.length_singleton, Nat.add_lt_add_iff_right, Nat.add_right_cancel_iff]
  refine ⟨fun hlt => ?_, ?_⟩
  · rw [List.take_append_of_le_length hlt.le] at htaken ⊢
    rw [List.getElem?_append_left hlt] at he
    obtain ⟨_, hget⟩ := List.getElem?_eq_some_iff.1 he
    have hsplit : opened = opened.take n ++ e :: opened.drop (n + 1) := by
      rw [← hget, ← List.drop_eq_getElem_cons hlt, List.take_append_drop]
    exact window_fails hefallible (hopened.trans hsplit) (htaken.symm ▸ hf)
  · rintro rfl
    rw [List.take_left] at htaken ⊢
    rw [List.getElem?_concat_length, Option.some_inj] at he
    subst he hopened
    exact window_close_fails (htaken.symm ▸ hf)

/-- The two channel operations are one: a window of one kind, checked for nothing but `halted` (R112, R113). -/
theorem channel_is_window {i : Instr} (hi : (∃ b, i = .sendCommand b) ∨ ∃ bs, i = .sendData bs) : ∃ k bs,
    (∀ link, channelWindow link i = windowEvents link k bs) ∧
      ∀ s : State, s.halted = false → exec i s = .next (finish 0 (withCs (sendFrames k bs) s)) := by
  obtain ⟨b, rfl⟩ | ⟨bs, rfl⟩ := hi
  · exact ⟨dcCmd, [b], fun _ => rfl, fun s hrun => exec_body ⟨hrun, rfl⟩ rfl⟩
  · exact ⟨dcData, bs, fun _ => rfl, fun s hrun => exec_body ⟨hrun, rfl⟩ rfl⟩

/-- Settles O18: both operations are a window, and a link failure neither halts the block nor carries a value. -/
theorem channelFailureReleasesOnce : Obligations.ChannelFailureReleasesOnce := by
  intro s i n e hi hrun hf he
  obtain ⟨k, bs, hwindow, hexec⟩ := channel_is_window hi
  rw [hwindow] at he ⊢
  obtain ⟨hbefore, hclosing⟩ := window_firstFail hf he
  refine ⟨fun hlt => ?_, fun hlast => ?_⟩
  · rw [hexec s hrun, hbefore hlt]
    rfl
  · rw [hexec s hrun, hclosing hlast]
    rfl

/-! ## What the receiver hears -/

/-- Settles O19: a command's window shows its one frame from any scan in step, and leaves the link so. -/
theorem receiverHearsCommand : Obligations.ReceiverHearsCommand := fun s b hrun hsync hok =>
  ⟨_, sendCommandEmitsOneWindow s b hrun hok, hsync.afterOk (Shows.command s.cfg.link b)⟩

/-- Settles O20: a burst's window shows its bytes in order from any scan in step, and leaves the link so. -/
theorem receiverHearsBurst : Obligations.ReceiverHearsBurst := fun s bs hrun hsync hok =>
  ⟨_, sendDataEmitsOneWindow s bs hrun hok, hsync.afterOk (Shows.data s.cfg.link bs)⟩

end Sys2Proof.Machine
end

section
/-! PROOF. Controller A's encoder: the command bytes of each operation in windows of their own, and the operands it rejects (R130 to
R139, R220, R221). -/

namespace Sys2Proof.Machine

/-! ## An operation that one variant has -/

theorem accepts_of_home {i : Instr} {v : Variant} {s : State} (hhome : i.home = some v) (hrun : s.halted = false)
    (hv : s.cfg.variant = v) : Accepts i s :=
  ⟨hrun, by rw [hhome]; exact existsOn_some.2 hv⟩

/-- Only the two resolution queries report a value, and every block has those. -/
theorem valueOf_of_home {i : Instr} {v : Variant} (hhome : i.home = some v) (c : Config) : valueOf i c = 0 := by
  cases i
  case getPixelRes => cases hhome
  case getCharRes => cases hhome
  all_goals rfl

/-- On a running block of its variant, an encoder operation whose body emits the events `es` ends `OK` after them. -/
theorem exec_encoder_ok {i : Instr} {v : Variant} {s : State} {es : List Event} (hhome : i.home = some v)
    (hsuits : suitsOf i = true) (hrun : s.halted = false) (hv : s.cfg.variant = v) (hbody : Runs s.cfg (bodyOf i) es)
    (hok : AnswersOk es s) : exec i s = .next (afterOk s es) := by
  rw [exec_runs (accepts_of_home hhome hrun hv) hsuits hbody hok, valueOf_of_home hhome]
  rfl

/-- A body that starts with a range check raises at once on an operand that is not below the limit (R242). -/
theorem checked_violates {x : Byte} {limit : Nat} (h : limit ≤ x.toNat) (a : Act) (s : State) :
    andThen (require (below x limit)) a s = (s, some .preconditionViolation) := by
  have hbelow : below x limit = false := decide_eq_false (Nat.not_lt.2 h)
  rw [hbelow]
  rfl

/-- An operation that raises a precondition violation at once halts the block and changes nothing else (R24, R242). -/
theorem exec_violates {i : Instr} {s : State} (ha : Accepts i s) (hsuits : suitsOf i = true)
    (hbody : bodyOf i s = (s, some .preconditionViolation)) :
    exec i s = .next (s.halt.respond .preconditionViolation 0) := by
  rw [exec_body ha hsuits, hbody]
  rfl

/-! ## Controller A -/

/-- Settles O21: each body is one window, after a range check where there is an operand to check. -/
theorem encoderASendsOneCommand : Obligations.EncoderASendsOneCommand := by
  intro s x f hrun hv
  have sends {i : Instr} {b : Byte} (hhome : i.home = some .a) (hsuits : suitsOf i = true)
      (hbody : Runs s.cfg (bodyOf i) (commandEvents s.cfg.link b)) :
      AnswersOk (commandEvents s.cfg.link b) s → exec i s = .next (afterOk s (commandEvents s.cfg.link b)) :=
    exec_encoder_ok hhome hsuits hrun hv hbody
  refine ⟨fun hx => ?setPage, fun hx => ?setContrast, fun hx => ?pageOut, fun hx => ?contrastOut, ?flipH, ?flipV, ?powerOn,
    ?displayEnable, ?scanStart⟩
  case setPage => exact sends rfl rfl (aSetPage_runs _ hx)
  case setContrast => exact sends rfl rfl (aSetContrast_runs _ hx)
  case pageOut => exact exec_violates (accepts_of_home rfl hrun hv) rfl (checked_violates hx _ s)
  case contrastOut => exact exec_violates (accepts_of_home rfl hrun hv) rfl (checked_violates hx _ s)
  all_goals exact sends rfl rfl (sendCommand_runs _ _)

/-- Settles O22: a column in range passes the check, and the body is two windows. -/
theorem columnASendsHighNibbleFirst : Obligations.ColumnASendsHighNibbleFirst := fun s _ hrun hv hcol hok =>
  exec_encoder_ok rfl rfl hrun hv (aSetColumn_runs s.cfg hcol) hok

/-- The bytes assembled from the two columns of the mode table are those the claim lists, in the same order (R133). -/
theorem assembled_modeBytesA (m : DisplayMode) : [byteForInverseA m, byteForAllOnA m] = modeBytesA m := by
  cases m <;> rfl

/-- Settles O23: the body sends the two assembled bytes, which are the row of the mode. -/
theorem modeASendsTwoCommands : Obligations.ModeASendsTwoCommands := by
  intro s m hrun hv hok
  rw [← assembled_modeBytesA m] at hok ⊢
  exact exec_encoder_ok rfl rfl hrun hv (aSetMode_runs s.cfg m) hok

/-- Controller A's reset pulse: its own active level, and waits of 50, 5 and 10 ms (R220). -/
theorem pulseEvents_of_variant_a {c : Config} (hv : c.variant = .a) :
    pulseEvents c = [.set .rst (!c.rstActA), .delay 50, .set .rst c.rstActA, .delay 5, .set .rst (!c.rstActA), .delay 10] := by
  simp [pulseEvents, rstAct, rstTPre, rstTPulse, rstTPost, hv]

/-- Settles O24: `A_INIT` is the pulse of variant A, then what `A_POWER_UP` is. -/
theorem powerUpAndInitA : Obligations.PowerUpAndInitA := by
  intro s hrun hv
  rw [← pulseEvents_of_variant_a hv]
  exact ⟨exec_encoder_ok rfl rfl hrun hv (aPowerUp_runs s.cfg), exec_encoder_ok rfl rfl hrun hv (aInit_runs s.cfg)⟩

end Sys2Proof.Machine
end

section
/-! PROOF. Controller B's encoder: the command bytes of each operation in windows of their own, the operands and buffers it rejects, and
the frames of `B_DRAW_BUFFER` (R160 to R166, R220, R222). -/

namespace Sys2Proof.Machine

/-! ## One command -/

/-- A byte that agrees with the table of modes in the row of `m` is the one assembled for `m` (R163). -/
theorem eq_byteForModeB {m : DisplayMode} {y : Byte} (hblank : m = .blank → y = 0x08#8) (hnormal : m = .normal → y = 0x0C#8)
    (hfilled : m = .filled → y = 0x09#8) (hinverse : m = .inverse → y = 0x0D#8) : y = byteForModeB m :=
  match m with
  | .blank => hblank rfl
  | .normal => hnormal rfl
  | .filled => hfilled rfl
  | .inverse => hinverse rfl

/-- Settles O25: each body is one window, after a range check where there is an operand to check. -/
theorem encoderBSendsOneCommand : Obligations.EncoderBSendsOneCommand := by
  intro s x f m hrun hv
  refine ⟨fun hx => ?setPage, fun hx => ?setColumn, fun hx => ?pageOut, fun hx => ?columnOut,
    fun y hblank hnormal hfilled hinverse => ?setMode, ?setAddressing⟩
  case setPage => exact exec_encoder_ok rfl rfl hrun hv (bSetPage_runs _ hx)
  case setColumn => exact exec_encoder_ok rfl rfl hrun hv (bSetColumn_runs _ hx)
  case pageOut => exact exec_violates (accepts_of_home rfl hrun hv) rfl (checked_violates hx _ s)
  case columnOut => exact exec_violates (accepts_of_home rfl hrun hv) rfl (checked_violates hx _ s)
  case setMode =>
    rw [eq_byteForModeB hblank hnormal hfilled hinverse]
    exact exec_encoder_ok rfl rfl hrun hv (sendCommand_runs _ _)
  case setAddressing => exact exec_encoder_ok rfl rfl hrun hv (sendCommand_runs _ _)

/-! ## The sequences -/

/-- Settles O26: coefficients in range pass the three checks, and the body is the bracket's five windows. -/
theorem coeffsSendBracket : Obligations.CoeffsSendBracket := fun s _ _ _ hrun hv hvolt htemp hbias hok =>
  exec_encoder_ok rfl rfl hrun hv (bSetCoeffs_runs s.cfg hvolt htemp hbias) hok

theorem fitsFrame_iff {buf : List Byte} : fitsFrame buf = true ↔ buf.length = 504 := beq_iff_eq

/-- A buffer of the frame's length is drawn in the seven windows of `drawEvents`, the buffer's among them (R165). -/
theorem exec_bDrawBuffer_ok {s : State} {buf : List Byte} (hrun : s.halted = false) (hv : s.cfg.variant = .b)
    (hlen : buf.length = 504) (hok : AnswersOk (drawEvents s.cfg buf) s) :
    exec (.bDrawBuffer buf) s = .next (afterOk s (drawEvents s.cfg buf)) :=
  exec_encoder_ok rfl (fitsFrame_iff.2 hlen) hrun hv (bDrawBuffer_runs s.cfg hv buf) hok

/-- Settles O27: the length of the buffer is the check of the payload, which comes before the body (R63, R246). -/
theorem drawBufferSequence : Obligations.DrawBufferSequence := fun _ _ hrun hv =>
  ⟨exec_bDrawBuffer_ok hrun hv, fun hlen =>
    exec_badPayload (accepts_of_home rfl hrun hv) (Bool.eq_false_iff.2 (mt fitsFrame_iff.1 hlen))⟩

/-- Controller B's reset pulse: the active level is the opposite of A's, the first wait 10 ms, the others parameters (R220). -/
theorem pulseEvents_of_variant_b {c : Config} (hv : c.variant = .b) :
    pulseEvents c = [.set .rst c.rstActA, .delay 10, .set .rst (!c.rstActA), .delay c.rstTPulseB, .set .rst c.rstActA,
      .delay c.rstTPostB] := by
  simp [pulseEvents, rstAct, rstTPre, rstTPulse, rstTPost, hv]

/-- Settles O28: `B_INIT` is the pulse of variant B, then what `B_POWER_UP` is. -/
theorem powerUpAndInitB : Obligations.PowerUpAndInitB := by
  intro s v t b hrun hv hvolt htemp hbias
  rw [← pulseEvents_of_variant_b hv]
  exact ⟨exec_encoder_ok rfl rfl hrun hv (bPowerUp_runs s.cfg hvolt htemp hbias),
    exec_encoder_ok rfl rfl hrun hv (bInit_runs s.cfg hvolt htemp hbias)⟩

/-! ## What the receiver hears -/

/-- The windows of `B_DRAW_BUFFER` show three commands, the buffer as data, and three commands (R165). -/
theorem Shows.draw (c : Config) (buf : List Byte) : Shows c.link (drawEvents c buf)
    ([0x22#8, 0x40#8, 0x80#8].map commandFrame ++ buf.map dataFrame ++ [0x20#8, 0x40#8, 0x80#8].map commandFrame) :=
  ((Shows.commands _ _).append (Shows.data _ _)).append (Shows.commands _ _)

/-- Settles O56: a receiver in step hears of the drawing what its windows show. -/
theorem drawBufferFrames : Obligations.DrawBufferFrames := by
  intro s buf hrun hv hsync hlen hok
  obtain ⟨hwire, -⟩ := hsync.afterOk (Shows.draw s.cfg buf)
  refine ⟨_, exec_bDrawBuffer_ok hrun hv hlen hok, ?_⟩
  simp only [List.append_assoc] at hwire ⊢
  exact hwire

end Sys2Proof.Machine
end

section
/-! PROOF. The façade: positioning, clearing and printing with every answer `ok`, what the receiver hears of them, and the two resolution
queries (R190 to R197). -/

namespace Sys2Proof.Machine

/-! ## Positioning, clearing, printing -/

/-- The bounds the claims spell out are the block's own parameters `W` and `P` (R6, R190). -/
theorem inBounds_iff {v : Variant} {col page : Byte} :
    InBounds v col page ↔ col.toNat < width v ∧ page.toNat < pages v := by
  cases v <;> exact Iff.rfl

/-- Settles O29: a position in bounds passes both checks, and the body is the page's window, then the column's. -/
theorem setPositionSendsPageThenColumn : Obligations.SetPositionSendsPageThenColumn := by
  intro s col page hrun hbounds hok
  obtain ⟨hcol, hpage⟩ := inBounds_iff.1 hbounds
  exact exec_runs (i := .setPosition col page) ⟨hrun, rfl⟩ rfl (setPosition_runs s.cfg hcol hpage) hok

/-- Settles O30: the origin is in bounds on both blocks, so the body runs to its end. -/
theorem clearSequence : Obligations.ClearSequence := fun s hrun hok =>
  exec_runs (i := .clear) ⟨hrun, rfl⟩ rfl (clear_runs s.cfg) hok

theorem textEvents_singleton (c : Config) (code : Byte) : textEvents c [code] = charEvents c code :=
  List.flatMap_singleton ..

/-- Settles O31: each character's check passes, and a text of one character has that character's events. -/
theorem printWritesGlyphsAndGaps : Obligations.PrintWritesGlyphsAndGaps := by
  intro s bs hrun hglyphs hok
  refine ⟨exec_runs (i := .print bs) ⟨hrun, rfl⟩ rfl (print_runs s.cfg hglyphs) hok, ?_⟩
  rintro code rfl
  have hglyph : Representable code := hglyphs code (List.mem_singleton_self code)
  rw [textEvents_singleton] at hok
  exact exec_runs (i := .printChar code) ⟨hrun, rfl⟩ rfl (printChar_runs s.cfg hglyph) hok

/-! ## What the receiver hears -/

@[simp] theorem afterOk_cfg (s : State) (es : List Event) : (afterOk s es).cfg = s.cfg := performEvents_cfg s es

@[simp] theorem afterOk_halted (s : State) (es : List Event) : (afterOk s es).halted = s.halted := performEvents_halted s es

/-- Answers that are all `ok` over two operations are so over the first, and over the second from the state the first leaves. -/
theorem AnswersOk.splitAfterOk {es fs : List Event} {s : State} (h : AnswersOk (es ++ fs) s) :
    AnswersOk es s ∧ AnswersOk fs (afterOk s es) := h.split

/-- Settles O53: each of the three operations shows its frames from wherever the one before it left the receiver, in step. -/
theorem positioningIsIdempotent : Obligations.PositioningIsIdempotent := by
  intro s col page x hrun hsync hbounds hok
  have hposition := Shows.position s.cfg col page
  rw [List.append_assoc] at hok
  obtain ⟨hokFirst, hok⟩ := hok.splitAfterOk
  obtain ⟨hokData, hokAgain⟩ := hok.splitAfterOk
  obtain ⟨hwireFirst, hsync⟩ := hsync.afterOk hposition
  obtain ⟨hwireData, hsync⟩ := hsync.afterOk (by rw [afterOk_cfg]; exact Shows.data s.cfg.link [x])
  obtain ⟨hwireAgain, -⟩ := hsync.afterOk (by rw [afterOk_cfg, afterOk_cfg]; exact hposition)
  have hfirst := setPositionSendsPageThenColumn s col page hrun hbounds hokFirst
  have hdata := sendDataEmitsOneWindow (afterOk s (positionEvents s.cfg col page)) [x]
  have hagain := setPositionSendsPageThenColumn
    (afterOk (afterOk s (positionEvents s.cfg col page)) (dataEvents s.cfg.link [x])) col page
  simp only [afterOk_cfg, afterOk_halted] at hdata hagain
  refine ⟨_, _, _, hfirst, hdata hrun hokData, hagain hrun hbounds hokAgain, ?_⟩
  rw [hwireAgain, hwireData, hwireFirst]
  rfl

/-- Settles O54: what the events of `CLEAR` show does not depend on where the scan of the trace stands. -/
theorem clearFramesNeverVary : Obligations.ClearFramesNeverVary := by
  intro s hrun hsync hok
  obtain ⟨hwire, -⟩ := hsync.afterOk (Shows.clear s.cfg)
  exact ⟨_, clearSequence s hrun hok, hwire⟩

/-! ## The resolution queries -/

/-- Packing puts the first number above a second one of eight bits (R194, R195). -/
theorem packPair_eq_ofNat (first : Nat) {second : Nat} (h : second < 256) :
    packPair first second = BitVec.ofNat 16 (first * 256 + second) := by
  have hsum : first * 256 + second = first <<< 8 ||| second := by
    rw [← Nat.shiftLeft_add_eq_or_of_lt h, Nat.shiftLeft_eq]
  have hshift : BitVec.ofNat 16 (first <<< 8) = BitVec.ofNat 16 first <<< 8 := by
    apply BitVec.eq_of_toNat_eq
    simp [Nat.shiftLeft_eq]
  rw [hsum, BitVec.ofNat_or, hshift]
  rfl

theorem pixelRes_eq (c : Config) : pixelRes c = BitVec.ofNat 16 (width c.variant * 256 + heightPx c.variant) :=
  packPair_eq_ofNat _ (by cases c.variant <;> decide)

theorem charRes_eq (c : Config) : charRes c = BitVec.ofNat 16 (width c.variant / (c.glyphW + 1) * 256 + pages c.variant) :=
  packPair_eq_ofNat _ (by cases c.variant <;> decide)

/-- An operation without events changes nothing but the response. -/
theorem exec_of_body_done {i : Instr} {s : State} (ha : Accepts i s) (hsuits : suitsOf i = true) (hbody : bodyOf i = done) :
    exec i s = .next (s.respond .ok (valueOf i s.cfg)) := by
  rw [exec_body ha hsuits, hbody]
  rfl

/-- Settles O33: both queries have no events, and the values are packed from the parameters of the variant. -/
theorem queriesReportResolution : Obligations.QueriesReportResolution := by
  intro s hrun
  rw [exec_of_body_done (i := .getPixelRes) ⟨hrun, rfl⟩ rfl rfl, exec_of_body_done (i := .getCharRes) ⟨hrun, rfl⟩ rfl rfl]
  simp only [valueOf, pixelRes_eq, charRes_eq]
  cases s.cfg.variant with
  | a => exact ⟨rfl, rfl⟩
  | b => exact ⟨rfl, rfl⟩

end Sys2Proof.Machine
end

section
/-! PROOF. The reset sequencer: how a reset pulse stops at a failed event, what of the sequencer no other operation does, and what the
receiver hears of `A_INIT` (R220 to R224, R283). -/

namespace Sys2Proof.Machine

/-! ## A reset pulse that fails -/

/-- A straight-line piece stops at the first failed event, where the list of its events has it. -/
theorem emitAll_fail_at {es : List Event} {n : Nat} {e : Event} {s : State} (he : es[n]? = some e) (hfallible : e.fallible = true)
    (hf : FirstFailAt (answersTaken (es.take n)) s) :
    emitAll es s = (failEvent (performEvents s (es.take n)) e, some .linkFailure) := by
  obtain ⟨hn, hget⟩ := List.getElem?_eq_some_iff.1 he
  have hsplit : es = es.take n ++ e :: es.drop (n + 1) := by
    rw [← hget, ← List.drop_eq_getElem_cons hn, List.take_append_drop]
  conv_lhs => rw [hsplit]
  exact emitAll_fail hfallible hf

/-- Every other event of the pulse drives the reset line; the waits between them take no answer (R220). -/
theorem pulseEvents_even {c : Config} {k : Nat} {e : Event} (hk : k < 3) (he : (pulseEvents c)[2 * k]? = some e) :
    (∃ v, e = .set .rst v) ∧ answersTaken ((pulseEvents c).take (2 * k)) = k := by
  interval_cases k <;> exact ⟨⟨_, (Option.some_inj.1 he).symm⟩, rfl⟩

theorem resetPulse_fails {s : State} {k : Nat} {e : Event} (hk : k < 3) (hf : FirstFailAt k s)
    (he : (pulseEvents s.cfg)[2 * k]? = some e) :
    resetPulse s = (failEvent (performEvents s ((pulseEvents s.cfg).take (2 * k))) e, some .linkFailure) := by
  obtain ⟨⟨v, rfl⟩, htaken⟩ := pulseEvents_even hk he
  rw [resetPulse_straight]
  exact emitAll_fail_at he rfl (htaken.symm ▸ hf)

/-- With coefficients in range `B_INIT` begins with its reset pulse, as `A_INIT` always does (R221, R222). -/
theorem bInit_of_coeffs {v t b : Byte} (hv : v.toNat < 91) (ht : t.toNat < 4) (hb : b.toNat < 8) :
    bInit v t b = andThen resetPulse (bPowerUp v t b) := by
  simp [bInit, requireCoeffs_done hv ht hb]

/-- An initialisation whose pulse fails ends there, before its power-up (R221, R222). -/
theorem exec_pulse_fails {i : Instr} {s : State} {powerUp : Act} {k : Nat} {e : Event} (ha : Accepts i s)
    (hsuits : suitsOf i = true) (hbody : bodyOf i = andThen resetPulse powerUp) (hk : k < 3) (hf : FirstFailAt k s)
    (he : (pulseEvents s.cfg)[2 * k]? = some e) : exec i s =
      .next ((failEvent (performEvents s ((pulseEvents s.cfg).take (2 * k))) e).respond .linkFailure 0) := by
  rw [exec_body ha hsuits, hbody, andThen_of_some (resetPulse_fails hk hf he)]
  rfl

/-- Settles O43: both initialisations begin with the pulse, and the failed event is one of the reset line. -/
theorem resetPulseFailureStops : Obligations.ResetPulseFailureStops := by
  intro s i k e hrun hi hk hf he
  have hexec : exec i s =
      .next ((failEvent (performEvents s ((pulseEvents s.cfg).take (2 * k))) e).respond .linkFailure 0) := by
    obtain ⟨hv, rfl⟩ | ⟨hv, v, x, b, hvolt, htemp, hbias, rfl⟩ := hi
    · exact exec_pulse_fails (accepts_of_home rfl hrun hv) rfl rfl hk hf he
    · exact exec_pulse_fails (accepts_of_home rfl hrun hv) rfl (bInit_of_coeffs hvolt htemp hbias) hk hf he
  obtain ⟨⟨v, rfl⟩, -⟩ := pulseEvents_even hk he
  refine ⟨_, hexec, rfl, rfl, ?_⟩
  rw [State.respond_halted, failEvent_eq _ _ rfl, applyEntry_halted, performEvents_halted, hrun]

/-! ## What only an initialisation does -/

/-- What an instruction adds to the trace, refused or performed, are events of its kinds. -/
theorem exec_emits {i : Instr} {s t : State} (h : exec i s = .next t) :
    ∃ new, ExtendsBy s t new ∧ ∀ x ∈ new, eventsOf i s.cfg x.event := by
  obtain ⟨-, hx⟩ | ⟨-, -, hx⟩ | ⟨-, -, hx⟩ | ⟨ts, r, -, -, heffect, hx⟩ := exec_cases i s
  all_goals cases hx.symm.trans h
  · exact ⟨[], respond_extendsBy s _ 0, nofun⟩
  · exact ⟨[], respond_extendsBy s _ 0, nofun⟩
  · exact ⟨[], respond_extendsBy s _ 0, nofun⟩
  · exact ⟨ts, finish_extendsBy s ts _ r, heffect.events⟩

/-- Only the two initialisations wait (R224). -/
theorem eventsOf_not_delay {i : Instr} (ha : i ≠ .aInit) (hb : ∀ v x b, i ≠ .bInit v x b) (c : Config) (n : Nat) :
    ¬ eventsOf i c (.delay n) := by
  intro h
  have hkind := eventsOf_of_not_init ha hb h
  simp [channelEvent, shiftEvent] at hkind

/-- Settles O46: the kinds of events of the other instructions have no wait and no reset line, and without an event of the reset line a
controller that was not described stays so. -/
theorem onlyInitDelaysOrResets : Obligations.OnlyInitDelaysOrResets := by
  intro i s t h ha hb
  obtain ⟨new, hextends, hkinds⟩ := exec_emits h
  have noDelay : ∀ x ∈ new, ∀ n, x.event ≠ .delay n := fun x hx n he =>
    eventsOf_not_delay ha hb s.cfg n (he ▸ hkinds x hx)
  have noRst : ∀ x ∈ new, ∀ v, x.event ≠ .set .rst v := fun x hx v he =>
    eventsOf_not_rst ha hb s.cfg v (he ▸ hkinds x hx)
  refine ⟨⟨new, hextends.trace, fun x hx => ⟨noDelay x hx, noRst x hx⟩⟩, fun ⟨_, _, hsettled⟩ hundescribed => ?_⟩
  unfold State.controller controllerAfter
  rw [hextends.cfg, hextends.trace, receiverAfter_append]
  exact entries_undescribed s.cfg new noRst hsettled hundescribed

/-! ## What the receiver hears -/

/-- The receiver's view of the clock, the data and chip-select does not change with the reset line or with time (R118). -/
theorem scan_pulse (style : DcStyle) (s : Scan) (c : Config) : scan style s (pulseEvents c) = (s, []) := rfl

/-- A reset pulse shows the receiver nothing and leaves the link in step. -/
theorem LinkInSync.afterPulse {s : State} (h : LinkInSync s) :
    (performEvents s (pulseEvents s.cfg)).wire = s.wire ∧ LinkInSync (performEvents s (pulseEvents s.cfg)) := by
  obtain ⟨hok, hclk, hcs⟩ := h
  have hevents : okEvents (s.trace ++ okEntries (pulseEvents s.cfg)) = okEvents s.trace ++ pulseEvents s.cfg := by
    rw [okEvents_append_ok hok, okEvents_okEntries]
  refine ⟨?_, ?_, ?_, ?_⟩
  · simp [State.wire, Machine.wire, hevents, scan_append, scan_pulse]
  · simpa [okEntries, or_imp, forall_and] using hok
  · simpa [hevents, scan_append, scan_pulse] using hclk
  · simpa [hevents, scan_append, scan_pulse] using hcs

/-- The windows of `A_POWER_UP` show its six commands and what `CLEAR` shows (R139). -/
theorem Shows.powerUpA (c : Config) : Shows c.link (powerUpEventsA c) (powerUpBytesA.map commandFrame ++ clearFrames c.variant) :=
  (Shows.commands _ _).append (Shows.clear c)

/-- Settles O55: the pulse shows nothing, and a receiver still in step hears of the power-up what its windows show. -/
theorem initAFrames : Obligations.InitAFrames := by
  intro s hrun hv hsync hok
  obtain ⟨hwirePulse, hsyncPulse⟩ := hsync.afterPulse
  obtain ⟨hwire, -⟩ := hsyncPulse.afterOk (by rw [performEvents_cfg]; exact Shows.powerUpA s.cfg)
  refine ⟨_, exec_encoder_ok rfl rfl hrun hv (aInit_runs s.cfg) hok, ?_⟩
  rw [afterOk, performEvents_append, ← afterOk, hwire, hwirePulse, hv]
  simp only [List.append_assoc]
  rfl

end Sys2Proof.Machine
end

section
/-! PROOF. The sequence of events an instruction follows, and what a failed answer leaves of it (R101, R110, R240, R241, R251). -/

namespace Sys2Proof.Machine

/-- From `s` to `t` the instruction `i` emitted the events of `es` before the fallible one number `n`, that one, which failed, and what
follows a failed event; it ended with `LinkFailure`, and `halted` is not set. -/
def CutAt (i : Instr) (es : List Event) (n : Nat) (s t : State) : Prop :=
  ∃ pre e rest tail, es = pre ++ e :: rest ∧ e.fallible = true ∧ answersTaken pre = n ∧ ReleasedAfter i e tail ∧
    AnswersBy s t (okEntries pre ++ ⟨e, .fail⟩ :: tail) ⟨.linkFailure, 0⟩ false

/-- On parameters `c` with `halted` at `h`, the instruction `i` follows the events `es`: with every answer `ok` it emits them all, responds
`o` and leaves `halted` at `f`; at the first `fail` among their answers it is cut. -/
structure ExecFollows (i : Instr) (c : Config) (h : Bool) (es : List Event) (o : Response) (f : Bool) : Prop where
  outcome : o.outcome ≠ .linkFailure
  runs : ∀ s : State, s.cfg = c → s.halted = h → AnswersOk es s → ∃ t, exec i s = .next t ∧ AnswersBy s t (okEntries es) o f
  cut : ∀ (s : State) (n : Nat), s.cfg = c → s.halted = h → FirstFailAt n s → n < answersTaken es →
    ∃ t, exec i s = .next t ∧ CutAt i es n s t

theorem ExecFollows.of_refused {i : Instr} {c : Config} {h : Bool} {o : OpOutcome} (ho : o ≠ .linkFailure)
    (hexec : ∀ s : State, s.cfg = c → s.halted = h → exec i s = .next (s.respond o 0)) : ExecFollows i c h [] ⟨o, 0⟩ h where
  outcome := ho
  runs := fun s hc hh _ => ⟨_, hexec s hc hh, hh ▸ respond_answersBy s o 0⟩
  cut := fun _ _ _ _ _ hn => absurd hn (Nat.not_lt_zero _)

theorem responseOf_linkFailure {v : Value} {r : Option Raise} :
    (responseOf v r).outcome = .linkFailure ↔ r = some .linkFailure := by
  rcases r with _ | (_ | _ | _) <;> simp [responseOf, outcomeOf]

/-- An instruction that passes its checks follows the events its body follows. -/
theorem ExecFollows.of_accepted {i : Instr} {c : Config} (hv : existsOn i.home c.variant = true) (hp : suitsOf i = true) :
    ∃ es o f, ExecFollows i c false es o f := by
  obtain ⟨es, r, bare, hbody, hreleased⟩ := bodyOf_stops i c
  refine ⟨es, responseOf (valueOf i c) r, r == some .preconditionViolation, mt responseOf_linkFailure.1 hbody.ends,
    fun s hc hh hok => ?_, fun s n hc hh hf hn => ?_⟩
  · refine ⟨_, exec_body ⟨hh, hc ▸ hv⟩ hp, ?_⟩
    rw [hbody.runs s hc hok, performEvents_eq, hc]
    simpa [hh] using finish_answersBy s (okEntries es) (valueOf i c) r
  · obtain ⟨pre, e, rest, tail, hes, he, hpre, htail, hstop⟩ := hbody.stops s n hc hf hn
    refine ⟨_, exec_body ⟨hh, hc ▸ hv⟩ hp, pre, e, rest, tail, hes, he, hpre, hreleased e tail htail, ?_⟩
    have hfinish := finish_answersBy s (okEntries pre ++ ⟨e, .fail⟩ :: tail) (valueOf i s.cfg) (some .linkFailure)
    rw [hh] at hfinish
    rw [hstop]
    exact hfinish

/-- Every instruction follows a sequence of events that the parameters and `halted` fix: none where a check refuses it. -/
theorem exec_follows (i : Instr) (c : Config) (h : Bool) : ∃ es o f, ExecFollows i c h es o f := by
  cases h with
  | true => exact ⟨_, _, _, .of_refused (by simp) fun s _ hh => exec_halted i hh⟩
  | false =>
    cases hv : existsOn i.home c.variant with
    | false => exact ⟨_, _, _, .of_refused (by simp) fun s hc hh => exec_wrongVariant hh (hc ▸ hv)⟩
    | true =>
      cases hp : suitsOf i with
      | false => exact ⟨_, _, _, .of_refused (by simp) fun s hc hh => exec_badPayload ⟨hh, hc ▸ hv⟩ hp⟩
      | true => exact ExecFollows.of_accepted hv hp

theorem okEntries_injective : Function.Injective okEntries :=
  List.map_injective_iff.2 fun _ _ h => congrArg TraceEntry.event h

/-- Answers that have run out are all `ok`. -/
theorem answersOk_of_no_answers (es : List Event) {s : State} (h : s.answers = []) : AnswersOk es s := by
  simp [AnswersOk, h]

/-- Settles O41: the events emitted with every answer `ok` are those the instruction follows, and the first `fail` comes among their
answers, where it cuts them, or after. -/
theorem failureCutsTheNormalSequence : Obligations.FailureCutsTheNormalSequence := by
  intro i s u es n hu htrace hf
  obtain ⟨followed, o, f, hfollows⟩ := exec_follows i s.cfg s.halted
  obtain ⟨u', hu', hallOk⟩ := hfollows.runs { s with answers := [] } rfl rfl (answersOk_of_no_answers _ rfl)
  cases hu'.symm.trans hu
  obtain rfl : followed = es := okEntries_injective (List.append_cancel_left (hallOk.trace.symm.trans htrace))
  by_cases hn : n < answersTaken followed
  · obtain ⟨t, ht, pre, e, rest, tail, hes, he, hpre, hreleased, hcut⟩ := hfollows.cut s n rfl rfl hf hn
    refine ⟨t, ht, fun _ => ⟨pre, rest, e, tail, hes, he, hpre, ?_, hreleased, hcut.response, hcut.halted⟩,
      fun hle => absurd hn (Nat.not_lt.2 hle)⟩
    rw [hcut.trace, List.append_assoc]
    rfl
  · obtain ⟨t, ht, hall⟩ := hfollows.runs s rfl rfl (hf.answersOk (Nat.le_of_not_lt hn))
    refine ⟨t, ht, fun hlt => absurd hlt hn, fun _ => ⟨?_, ?_, ?_⟩⟩
    · exact hall.trace.trans hallOk.trace.symm
    · exact hall.response.trans hallOk.response.symm
    · exact hall.halted.trans hallOk.halted.symm

theorem okEntries_answer {es : List Event} : ∀ x ∈ okEntries es, x.answer = .ok := by simp [okEntries]

/-- Settles O42: the answers are `ok` for the whole sequence the instruction follows, which then does not end with `LinkFailure`, or they
cut it. -/
theorem outcomeFollowsAnswers : Obligations.OutcomeFollowsAnswers := by
  intro i s t ht _
  obtain ⟨es, o, f, hfollows⟩ := exec_follows i s.cfg s.halted
  obtain hok | ⟨n, hn, hf⟩ := answersOk_or_firstFail es s
  · obtain ⟨u, hu, hall⟩ := hfollows.runs s rfl rfl hok
    cases hu.symm.trans ht
    refine ⟨okEntries es, hall.trace, fun _ _ => okEntries_answer, fun v hv => ?_⟩
    cases hall.response.symm.trans hv
    exact absurd rfl hfollows.outcome
  · obtain ⟨u, hu, pre, e, rest, tail, -, -, -, hreleased, hcut⟩ := hfollows.cut s n rfl rfl hf hn
    cases hu.symm.trans ht
    refine ⟨_, hcut.trace, fun v hv => ?_, fun _ _ => ⟨okEntries pre, e, tail, rfl, okEntries_answer, hreleased⟩⟩
    cases hcut.response.symm.trans hv

end Sys2Proof.Machine
end

section
/-! PROOF. The request port: which check answers a request, that one always does, and what a refusal changes (R240, R244 to R246). -/

namespace Sys2Proof.Machine

/-! ## The checks in their order -/

theorem step_halted {s : State} {r : Request} {rest : List Request} (hr : s.requests = r :: rest) (hh : s.halted = true) :
    step s = .next ((s.withRequests rest).respond .refusedHalted 0) := by
  obtain ⟨-, hstep⟩ | ⟨-, hrun, -⟩ | ⟨-, hrun, -⟩ := step_cases hr
  · exact hstep
  · simp [hrun] at hh
  · simp [hrun] at hh

theorem step_refused {s : State} {r : Request} {rest : List Request} {e : DecodeError} (hr : s.requests = r :: rest)
    (hrun : s.halted = false) (hd : decodeRequest s.cfg r = .error e) :
    step s = .next ((s.withRequests rest).respond (refusalOf e) 0) := by
  obtain ⟨hh, -⟩ | ⟨e', -, hd', hstep⟩ | ⟨i, -, hd', -⟩ := step_cases hr
  · simp [hrun] at hh
  · cases hd.symm.trans hd'
    exact hstep
  · cases hd.symm.trans hd'

section
variable {c : Config} {w : ReqWord} {p : Option (List Byte)} {i : Instr}

theorem decodeRequest_illegal (hd : decodeWord w (p.getD []) = none) :
    decodeRequest c (.word w p) = .error .illegalRequest := by simp [decodeRequest, hd]

theorem decodeRequest_wrongVariant (hd : decodeWord w (p.getD []) = some i) (he : existsOn i.home c.variant = false) :
    decodeRequest c (.word w p) = .error .wrongVariant := by simp [decodeRequest, hd, checkRequest, he]

theorem decodeRequest_badPayload (hd : decodeWord w (p.getD []) = some i) (he : existsOn i.home c.variant = true)
    (hp : payloadSuits i p = false) : decodeRequest c (.word w p) = .error .badPayload := by
  simp [decodeRequest, hd, checkRequest, he, hp]

/-- A payload suits an operation only where the operation takes one (R63 (d)). -/
theorem isSome_of_payloadSuits (h : payloadSuits i p = true) : p.isSome = i.takesPayload := by
  cases p <;> simp_all [payloadSuits]

theorem decodeWord_drawBuffer {bs : List Byte} (hop : opField w = 0x25#8) (hd : decodeWord w bs = some i) :
    i = .bDrawBuffer bs := by
  simp only [decodeWord, hop] at hd
  exact (whenUnused_some hd).2.symm

theorem payloadSuits_drawBuffer {bs : List Byte} (h : payloadSuits (.bDrawBuffer bs) p = true) :
    (p.getD []).length = 504 := by
  cases p with
  | none => cases h
  | some buf => exact fitsFrame_iff.1 h

end

/-- Settles O9: each check that fires decides, and the two conditions on a payload are those of the last check. -/
theorem checksComeInOrder : Obligations.ChecksComeInOrder := by
  intro s w p rest hr
  refine ⟨step_halted hr, fun hrun hd => step_refused hr hrun (decodeRequest_illegal hd),
    fun i hrun hd he => step_refused hr hrun (decodeRequest_wrongVariant hd he),
    fun i hrun hd he hbad => step_refused hr hrun (decodeRequest_badPayload hd he (Bool.eq_false_iff.2 fun hsuits => ?_))⟩
  obtain hcount | ⟨hop, hlen⟩ := hbad
  · exact hcount (isSome_of_payloadSuits hsuits)
  · cases decodeWord_drawBuffer hop hd
    exact hlen (payloadSuits_drawBuffer hsuits)

/-! ## Every request is answered -/

theorem exec_answersBy (i : Instr) (s : State) : ∃ t new o f, exec i s = .next t ∧ AnswersBy s t new o f := by
  obtain ⟨new, o, f, hdet⟩ := exec_determined i s.cfg s.halted s.answers
  obtain ⟨t, hexec, ht⟩ := hdet s rfl rfl rfl
  exact ⟨t, new, o, f, hexec, ht⟩

/-- Settles O10: a refusal responds and takes the request, and so does an instruction, whatever it is. -/
theorem everyRequestGetsAnOutcome : Obligations.EveryRequestGetsAnOutcome := by
  intro s r rest hr
  obtain ⟨-, hstep⟩ | ⟨e, -, -, hstep⟩ | ⟨i, -, -, hstep⟩ := step_cases hr
  · exact ⟨_, _, hstep, rfl, rfl, rfl⟩
  · exact ⟨_, _, hstep, rfl, rfl, rfl⟩
  · obtain ⟨t, new, o, f, hexec, ht⟩ := exec_answersBy i (s.withRequests rest)
    exact ⟨t, o, hstep.trans hexec, ht.response, ht.requests, ht.cfg⟩

/-! ## Refusals -/

/-- Settles O39: each step of a halted block refuses one request and leaves it halted. -/
theorem haltedBlockStaysHalted : Obligations.HaltedBlockStaysHalted := by
  intro k
  induction k with
  | zero =>
    intro s hh hk
    obtain ⟨r, rest, hr⟩ := List.exists_cons_of_length_pos hk
    rw [core_run_succ 0 (step_halted hr hh), hr]
    rfl
  | succ k ih =>
    intro s hh hk
    obtain ⟨r, rest, hr⟩ := List.exists_cons_of_length_pos (Nat.zero_lt_of_lt hk)
    have hrest : k < rest.length := by simpa [hr] using hk
    rw [core_run_succ (k + 1) (step_halted hr hh), ih ((s.withRequests rest).respond .refusedHalted 0) hh hrest, hr]
    rfl

/-- The four outcomes of a request that is not performed (R240). -/
def IsRefusal (o : OpOutcome) : Prop := o = .illegalRequest ∨ o = .wrongVariant ∨ o = .badPayload ∨ o = .refusedHalted

/-- An operation that ran does not respond with a refusal. -/
theorem responseOf_not_refusal (v : Value) (r : Option Raise) : ¬ IsRefusal (responseOf v r).outcome := by
  rcases r with _ | (_ | _ | _) <;> simp [IsRefusal, responseOf, outcomeOf]

theorem respond_of_response {s t : State} {x : OpOutcome} {o : Response} (ht : t = s.respond x 0)
    (ho : t.response = some o) : t = s.respond o.outcome 0 := by
  subst ht
  cases ho
  rfl

theorem exec_refusal {i : Instr} {s t : State} {o : Response} (h : exec i s = .next t) (ho : t.response = some o)
    (href : IsRefusal o.outcome) : t = s.respond o.outcome 0 := by
  obtain ⟨-, hx⟩ | ⟨-, -, hx⟩ | ⟨-, -, hx⟩ | ⟨ts, r, -, -, -, hx⟩ := exec_cases i s
  all_goals cases hx.symm.trans h
  · exact respond_of_response rfl ho
  · exact respond_of_response rfl ho
  · exact respond_of_response rfl ho
  · rw [finish_response] at ho
    cases ho
    exact absurd href (responseOf_not_refusal _ r)

/-- Settles O40: the port's own refusals respond and no more, and an instruction that was refused did no more either. -/
theorem refusalsChangeNothing : Obligations.RefusalsChangeNothing := by
  intro s t r rest o hr h ho href
  obtain ⟨-, hx⟩ | ⟨e, -, -, hx⟩ | ⟨i, -, -, hx⟩ := step_cases hr
  · cases hx.symm.trans h; exact respond_of_response rfl ho
  · cases hx.symm.trans h; exact respond_of_response rfl ho
  · exact exec_refusal (hx.symm.trans h) ho href

end Sys2Proof.Machine
end

section
/-! PROOF. Operations that end with a raise of their own: operands out of range, and codes without a glyph (R242, R243). -/

namespace Sys2Proof.Machine

/-! ## Precondition violations -/

/-- Settles O37: a body that ends with a violation has emitted nothing, and the other ends have another response. -/
theorem violationHappensBeforeAnyEvent : Obligations.ViolationHappensBeforeAnyEvent := by
  intro i s t h ho _
  obtain ⟨-, hx⟩ | ⟨-, -, hx⟩ | ⟨-, -, hx⟩ | ⟨ts, r, -, -, heffect, hx⟩ := exec_cases i s
  all_goals cases hx.symm.trans h
  · cases ho
  · cases ho
  · cases ho
  · rw [finish_response, Option.some_inj] at ho
    obtain rfl := (responseOf_violation _ r).1 (congrArg Response.outcome ho)
    obtain rfl := heffect.violates rfl
    rfl

/-- A position out of bounds fails the check of its column or of its page (R190). -/
theorem setPosition_violates {s : State} {col page : Byte} (h : ¬ InBounds s.cfg.variant col page) :
    setPosition col page s = (s, some .preconditionViolation) := by
  rw [setPosition, withConfig_apply, inOrder_cons]
  by_cases hcol : col.toNat < width s.cfg.variant
  · have hpage : pages s.cfg.variant ≤ page.toNat := Nat.le_of_not_lt fun hpage => h (inBounds_iff.2 ⟨hcol, hpage⟩)
    rw [below_of_lt hcol, require_true, done_andThen, inOrder_cons]
    exact checked_violates hpage _ s
  · exact checked_violates (Nat.le_of_not_lt hcol) _ s

/-- On a running block of variant B, an operation that begins with the coefficient checks violates where one fails (R162, R166, R222). -/
theorem exec_coeffs_violate {i : Instr} {s : State} {v t b : Byte} {a : Act} (hhome : i.home = some .b)
    (hsuits : suitsOf i = true) (hbody : bodyOf i = andThen (requireCoeffs v t b) a) (hrun : s.halted = false)
    (hv : s.cfg.variant = .b) (h : 91 ≤ v.toNat ∨ 4 ≤ t.toNat ∨ 8 ≤ b.toNat) :
    exec i s = .next (s.halt.respond .preconditionViolation 0) := by
  refine exec_violates (accepts_of_home hhome hrun hv) hsuits ?_
  rw [hbody, requireCoeffs_violation (by omega)]
  rfl

/-- Settles O36: each body begins with the check that the operand fails. -/
theorem outOfRangeOperandsViolate : Obligations.OutOfRangeOperandsViolate := by
  intro s x y z hrun
  have violates {i : Instr} {v : Variant} {limit : Nat} {a : Act} (hv : s.cfg.variant = v) (hhome : i.home = some v)
      (hsuits : suitsOf i = true) (hbody : bodyOf i = andThen (require (below x limit)) a) (hx : limit ≤ x.toNat) :
      exec i s = .next (s.halt.respond .preconditionViolation 0) :=
    exec_violates (accepts_of_home hhome hrun hv) hsuits (hbody ▸ checked_violates hx a s)
  refine ⟨fun hbounds => ?position, fun hv => ⟨?pageA, ?columnA, ?contrastA⟩,
    fun hv => ⟨?pageB, ?columnB, fun hcoeffs => ⟨?coeffs, ?powerUp, ?init⟩⟩⟩
  case position => exact exec_violates ⟨hrun, rfl⟩ rfl (setPosition_violates hbounds)
  case coeffs => exact exec_coeffs_violate rfl rfl rfl hrun hv hcoeffs
  case powerUp => exact exec_coeffs_violate rfl rfl rfl hrun hv hcoeffs
  case init => exact exec_coeffs_violate rfl rfl rfl hrun hv hcoeffs
  all_goals exact violates hv rfl rfl rfl

/-! ## Codes without a glyph -/

theorem print_append_cons (good rest : List Byte) (bad : Byte) :
    print (good ++ bad :: rest) = andThen (print good) (andThen (printChar bad) (print rest)) := by
  simp [print, inOrder_append]

/-- The characters before one without a glyph are printed, and it ends the text (R193, R243). -/
theorem print_unrepresentable {s : State} {good rest : List Byte} {bad : Byte} (hgood : ∀ x ∈ good, Representable x)
    (hbad : ¬ Representable bad) (hok : AnswersOk (textEvents s.cfg good) s) :
    print (good ++ bad :: rest) s = (performEvents s (textEvents s.cfg good), some .unrepresentableGlyph) := by
  rw [print_append_cons, andThen_of_none (print_runs s.cfg hgood s rfl hok), printChar_unrepresentable hbad, raise_andThen]
  rfl

/-- Settles O32: the raise leaves what the earlier characters left, and `halted` as it was. -/
theorem unrepresentableGlyphStopsText : Obligations.UnrepresentableGlyphStopsText := by
  intro s good rest bad hrun hgood hbad hok
  rw [exec_body (i := .print _) ⟨hrun, rfl⟩ rfl, exec_body (i := .printChar bad) ⟨hrun, rfl⟩ rfl]
  refine ⟨?_, ?_⟩
  · rw [bodyOf, print_unrepresentable hgood hbad hok]
    rfl
  · rw [bodyOf, printChar_unrepresentable hbad]
    rfl

end Sys2Proof.Machine
end

section
/-! PROOF. What a controller makes of the command bytes it hears, in the table that applies (R69 to R71). -/

namespace Sys2Proof.Machine

/-! ## One byte -/

/-- The rules describe the controller, and the instruction set `set` is in force. -/
def Controller.InSet (set : InstrSet) (k : Controller) : Prop := k.described = true ∧ k.set = some set

/-- On a controller that meets `P` the command byte `b` has the effect of the row `i`, which keeps `P`. -/
def ReadsAs (c : Config) (P : Controller → Prop) (b : Byte) (i : Instr) : Prop :=
  ∀ k, P k → k.hear c (commandFrame b) = k.command i ∧ P (k.command i)

/-- Only `B.X.EXIT` as a row changes the instruction set. -/
theorem command_set (k : Controller) {i : Instr} (h : i ≠ .cmdBXExit) : (k.command i).set = k.set := by
  cases i
  case cmdBXExit => exact absurd rfl h
  all_goals rfl

theorem decodeCommandB_ne_exit {b : Byte} {i : Instr} (h : decodeCommandB b = some i) : i ≠ .cmdBXExit := by
  rintro rfl
  cases decodeCommandB_some b _ h

theorem readsAs_a {c : Config} (hv : c.variant = .a) {b : Byte} {i : Instr} (hd : decodeCommandA b = some i)
    (hl : listed i = true) : ReadsAs c (fun k => k.described = true) b i := fun k hk =>
  ⟨by rw [hear_command_a hv hk, hd, row_listed hl], (command_described k i).trans hk⟩

theorem readsAs_basic {c : Config} (hv : c.variant = .b) {b : Byte} {i : Instr} (hb : b ≠ c.bExtEnter)
    (hd : decodeCommandB b = some i) (hl : listed i = true) : ReadsAs c (Controller.InSet .basic) b i := fun k ⟨hk, hset⟩ =>
  ⟨by rw [hear_command_b hv hk, hearB_basic hset hb hd hl], (command_described k i).trans hk,
    (command_set k (decodeCommandB_ne_exit hd)).trans hset⟩

theorem readsAs_extended {c : Config} (hv : c.variant = .b) {b : Byte} {i : Instr} (hb : b ≠ c.bExtExit)
    (hd : decodeCoefficient b = some i) (hl : listed i = true) : ReadsAs c (Controller.InSet .extended) b i :=
  fun k ⟨hk, hset⟩ =>
    ⟨by rw [hear_command_b hv hk, hearB_extended hset hb hd hl], (command_described k i).trans hk,
      (command_set k (decodeCoefficient_ne_exit hd)).trans hset⟩

/-! ## Several bytes -/

/-- Each of several bytes has the effect of its row. -/
theorem hears_rows {c : Config} {P : Controller → Prop} {bs : List Byte} {is : List Instr}
    (h : List.Forall₂ (ReadsAs c P) bs is) {k : Controller} (hk : P k) :
    (bs.map commandFrame).foldl (Controller.hear c) k = is.foldl Controller.command k ∧ P (is.foldl Controller.command k) := by
  induction h generalizing k with
  | nil => exact ⟨rfl, hk⟩
  | @cons b i bs is hread _ ih =>
    obtain ⟨hhear, hkeeps⟩ := hread k hk
    rw [List.map_cons, List.foldl_cons, List.foldl_cons, hhear]
    exact ih hkeeps

/-- What every row keeps, each of the frames keeps. -/
theorem rows_keep {c : Config} {P : Controller → Prop} {bs : List Byte} {is : List Instr} (h : List.Forall₂ (ReadsAs c P) bs is) :
    ∀ f ∈ bs.map commandFrame, ∀ k, P k → P (k.hear c f) := by
  induction h with
  | nil => simp
  | @cons b i bs is hread _ ih =>
    rw [List.map_cons, List.forall_mem_cons]
    refine ⟨fun k hk => ?_, ih⟩
    obtain ⟨hhear, hkeeps⟩ := hread k hk
    exact hhear ▸ hkeeps

theorem zeroFill_eq_cons (v : Variant) : ∃ n, zeroFill v = 0#8 :: List.replicate n 0#8 := by
  cases v with
  | a => exact ⟨767, rfl⟩
  | b => exact ⟨503, rfl⟩

/-- `CLEAR` sets the cursor, loses it over the zero fill, and sets it again (R191). -/
theorem hears_clear {c : Config} {P : Controller → Prop} (hmoved : ∀ k, P k → P k.moved) {is : List Instr}
    (h : List.Forall₂ (ReadsAs c P) (positionBytes c.variant 0 0) is) {k : Controller} (hk : P k) :
    (clearFrames c.variant).foldl (Controller.hear c) k =
      is.foldl Controller.command (is.foldl Controller.command k).moved := by
  obtain ⟨hfirst, hkfirst⟩ := hears_rows h hk
  obtain ⟨hsecond, -⟩ := hears_rows h (hmoved _ hkfirst)
  obtain ⟨n, hzeros⟩ := zeroFill_eq_cons c.variant
  rw [← hsecond, ← hear_datas c _ 0#8 (List.replicate n 0#8), ← hzeros, ← hfirst, ← List.foldl_append, ← List.foldl_append,
    ← List.append_assoc]
  rfl

/-! ## The coefficients bracket -/

theorem toNat_field {x : Byte} {n : Nat} (h : x.toNat < 2 ^ n) : (x.extractLsb' 0 n).toNat = x.toNat := by
  simp [Nat.mod_eq_of_lt h]

/-- In the extended set a voltage byte is `B.X.VOP`, whatever it would be in the basic one (R71). -/
theorem readsAs_voltage {c : Config} (hv : c.variant = .b) {x : Byte} (hx : x.toNat < 91) (hexit : 0x80#8 ||| x ≠ c.bExtExit) :
    ReadsAs c (Controller.InSet .extended) (0x80#8 ||| x) (.cmdBXVop (x.extractLsb' 0 7)) := by
  obtain ⟨-, -, -, -, -, -, hdecode, -, -⟩ := assembledBytesAreTableRows
  refine readsAs_extended hv hexit (hdecode x hx) ?_
  simpa only [listed, toNat_field (n := 7) (hx.trans (by decide)), decide_eq_true_eq] using hx

/-- The three coefficient bytes of R162, read in the extended set (R71). -/
theorem readsAs_coefficients {c : Config} (hv : c.variant = .b) {v t b : Byte} (hvolt : v.toNat < 91) (htemp : t.toNat < 4)
    (hbias : b.toNat < 8) (hexit : ∀ y ∈ [0x80#8 ||| v, 0x04#8 ||| t, 0x10#8 ||| b], y ≠ c.bExtExit) :
    List.Forall₂ (ReadsAs c (Controller.InSet .extended)) [0x80#8 ||| v, 0x04#8 ||| t, 0x10#8 ||| b]
      [.cmdBXVop (v.extractLsb' 0 7), .cmdBXTemp (t.extractLsb' 0 2), .cmdBXBias (b.extractLsb' 0 3)] := by
  obtain ⟨-, -, -, -, -, -, -, hdecodeT, hdecodeB⟩ := assembledBytesAreTableRows
  exact .cons (readsAs_voltage hv hvolt (hexit _ (by simp)))
    (.cons (readsAs_extended hv (hexit _ (by simp)) (hdecodeT t htemp) rfl)
      (.cons (readsAs_extended hv (hexit _ (by simp)) (hdecodeB b hbias) rfl) .nil))

/-- `B_EXT_ENTER` puts the extended set in force (R71). -/
theorem hear_enter {c : Config} (hv : c.variant = .b) {k : Controller} (hk : k.InSet .basic) :
    k.hear c (commandFrame c.bExtEnter) = { k.addressed c.bExtEnter with set := some .extended } := by
  obtain ⟨hdescribed, hset⟩ := hk
  rw [hear_command_b hv hdescribed, hearB_enter hset]

/-- `B_EXT_EXIT` puts the basic set in force again (R71). -/
theorem hear_exit {c : Config} (hv : c.variant = .b) {k : Controller} (hk : k.InSet .extended) :
    k.hear c (commandFrame c.bExtExit) = { k with set := some .basic } := by
  obtain ⟨hdescribed, hset⟩ := hk
  rw [hear_command_b hv hdescribed, hearB_exit hset]

theorem addressed_described (k : Controller) (b : Byte) : (k.addressed b).described = k.described := by
  unfold Controller.addressed
  split <;> rfl

theorem hear_enter_inSet {c : Config} (hv : c.variant = .b) {k : Controller} (hk : k.InSet .basic) :
    (k.hear c (commandFrame c.bExtEnter)).InSet .extended := by
  rw [hear_enter hv hk]
  exact ⟨(addressed_described k _).trans hk.1, rfl⟩

/-- Only 0x22 and 0x23 select vertical addressing (R70). -/
theorem addressed_horizontal {k : Controller} (hk : k.vertical = some false) {b : Byte} (h22 : b ≠ 0x22#8) (h23 : b ≠ 0x23#8) :
    (k.addressed b).vertical = some false := by
  unfold Controller.addressed
  split
  · next v x hd =>
    have hb : b = byteBFunction v x := by
      have hspells := decodeCommandB_some b _ hd
      simp only [encode, Request.command.injEq] at hspells
      exact hspells.2.symm
    have hflag : ∀ v x : BitVec 1, byteBFunction v x ≠ 0x22#8 → byteBFunction v x ≠ 0x23#8 → flagOf v = false := by decide
    exact congrArg some (hflag v x (hb ▸ h22) (hb ▸ h23))
  · exact hk

/-- The controller after the whole bracket: three coefficients set, the basic set in force, and the addressing as the entry byte has it
(R70, R71, R162). -/
def Controller.withCoeffs (c : Config) (k : Controller) (v t b : Byte) : Controller :=
  { k.addressed c.bExtEnter with
    set := some .basic, voltage := some v.toNat, temperature := some t.toNat, bias := some b.toNat }

theorem withCoeffs_inSet {c : Config} {k : Controller} (hk : k.described = true) (v t b : Byte) :
    (k.withCoeffs c v t b).InSet .basic := ⟨(addressed_described k _).trans hk, rfl⟩

theorem hears_bracket {c : Config} (hv : c.variant = .b) {k : Controller} (hk : k.InSet .basic) {v t b : Byte}
    (hvolt : v.toNat < 91) (htemp : t.toNat < 4) (hbias : b.toNat < 8)
    (hexit : ∀ y ∈ [0x80#8 ||| v, 0x04#8 ||| t, 0x10#8 ||| b], y ≠ c.bExtExit) :
    ((coeffBytes c v t b).map commandFrame).foldl (Controller.hear c) k = k.withCoeffs c v t b := by
  obtain ⟨hrows, hinSet⟩ := hears_rows (readsAs_coefficients hv hvolt htemp hbias hexit) (hear_enter_inSet hv hk)
  have hframes : (coeffBytes c v t b).map commandFrame = commandFrame c.bExtEnter ::
      ([0x80#8 ||| v, 0x04#8 ||| t, 0x10#8 ||| b].map commandFrame ++ [commandFrame c.bExtExit]) := rfl
  rw [hframes, List.foldl_cons, List.foldl_append, hrows, List.foldl_cons, List.foldl_nil, hear_exit hv hinSet, hear_enter hv hk]
  simp [Controller.withCoeffs, Controller.command, toNat_field (n := 7) (hvolt.trans (by decide)), toNat_field (n := 2) htemp,
    toNat_field (n := 3) hbias]

end Sys2Proof.Machine
end

section
/-! PROOF. The controller after an INIT that ended `OK`, whatever came before it (R284, R297). -/

namespace Sys2Proof.Machine

/-! ## What is known after an operation -/

/-- The receiver takes up the entries an operation adds to the trace where it stood. -/
theorem ExtendsBy.receiver {s t : State} {new : List TraceEntry} (h : ExtendsBy s t new) :
    receiverAfter t.cfg t.trace = new.foldl (Receiver.entry s.cfg) (receiverAfter s.cfg s.trace) := by
  rw [h.cfg, h.trace, receiverAfter_append]

/-- So what is known of the controller follows from those entries. -/
theorem ExtendsBy.controller {s t : State} {new : List TraceEntry} (h : ExtendsBy s t new) :
    t.controller = (new.foldl (Receiver.entry s.cfg) (receiverAfter s.cfg s.trace)).known := by
  rw [← h.receiver]
  rfl

theorem afterOk_extendsBy (s : State) (es : List Event) : ExtendsBy s (afterOk s es) (okEntries es) := by
  rw [afterOk, performEvents_eq]
  exact finish_extendsBy s (okEntries es) 0 none

/-- An INIT that ends `OK` leaves the controller as its frames make it after the reset pulse. -/
theorem exec_init_controller {i : Instr} {v : Variant} {s : State} {es : List Event} {fs : List Frame} (hhome : i.home = some v)
    (hsuits : suitsOf i = true) (hrun : s.halted = false) (hv : s.cfg.variant = v)
    (hbody : Runs s.cfg (bodyOf i) (pulseEvents s.cfg ++ es)) (hshows : Shows s.cfg.link es fs)
    (hlength : 3 + es.length = initLeft s.cfg) (hok : AnswersOk (pulseEvents s.cfg ++ es) s) :
    ∃ t, exec i s = .next t ∧ t.response = some ⟨.ok, 0⟩ ∧
      t.controller = fs.foldl (Controller.hear s.cfg) Controller.afterPulse := by
  refine ⟨_, exec_encoder_ok hhome hsuits hrun hv hbody hok, rfl, ?_⟩
  obtain ⟨scan, hclk, hreceiver⟩ := receiver_init s.cfg (receiverAfter s.cfg s.trace) es hshows.noRst hlength
  rw [(afterOk_extendsBy s _).controller, hreceiver, hshows.frames scan hclk]
  rfl

/-! ## Controller A -/

/-- The rows of the commands of `A_POWER_UP` before its clear (R69, R139). -/
theorem readsAs_powerUpA {c : Config} (hv : c.variant = .a) :
    List.Forall₂ (ReadsAs c fun k => k.described = true) powerUpBytesA
      [.cmdAPowerOn, .cmdAContrast 0, .cmdAInverse 0, .cmdAAllOn 0, .cmdADisplayEnable, .cmdAScanStart] :=
  .cons (readsAs_a hv rfl rfl) (.cons (readsAs_a hv rfl rfl) (.cons (readsAs_a hv rfl rfl) (.cons (readsAs_a hv rfl rfl)
    (.cons (readsAs_a hv rfl rfl) (.cons (readsAs_a hv rfl rfl) .nil)))))

/-- The rows of A's origin (R69, R190). -/
theorem readsAs_originA {c : Config} (hv : c.variant = .a) :
    List.Forall₂ (ReadsAs c fun k => k.described = true) (positionBytes c.variant 0 0)
      [.cmdASetPage 0, .cmdAColHi 0, .cmdAColLo 0] := by
  rw [hv]
  exact .cons (readsAs_a hv rfl rfl) (.cons (readsAs_a hv rfl rfl) (.cons (readsAs_a hv rfl rfl) .nil))

/-- Settles O57: the power-up's commands set what R284 lists, and the clear sets the cursor last. -/
theorem initALeavesController : Obligations.InitALeavesController := by
  intro s hrun hv hok
  obtain ⟨t, hexec, hresponse, hcontroller⟩ := exec_init_controller (i := .aInit) rfl rfl hrun hv (aInit_runs s.cfg)
    (Shows.powerUpA s.cfg) (by simp [initLeft, hv]) hok
  obtain ⟨hrows, hdescribed⟩ := hears_rows (k := Controller.afterPulse) (readsAs_powerUpA hv) rfl
  rw [List.foldl_append, hrows, hears_clear (fun _ h => h) (readsAs_originA hv) hdescribed] at hcontroller
  refine ⟨t, hexec, hresponse, ?_⟩
  rw [hcontroller]
  exact ⟨rfl, rfl, rfl, rfl, rfl, rfl, rfl, rfl, rfl, rfl, rfl⟩

/-! ## Controller B -/

/-- The windows of `B_POWER_UP` show the bracket, the mode, and what `CLEAR` shows (R166). -/
theorem Shows.powerUpB (c : Config) (v t b : Byte) : Shows c.link (powerUpEventsB c v t b)
    ((coeffBytes c v t b ++ [0x0C#8]).map commandFrame ++ clearFrames c.variant) :=
  (Shows.commands _ _).append (Shows.clear c)

/-- The row of the mode Normal (R70, R163). -/
theorem readsAs_normalB {c : Config} (hv : c.variant = .b) (henter : 0x0C#8 ≠ c.bExtEnter) :
    ReadsAs c (Controller.InSet .basic) 0x0C#8 (.cmdBMode 1 0) := readsAs_basic hv henter rfl rfl

/-- The rows of B's origin (R70, R190). -/
theorem readsAs_originB {c : Config} (hv : c.variant = .b) (h40 : 0x40#8 ≠ c.bExtEnter) (h80 : 0x80#8 ≠ c.bExtEnter) :
    List.Forall₂ (ReadsAs c (Controller.InSet .basic)) (positionBytes c.variant 0 0) [.cmdBSetPage 0, .cmdBSetCol 0] := by
  rw [hv]
  exact .cons (readsAs_basic hv h40 rfl rfl) (.cons (readsAs_basic hv h80 rfl rfl) .nil)

/-- As many events are left of `B_INIT` after its reset pulse as its power-up has, and three of the pulse itself (R220, R222). -/
theorem initLeft_of_variant_b {c : Config} (hv : c.variant = .b) (v t b : Byte) :
    initLeft c = 3 + (powerUpEventsB c v t b).length := by
  simpa [initLeft, hv] using powerUpEventsB_length c 0#8 0#8 0#8 v t b

/-- Settles O58: the bracket sets the coefficients and ends in the basic set, where mode and cursor are set; no command selects vertical
addressing. -/
theorem initBLeavesController : Obligations.InitBLeavesController := by
  intro s v x b hrun hv hvolt htemp hbias hexit henter hok
  simp only [List.forall_mem_cons, List.not_mem_nil, false_implies, implies_true, and_true] at henter
  obtain ⟨h0C, h40, h80, h22, h23⟩ := henter
  obtain ⟨t, hexec, hresponse, hcontroller⟩ := exec_init_controller (i := .bInit v x b) rfl rfl hrun hv
    (bInit_runs s.cfg hvolt htemp hbias) (Shows.powerUpB s.cfg v x b)
    (initLeft_of_variant_b hv v x b).symm hok
  have hbracket := hears_bracket hv (k := Controller.afterPulse) ⟨rfl, rfl⟩ hvolt htemp hbias hexit
  obtain ⟨hmode, hinSet⟩ := hears_rows (.cons (readsAs_normalB hv h0C) .nil)
    (withCoeffs_inSet (c := s.cfg) (k := Controller.afterPulse) rfl v x b)
  rw [List.foldl_append, List.map_append, List.foldl_append, hbracket, hmode,
    hears_clear (fun _ h => h) (readsAs_originB hv h40 h80) hinSet] at hcontroller
  refine ⟨t, hexec, hresponse, ?_⟩
  rw [hcontroller]
  exact ⟨addressed_described _ _, rfl, rfl, rfl, rfl, addressed_horizontal rfl h22.symm h23.symm, rfl, rfl, rfl⟩

end Sys2Proof.Machine
end

section
/-! PROOF. An operation that fails between two commands: where it stops, and what the controller has heard by then (R293, R294). -/

namespace Sys2Proof.Machine

/-! ## Where the operation stops -/

/-- The failed event comes after a list that takes no more answers than the events before it. -/
theorem stop_after {xs ys pre fs : List Event} {e : Event} (h : xs ++ ys = pre ++ e :: fs) (he : e.fallible = true)
    (hle : answersTaken xs ≤ answersTaken pre) : ∃ p, pre = xs ++ p ∧ ys = p ++ e :: fs := by
  obtain ⟨p, hp, hys⟩ | ⟨cs, hxs, hcs⟩ := List.append_eq_append_iff.1 h
  · exact ⟨p, hp, hys⟩
  · cases cs with
    | nil => exact ⟨[], by simpa using hxs.symm, hcs.symm⟩
    | cons c cs =>
      obtain ⟨rfl, -⟩ := List.cons.inj hcs
      rw [hxs, answersTaken_append, answersTaken_cons] at hle
      simp [answersTaken, he] at hle

/-- The failed event comes within a list that takes more answers than the events before it. -/
theorem stop_within {xs ys pre fs : List Event} {e : Event} (h : xs ++ ys = pre ++ e :: fs)
    (hlt : answersTaken pre < answersTaken xs) : ∃ gs, xs = pre ++ e :: gs := by
  obtain ⟨p, rfl, -⟩ | ⟨cs, rfl, hcs⟩ := List.append_eq_append_iff.1 h
  · rw [answersTaken_append] at hlt
    omega
  · cases cs with
    | nil => simp at hlt
    | cons c cs =>
      obtain ⟨rfl, -⟩ := List.cons.inj hcs
      exact ⟨cs, rfl⟩

/-- From `s` to `t` an operation emitted `lead` and `pre`, then `e`, which failed, and `tail`; it responded with `LinkFailure`. -/
structure StoppedAt (s t : State) (lead pre : List Event) (e : Event) (tail : List TraceEntry) : Prop
    extends ExtendsBy s t (okEntries lead ++ (okEntries pre ++ ⟨e, .fail⟩ :: tail)) where
  released : tail = [] ∨ ∃ a, tail = [⟨.set .cs true, a⟩]
  response : t.response = some ⟨.linkFailure, 0⟩
  halted : t.halted = s.halted
  line : ∀ l, t.line l = lineFrom l (lineFrom l (s.line l) (okEntries lead)) (okEntries pre ++ ⟨e, .fail⟩ :: tail)

/-- An instruction whose body emits `lead`, `part` and `rest` in order stops within `part` where the first `fail` comes there, at the
event of that number if the environment answers all of them. -/
theorem exec_stops_within {i : Instr} {s : State} {lead part rest : List Event} {k : Nat} (ha : Accepts i s)
    (hsuits : suitsOf i = true) (hi : ∀ b, i ≠ .shiftByte b) (hbody : Runs s.cfg (bodyOf i) (lead ++ (part ++ rest)))
    (hfallible : ∀ e ∈ part, e.fallible = true) (hk : k < part.length) (hf : FirstFailAt (answersTaken lead + k) s) :
    ∃ t pre e gs tail, exec i s = .next t ∧ part = pre ++ e :: gs ∧ pre.length = k ∧ StoppedAt s t lead pre e tail := by
  have hpart : answersTaken part = part.length := answersTaken_of_fallible hfallible
  obtain ⟨pre, e, fs, tail, hes, he, htaken, htail, hstop⟩ := (FollowsOn.of_runs hi hbody).stops s _ rfl hf
    (by rw [answersTaken_append, answersTaken_append]; omega)
  obtain ⟨p, rfl, hp⟩ := stop_after hes he (by omega)
  rw [answersTaken_append, Nat.add_left_cancel_iff] at htaken
  obtain ⟨gs, rfl⟩ := stop_within hp (by omega)
  have hlength : p.length = k := by
    rw [← htaken, answersTaken_of_fallible fun x hx => hfallible x (by simp [hx])]
  have hentries : okEntries (lead ++ p) ++ ⟨e, .fail⟩ :: tail = okEntries lead ++ (okEntries p ++ ⟨e, .fail⟩ :: tail) := by
    simp [okEntries]
  rw [hentries] at hstop
  refine ⟨_, p, e, gs, tail, exec_body ha hsuits, rfl, hlength, ?_⟩
  rw [hstop]
  exact
    { finish_extendsBy s _ _ _ with
      released := htail.one
      response := rfl
      halted := by rw [finish_halted]; simp
      line := fun l => by rw [finish_line, applyEntries_line, lineFrom_append] }

/-! ## What the receiver hears until then -/

/-- A command, the events `mid`, and another command. -/
def betweenEvents (link : LinkStyle) (first : Byte) (mid : List Event) (last : Byte) : List Event :=
  commandEvents link first ++ mid ++ commandEvents link last

theorem commandsEvents_fallible (link : LinkStyle) (bs : List Byte) : ∀ e ∈ commandsEvents link bs, e.fallible = true := by
  intro e he
  obtain ⟨b, -, he⟩ := List.mem_flatMap.1 he
  exact windowEvents_fallible link false [b] e he

theorem commandsEvents_length (link : LinkStyle) (bs : List Byte) :
    (commandsEvents link bs).length = bs.length * (commandEvents link 0x00#8).length := by
  simp [commandsEvents, List.length_flatMap, commandEvents_length link _ 0x00#8]

theorem betweenEvents_length (link : LinkStyle) (first : Byte) (mid : List Event) (last : Byte) :
    (betweenEvents link first mid last).length = 2 * (commandEvents link 0x00#8).length + mid.length := by
  simp only [betweenEvents, List.length_append, commandEvents_length link _ 0x00#8]
  omega

theorem betweenEvents_fallible {link : LinkStyle} {mid : List Event} (h : ∀ e ∈ mid, e.fallible = true) (first last : Byte) :
    ∀ e ∈ betweenEvents link first mid last, e.fallible = true := by
  simp only [betweenEvents, List.forall_mem_append]
  exact ⟨⟨windowEvents_fallible link false [first], h⟩, windowEvents_fallible link false [last]⟩

theorem commandEvents_length_ge (link : LinkStyle) (b : Byte) : 2 ≤ (commandEvents link b).length := by
  rw [commandEvents, windowEvents_length]
  omega

section
variable {link : LinkStyle} {first last : Byte} {mid pre gs : List Event} {fs : List Frame} {e : Event} {s : Scan}

theorem scan_snoc (style : DcStyle) (s : Scan) (pre : List Event) (e : Event) :
    (scan style s (pre ++ [e])).2 = (scan style s pre).2 ++ (scanEvent style (scan style s pre).1 e).2 := by
  simp [scan_append, scan]

/-- What has been shown when only the last command is under way. -/
theorem scan_between_take (hmid : Shows link mid fs) (hs : s.clk = false) (m : Nat) :
    (scan link.dcStyle s (commandEvents link first ++ mid ++ (commandEvents link last).take m)).2 = commandFrame first :: fs ++
      (scan link.dcStyle (scan link.dcStyle s (commandEvents link first ++ mid)).1 ((commandEvents link last).take m)).2 := by
  have hshows := (Shows.command link first).append hmid
  rw [scan_append, hshows.frames s hs, List.singleton_append]

/-- The events up to some of the last command are the first ones of all. -/
theorem between_take_prefix (m : Nat) :
    commandEvents link first ++ mid ++ (commandEvents link last).take m <+: betweenEvents link first mid last :=
  (List.prefix_append_right_inj _).2 (List.take_prefix _ _)

/-- Before the event that delivers the last command, the first command and some of the frames between have been heard, and the next
event delivers some of those at most. -/
theorem scan_between_early (hmid : Shows link mid fs) (hs : s.clk = false) (hes : betweenEvents link first mid last = pre ++ e :: gs)
    (hlo : (commandEvents link first).length - 1 ≤ pre.length)
    (hhi : pre.length + 3 ≤ (betweenEvents link first mid last).length) :
    ∃ heard, (scan link.dcStyle s pre).2 = commandFrame first :: heard ∧
      heard ++ (scanEvent link.dcStyle (scan link.dcStyle s pre).1 e).2 <+: fs := by
  have hpre : pre ++ [e] <+: betweenEvents link first mid last := ⟨gs, by simp [hes]⟩
  have hopened : (commandEvents link first).take ((commandEvents link first).length - 1) <+: pre :=
    List.prefix_of_prefix_length_le ((List.take_prefix _ _).trans ⟨mid ++ commandEvents link last, by simp [betweenEvents]⟩)
      ((List.prefix_append _ _).trans hpre) (by rw [List.length_take]; omega)
  have hclosing : pre ++ [e] <+:
      commandEvents link first ++ mid ++ (commandEvents link last).take ((commandEvents link last).length - 2) :=
    List.prefix_of_prefix_length_le hpre (between_take_prefix _) (by simp [betweenEvents] at hhi ⊢; omega)
  obtain ⟨heard, hheard⟩ := scan_prefix link.dcStyle s hopened
  rw [scan_command_delivered link first s hs, List.singleton_append] at hheard
  have hall := scan_prefix link.dcStyle s hclosing
  rw [scan_between_take hmid hs, scan_command_short, List.append_nil, scan_snoc, ← hheard, List.cons_append] at hall
  exact ⟨heard, hheard.symm, (List.cons_prefix_cons.1 hall).2⟩

/-- At the event that delivers the last command, everything before that command has been heard. -/
theorem scan_between_last (hmid : Shows link mid fs) (hs : s.clk = false) (hes : betweenEvents link first mid last = pre ++ e :: gs)
    (hlast : pre.length + 2 = (betweenEvents link first mid last).length) :
    (scan link.dcStyle s pre).2 = commandFrame first :: fs ∧
      (scanEvent link.dcStyle (scan link.dcStyle s pre).1 e).2 = [commandFrame last] := by
  have hn := commandEvents_length_ge link last
  have eq_take {xs : List Event} {m : Nat} (hm : m ≤ 2) (hxs : xs <+: betweenEvents link first mid last)
      (hlen : xs.length + m = (betweenEvents link first mid last).length) :
      xs = commandEvents link first ++ mid ++ (commandEvents link last).take ((commandEvents link last).length - m) := by
    have hlen' : xs.length =
        (commandEvents link first ++ mid ++ (commandEvents link last).take ((commandEvents link last).length - m)).length := by
      simp [betweenEvents] at hlen ⊢
      omega
    exact (List.prefix_of_prefix_length_le hxs (between_take_prefix _) hlen'.le).eq_of_length hlen'
  have hpre := eq_take (m := 2) le_rfl ⟨e :: gs, hes.symm⟩ hlast
  have hpre' := eq_take (xs := pre ++ [e]) (m := 1) (by omega) ⟨gs, by simp [hes]⟩ (by simp; omega)
  have hheard : (scan link.dcStyle s pre).2 = commandFrame first :: fs := by
    rw [hpre, scan_between_take hmid hs, scan_command_short, List.append_nil]
  have hdelivered := scan_snoc link.dcStyle s pre e
  rw [hpre', scan_between_take hmid hs, scan_command_delivered _ _ _ (((Shows.command link first).append hmid).clk s hs),
    hheard] at hdelivered
  exact ⟨hheard, (List.append_cancel_left hdelivered).symm⟩

end

/-! ## The controller until then -/

/-- The receiver `r` is in step for a first command, the events `mid` and a last command; the first command makes a controller that
meets `P`, and the frames of `mid` keep `P`. -/
structure HoldsBetween (c : Config) (P : Controller → Prop) (first : Byte) (mid : List Event) (last : Byte) (r : Receiver) : Prop where
  ready : r.Ready
  longer : r.Longer (betweenEvents c.link first mid last).length
  fallible : ∀ e ∈ mid, e.fallible = true
  opens : P (r.controller.hear c (commandFrame first))
  keeps : ∃ fs, Shows c.link mid fs ∧ ∀ f ∈ fs, ∀ k, P k → P (k.hear c f)
  meet : ∀ k j, P k → P j → P (k.meet j)

/-- The controller after a stop at the event number `n` of such a sequence of `m` events: until the one that delivers the last command
`P` still holds, and where that one fails it is not known whether the command was heard. -/
structure LeftBetween (c : Config) (P : Controller → Prop) (last : Byte) (n m : Nat) (k : Controller) : Prop where
  early : n + 3 ≤ m → P k
  delivering : n + 2 = m → ∃ j, P j ∧ k = j.meet (j.hear c (commandFrame last))

section
variable {c : Config} {P : Controller → Prop} {first last : Byte} {mid : List Event}

theorem HoldsBetween.noRst {r : Receiver} (h : HoldsBetween c P first mid last r) :
    ∀ e ∈ betweenEvents c.link first mid last, ∀ v, e ≠ .set .rst v := by
  obtain ⟨fs, hmid, -⟩ := h.keeps
  exact (((Shows.command c.link first).append hmid).append (Shows.command c.link last)).noRst

/-- No INIT ends before the failed event. -/
theorem HoldsBetween.longer_until {r : Receiver} (h : HoldsBetween c P first mid last r) {pre gs : List Event} {e : Event}
    (hes : betweenEvents c.link first mid last = pre ++ e :: gs) : r.Longer pre.length := by
  intro left told hp
  have hlt := h.longer left told hp
  rw [hes, List.length_append] at hlt
  omega

/-- Where such a sequence stops after its first command was delivered. -/
theorem HoldsBetween.stop {r : Receiver} (h : HoldsBetween c P first mid last r) {pre gs : List Event} {e : Event}
    {tail : List TraceEntry} (hes : betweenEvents c.link first mid last = pre ++ e :: gs)
    (htail : tail = [] ∨ ∃ a, tail = [⟨.set .cs true, a⟩]) (hlo : (commandEvents c.link first).length - 1 ≤ pre.length)
    {r' : Receiver} (hr' : r' = (okEntries pre ++ ⟨e, .fail⟩ :: tail).foldl (Receiver.entry c) r) :
    LeftBetween c P last pre.length (betweenEvents c.link first mid last).length r'.controller ∧ r'.Settled ∧
      (r'.phase = .done ↔ r.phase = .done) := by
  obtain ⟨fs, hmid, hkeeps⟩ := h.keeps
  have hclk := h.ready.2.2
  have noRst := h.noRst
  obtain ⟨hcontroller, hsettled, hphase⟩ := stop_controller c r h.ready pre (h.longer_until hes) e tail
    (fun x hx => noRst x (by rw [hes]; simp [hx]) _) (noRst e (by rw [hes]; simp)) htail
  subst hr'
  refine ⟨⟨fun hhi => ?_, fun hlast => ?_⟩, hsettled, hphase⟩
  · obtain ⟨heard, hpre, hprefix⟩ := scan_between_early hmid hclk hes hlo hhi
    have hsub := hprefix.subset
    rw [hcontroller, hpre, List.foldl_cons]
    exact mayHear_keeps c P h.meet _ (fun f hf => hkeeps f (hsub (List.mem_append_right _ hf)))
      (hears_keep c P heard (fun f hf => hkeeps f (hsub (List.mem_append_left _ hf))) h.opens)
  · obtain ⟨hpre, hevent⟩ := scan_between_last hmid hclk hes hlast
    rw [hcontroller, hpre, hevent, List.foldl_cons]
    exact ⟨_, hears_keep c P fs hkeeps h.opens, rfl⟩

/-- An instruction that fails in such a sequence after the first command was delivered and before the last one was. -/
theorem exec_fails_between {i : Instr} {s : State} {lead rest : List Event} {k : Nat} (ha : Accepts i s) (hsuits : suitsOf i = true)
    (hi : ∀ b, i ≠ .shiftByte b)
    (hbody : Runs s.cfg (bodyOf i) (lead ++ (betweenEvents s.cfg.link first mid last ++ rest)))
    (h : HoldsBetween s.cfg P first mid last ((okEntries lead).foldl (Receiver.entry s.cfg) (receiverAfter s.cfg s.trace)))
    (hlo : (commandEvents s.cfg.link 0x00#8).length - 1 ≤ k) (hhi : k + 2 ≤ (betweenEvents s.cfg.link first mid last).length)
    (hf : FirstFailAt (answersTaken lead + k) s) :
    ∃ t pre e gs tail, exec i s = .next t ∧ betweenEvents s.cfg.link first mid last = pre ++ e :: gs ∧
      StoppedAt s t lead pre e tail ∧
      LeftBetween s.cfg P last k (betweenEvents s.cfg.link first mid last).length (receiverAfter t.cfg t.trace).controller ∧
      (receiverAfter t.cfg t.trace).Settled ∧ ((receiverAfter t.cfg t.trace).phase = .done ↔
        ((okEntries lead).foldl (Receiver.entry s.cfg) (receiverAfter s.cfg s.trace)).phase = .done) := by
  obtain ⟨t, pre, e, gs, tail, hexec, hes, rfl, hstop⟩ := exec_stops_within ha hsuits hi hbody
    (betweenEvents_fallible h.fallible first last) (by omega) hf
  rw [← commandEvents_length _ first] at hlo
  exact ⟨t, pre, e, gs, tail, hexec, hes, hstop,
    h.stop hes hstop.released hlo (hstop.toExtendsBy.receiver.trans List.foldl_append)⟩

end

end Sys2Proof.Machine
end

section
/-! PROOF. `B_DRAW_BUFFER` that fails between its two addressing commands leaves vertical addressing on (R294). -/

namespace Sys2Proof.Machine

/-! ## Before the operation -/

/-- What `BasicReady` says of the receiver itself. -/
theorem BasicReady.receiver {s : State} (h : BasicReady s) : (receiverAfter s.cfg s.trace).phase = .done ∧
    (receiverAfter s.cfg s.trace).controller.InSet .basic := by
  obtain ⟨-, hdescribed, hset⟩ := h
  obtain ⟨hphase, hcontroller⟩ := (known_described _).1 hdescribed
  exact ⟨hphase, hcontroller, (known_set _).symm.trans hset⟩

theorem longer_of_done {r : Receiver} (h : r.phase = .done) (n : Nat) : r.Longer n := by
  intro left told hp
  cases h.symm.trans hp

theorem Controller.InSet.meet {set : InstrSet} {k j : Controller} (hk : k.InSet set) (hj : j.InSet set) : (k.meet j).InSet set := by
  obtain ⟨hk, hkset⟩ := hk
  obtain ⟨hj, hjset⟩ := hj
  exact ⟨meet_described hk hj, by rw [meet_set hk hj, hkset, hjset, agree_self]⟩

/-! ## Vertical addressing -/

/-- The basic set is in force with vertical addressing. -/
def Controller.Vertical (k : Controller) : Prop := k.InSet .basic ∧ k.vertical = some true

theorem Controller.Vertical.meet {k j : Controller} (hk : k.Vertical) (hj : j.Vertical) : (k.meet j).Vertical := by
  obtain ⟨hk, hkvert⟩ := hk
  obtain ⟨hj, hjvert⟩ := hj
  exact ⟨hk.meet hj, by rw [meet_vertical hk.1 hj.1, hkvert, hjvert, agree_self]⟩

/-- A row that leaves the addressing alone is read alike whatever the addressing. -/
theorem ReadsAs.vertical {c : Config} {b : Byte} {i : Instr} (h : ReadsAs c (Controller.InSet .basic) b i)
    (hi : ∀ k : Controller, (k.command i).vertical = k.vertical) : ReadsAs c Controller.Vertical b i := fun k ⟨hk, hvert⟩ =>
  ⟨(h k hk).1, (h k hk).2, (hi k).trans hvert⟩

/-- The frames of a drawing between its two addressing commands keep vertical addressing. -/
theorem draw_keeps_vertical {c : Config} (hv : c.variant = .b) (h40 : 0x40#8 ≠ c.bExtEnter) (h80 : 0x80#8 ≠ c.bExtEnter)
    (buf : List Byte) : ∀ f ∈ [0x40#8, 0x80#8].map commandFrame ++ buf.map dataFrame, ∀ k : Controller, k.Vertical →
      (k.hear c f).Vertical := by
  have hpage : ReadsAs c Controller.Vertical 0x40#8 (.cmdBSetPage 0) := (readsAs_basic hv h40 rfl rfl).vertical fun _ => rfl
  have hcol : ReadsAs c Controller.Vertical 0x80#8 (.cmdBSetCol 0) := (readsAs_basic hv h80 rfl rfl).vertical fun _ => rfl
  intro f hf k hk
  obtain hf | hf := List.mem_append.1 hf
  · exact rows_keep (.cons hpage (.cons hcol .nil)) f hf k hk
  · obtain ⟨x, -, rfl⟩ := List.mem_map.1 hf
    rw [hear_data]
    exact hk

/-- 0x22 selects vertical addressing, on a controller in its basic set (R70). -/
theorem hear_vertical {c : Config} (hv : c.variant = .b) (h22 : 0x22#8 ≠ c.bExtEnter) {k : Controller} (hk : k.InSet .basic) :
    (k.hear c (commandFrame 0x22#8)).Vertical := by
  obtain ⟨hhear, hinSet⟩ := readsAs_basic (i := .cmdBFunction 1 0) hv h22 rfl rfl k hk
  rw [hhear]
  exact ⟨hinSet, rfl⟩

/-- Whether 0x20 was heard decides the addressing. -/
theorem meet_horizontal {c : Config} (hv : c.variant = .b) (h20 : 0x20#8 ≠ c.bExtEnter) {k : Controller} (hk : k.Vertical) :
    (k.meet (k.hear c (commandFrame 0x20#8))).described = true ∧ (k.meet (k.hear c (commandFrame 0x20#8))).vertical = none := by
  obtain ⟨hinSet, hvert⟩ := hk
  obtain ⟨hhear, hinSet'⟩ := readsAs_basic (i := .cmdBFunction 0 0) hv h20 rfl rfl k hinSet
  rw [hhear]
  refine ⟨meet_described hinSet.1 hinSet'.1, ?_⟩
  rw [meet_vertical hinSet.1 hinSet'.1, hvert]
  rfl

/-- The events between the two addressing commands of a drawing (R165). -/
def drawMiddle (link : LinkStyle) (buf : List Byte) : List Event := commandsEvents link [0x40#8, 0x80#8] ++ dataEvents link buf

theorem drawEvents_eq_between (c : Config) (buf : List Byte) : drawEvents c buf =
    betweenEvents c.link 0x22#8 (drawMiddle c.link buf) 0x20#8 ++ commandsEvents c.link [0x40#8, 0x80#8] := by
  simp [drawEvents, betweenEvents, drawMiddle, commandsEvents_cons]

/-- A receiver in step with a controller in its basic set keeps vertical addressing between the two commands. -/
theorem holdsBetween_draw {s : State} (hv : s.cfg.variant = .b) (hbasic : BasicReady s) (h22 : 0x22#8 ≠ s.cfg.bExtEnter)
    (h40 : 0x40#8 ≠ s.cfg.bExtEnter) (h80 : 0x80#8 ≠ s.cfg.bExtEnter) (buf : List Byte) :
    HoldsBetween s.cfg Controller.Vertical 0x22#8 (drawMiddle s.cfg.link buf) 0x20#8 (receiverAfter s.cfg s.trace) where
  ready := hbasic.1
  longer := longer_of_done hbasic.receiver.1 _
  fallible := List.forall_mem_append.2 ⟨commandsEvents_fallible _ _, windowEvents_fallible _ _ _⟩
  opens := hear_vertical hv h22 hbasic.receiver.2
  keeps := ⟨_, (Shows.commands _ _).append (Shows.data _ buf), draw_keeps_vertical hv h40 h80 buf⟩
  meet := fun _ _ => Controller.Vertical.meet

/-- Settles O60: vertical addressing holds from 0x22 on until 0x20 is delivered, and is not known where that event fails. -/
theorem failedDrawStaysVertical : Obligations.FailedDrawStaysVertical := by
  intro s buf k n d hrun hv hbasic hlen henter hn hd hlo hhi hf
  simp only [List.forall_mem_cons, List.not_mem_nil, false_implies, implies_true, and_true] at henter
  obtain ⟨h22, h40, h80, h20⟩ := henter
  have hge := commandEvents_length_ge s.cfg.link 0x00#8
  have hlength : (betweenEvents s.cfg.link 0x22#8 (drawMiddle s.cfg.link buf) 0x20#8).length = 4 * n + d := by
    rw [betweenEvents_length, drawMiddle, List.length_append, commandsEvents_length, ← hn, ← hd]
    simp only [List.length_cons, List.length_nil]
    omega
  obtain ⟨t, _, _, _, _, hexec, -, hstop, hleft, -, hphase⟩ := exec_fails_between (i := .bDrawBuffer buf) (lead := []) (k := k)
    (accepts_of_home rfl hrun hv) (fitsFrame_iff.2 hlen) (by simp)
    ((bDrawBuffer_runs s.cfg hv buf).of_eq (drawEvents_eq_between _ _)) (holdsBetween_draw hv hbasic h22 h40 h80 buf)
    (by omega) (by omega) (by simpa using hf)
  rw [hlength] at hleft
  have hknown : t.controller = (receiverAfter t.cfg t.trace).controller := known_done (hphase.2 hbasic.receiver.1)
  rw [← hknown] at hleft
  have hearly (hk : k ≤ 4 * n + d - 3) : t.controller.Vertical := hleft.early (by omega)
  have hdelivering (hk : k = 4 * n + d - 2) : t.controller.described = true ∧ t.controller.vertical = none := by
    obtain ⟨j, hj, hmeet⟩ := hleft.delivering (by omega)
    rw [hmeet]
    exact meet_horizontal hv h20 hj
  refine ⟨t, hexec, hstop.response, ?_, fun hk => (hearly hk).2, fun hk => (hdelivering hk).2⟩
  obtain hk | hk : k ≤ 4 * n + d - 3 ∨ k = 4 * n + d - 2 := by omega
  · exact (hearly hk).1.1
  · exact (hdelivering hk).1

end Sys2Proof.Machine
end

section
/-! PROOF. A coefficients bracket that fails open leaves the extended set in force (R293). -/

namespace Sys2Proof.Machine

/-! ## The bracket -/

/-- The coefficient commands between the entry and the exit command (R162). -/
def coeffMiddle (link : LinkStyle) (v t b : Byte) : List Event := commandsEvents link [0x80#8 ||| v, 0x04#8 ||| t, 0x10#8 ||| b]

theorem bracket_eq_between (c : Config) (v t b : Byte) :
    commandsEvents c.link (coeffBytes c v t b) = betweenEvents c.link c.bExtEnter (coeffMiddle c.link v t b) c.bExtExit := by
  simp [coeffBytes, betweenEvents, coeffMiddle, commandsEvents_cons]

theorem bracket_length (c : Config) (v t b : Byte) :
    (betweenEvents c.link c.bExtEnter (coeffMiddle c.link v t b) c.bExtExit).length = 5 * (commandEvents c.link 0x00#8).length := by
  rw [← bracket_eq_between, commandsEvents_length]
  rfl

/-- Whether the exit command was heard decides the instruction set. -/
theorem meet_exit {c : Config} (hv : c.variant = .b) {k : Controller} (hk : k.InSet .extended) :
    (k.meet (k.hear c (commandFrame c.bExtExit))).described = true ∧ (k.meet (k.hear c (commandFrame c.bExtExit))).set = none := by
  rw [hear_exit hv hk]
  obtain ⟨hdescribed, hset⟩ := hk
  have hset' : (k.meet { k with set := some .basic }).set = agree k.set (some .basic) := meet_set hdescribed hdescribed
  exact ⟨meet_described hdescribed hdescribed, by rw [hset', hset]; rfl⟩

/-- From the entry command to the exit command a receiver in step with a controller in its basic set has it in the extended set. -/
theorem holdsBetween_bracket {c : Config} (hv : c.variant = .b) {v t b : Byte} (hvolt : v.toNat < 91) (htemp : t.toNat < 4)
    (hbias : b.toNat < 8) (hexit : ∀ y ∈ [0x80#8 ||| v, 0x04#8 ||| t, 0x10#8 ||| b], y ≠ c.bExtExit) {r : Receiver} (hready : r.Ready)
    (hlonger : r.Longer (commandsEvents c.link (coeffBytes c v t b)).length) (hbasic : r.controller.InSet .basic) :
    HoldsBetween c (Controller.InSet .extended) c.bExtEnter (coeffMiddle c.link v t b) c.bExtExit r where
  ready := hready
  longer := bracket_eq_between c v t b ▸ hlonger
  fallible := commandsEvents_fallible _ _
  opens := hear_enter_inSet hv hbasic
  keeps := ⟨_, Shows.commands _ _, rows_keep (readsAs_coefficients hv hvolt htemp hbias hexit)⟩
  meet := fun _ _ => Controller.InSet.meet

/-! ## The operations that send it -/

/-- What `B_POWER_UP` emits after the bracket (R166). -/
def afterBracketEvents (c : Config) : List Event := commandEvents c.link 0x0C#8 ++ clearEvents c

theorem powerUpEventsB_eq (c : Config) (v t b : Byte) :
    powerUpEventsB c v t b = commandsEvents c.link (coeffBytes c v t b) ++ afterBracketEvents c := by
  simp [powerUpEventsB, afterBracketEvents, commandsEvents_append, commandsEvents_cons]

theorem bracket_lt_powerUp (c : Config) (v t b : Byte) :
    (commandsEvents c.link (coeffBytes c v t b)).length < (powerUpEventsB c v t b).length := by
  have hge := commandEvents_length_ge c.link 0x0C#8
  simp only [powerUpEventsB_eq, afterBracketEvents, List.length_append]
  omega

/-- A receiver in step before the reset pulse is so after it, with the power-up of an INIT to come. -/
theorem receiver_pulsed {c : Config} (hv : c.variant = .b) {r : Receiver} (h : r.Ready) (v t b : Byte) :
    (okEntries (pulseEvents c)).foldl (Receiver.entry c) r =
      inStep Scan.start Controller.afterPulse (.running (powerUpEventsB c v t b).length Controller.afterPulse) := by
  have hleft := initLeft_of_variant_b hv v t b
  have hlonger' := bracket_lt_powerUp c v t b
  have hlonger : (inStep Scan.start Controller.afterPulse (.running (initLeft c) Controller.afterPulse)).Longer
      (afterPulseEvents c []).length := by
    rintro left told ⟨⟩
    simp only [afterPulseEvents, List.append_nil, List.length_cons, List.length_nil]
    omega
  obtain ⟨r', hr', hpulse⟩ := receiver_pulse c r []
  have hfold := hpulse []
  rw [List.append_nil, List.append_nil, List.append_nil, pulse_ready c (hr' h),
    receiver_ok c _ (afterPulseEvents_noPulse (by simp)) _ _ _ hlonger, scan_afterPulse] at hfold
  rw [hfold]
  simp [scan, InitPhase.after, afterPulseEvents, hleft]

/-- Each of the three operations begins with `lead`, which is its reset pulse or nothing, and goes on with the bracket, for which the
receiver is in step with a controller in its basic set. -/
theorem sendsBracket_holdsBetween {i : Instr} {s : State} {v x b : Byte} {before : Nat} (h : SendsBracket i v x b before)
    (hv : s.cfg.variant = .b) (hready : (receiverAfter s.cfg s.trace).Ready) (hbasic : before = 0 → BasicReady s)
    (hvolt : v.toNat < 91) (htemp : x.toNat < 4) (hbias : b.toNat < 8)
    (hexit : ∀ y ∈ [0x80#8 ||| v, 0x04#8 ||| x, 0x10#8 ||| b], y ≠ s.cfg.bExtExit) : ∃ lead rest, answersTaken lead = before ∧
      Runs s.cfg (bodyOf i)
        (lead ++ (betweenEvents s.cfg.link s.cfg.bExtEnter (coeffMiddle s.cfg.link v x b) s.cfg.bExtExit ++ rest)) ∧
      HoldsBetween s.cfg (Controller.InSet .extended) s.cfg.bExtEnter (coeffMiddle s.cfg.link v x b) s.cfg.bExtExit
        ((okEntries lead).foldl (Receiver.entry s.cfg) (receiverAfter s.cfg s.trace)) ∧
      (((okEntries lead).foldl (Receiver.entry s.cfg) (receiverAfter s.cfg s.trace)).phase = .done ↔ before = 0) := by
  have hholds {r : Receiver} := holdsBetween_bracket (r := r) hv hvolt htemp hbias hexit
  have hcoeffs := bSetCoeffs_runs s.cfg hvolt htemp hbias
  have hpowerUp := bPowerUp_runs s.cfg hvolt htemp hbias
  have hinit := bInit_runs s.cfg hvolt htemp hbias
  rw [powerUpEventsB_eq] at hpowerUp hinit
  rw [← bracket_eq_between]
  obtain ⟨rfl, hi⟩ | ⟨rfl, rfl⟩ := h
  · obtain ⟨hphase, hinSet⟩ := (hbasic rfl).receiver
    have hr := hholds hready (longer_of_done hphase _) hinSet
    obtain rfl | rfl := hi
    · exact ⟨[], [], rfl, hcoeffs.of_eq (List.append_nil _).symm, hr, iff_of_true hphase rfl⟩
    · exact ⟨[], afterBracketEvents s.cfg, rfl, hpowerUp, hr, iff_of_true hphase rfl⟩
  · refine ⟨pulseEvents s.cfg, afterBracketEvents s.cfg, rfl, hinit, ?_, ?_⟩
    · rw [receiver_pulsed hv hready v x b]
      refine hholds ⟨rfl, rfl, rfl⟩ ?_ ⟨rfl, rfl⟩
      rintro left told ⟨⟩
      exact bracket_lt_powerUp s.cfg v x b
    · rw [receiver_pulsed hv hready v x b]
      simp

/-- All three are operations of variant B without a payload. -/
theorem sendsBracket_home {i : Instr} {v x b : Byte} {before : Nat} (h : SendsBracket i v x b before) :
    i.home = some .b ∧ suitsOf i = true ∧ ∀ y, i ≠ .shiftByte y := by
  obtain ⟨-, rfl | rfl⟩ | ⟨-, rfl⟩ := h
  · exact ⟨rfl, rfl, by simp⟩
  · exact ⟨rfl, rfl, by simp⟩
  · exact ⟨rfl, rfl, by simp⟩

/-! ## A column command afterwards -/

/-- A bracket that failed leaves the receiver in step where the clock is not left unspecified and chip-select was released (R290, R292). -/
theorem StoppedAt.ready {s t : State} {v x b : Byte} {lead pre gs : List Event} {e : Event} {tail : List TraceEntry}
    (hstop : StoppedAt s t lead pre e tail)
    (hes : betweenEvents s.cfg.link s.cfg.bExtEnter (coeffMiddle s.cfg.link v x b) s.cfg.bExtExit = pre ++ e :: gs)
    (h : HoldsBetween s.cfg (Controller.InSet .extended) s.cfg.bExtEnter (coeffMiddle s.cfg.link v x b) s.cfg.bExtExit
      ((okEntries lead).foldl (Receiver.entry s.cfg) (receiverAfter s.cfg s.trace)))
    (hcs : t.cs = .level true) (hclk : t.clk ≠ .unspecified) : (receiverAfter t.cfg t.trace).Ready := by
  rw [hstop.toExtendsBy.receiver, List.foldl_append]
  exact stop_ready s.cfg _ h.ready (bracket_eq_between s.cfg v x b ▸ InWindows.commands _ _)
    (bracket_eq_between s.cfg v x b ▸ ClockTidy.commands _ _) pre gs (h.longer_until hes) e tail hes h.noRst hstop.released _ _
    ((hstop.line .cs).symm.trans hcs) (fun hz => hclk ((hstop.line .clk).trans hz))

/-- In the extended set `B_SET_COLUMN` sets the voltage coefficient (R293). -/
theorem exec_setColumn_extended {t : State} (hrun : t.halted = false) (hv : t.cfg.variant = .b)
    (hready : (receiverAfter t.cfg t.trace).Ready) (hsettled : (receiverAfter t.cfg t.trace).Settled)
    (hset : (receiverAfter t.cfg t.trace).controller.InSet .extended) {col : Byte} (hcol : col.toNat < 84)
    (hexit : 0x80#8 ||| col ≠ t.cfg.bExtExit) (hok : AnswersOk (commandEvents t.cfg.link (0x80#8 ||| col)) t) :
    ∃ u, exec (.bSetColumn col) t = .next u ∧ u.controller.voltage = some col.toNat ∧ u.controller.set = some .extended := by
  obtain ⟨hheard, -, -⟩ := receiver_shows (Shows.command t.cfg.link (0x80#8 ||| col)) hready hsettled
  obtain ⟨hhear, hset'⟩ := readsAs_voltage hv (hcol.trans (by decide)) hexit _ hset
  rw [List.foldl_cons, List.foldl_nil, hhear] at hheard
  refine ⟨_, exec_encoder_ok rfl rfl hrun hv (bSetColumn_runs t.cfg hcol) hok, ?_, ?_⟩
  · rw [(afterOk_extendsBy t _).controller, known_voltage (hheard ▸ hset'.2), hheard]
    exact congrArg some (toNat_field (n := 7) (hcol.trans (by decide)))
  · rw [(afterOk_extendsBy t _).controller, known_set, hheard]
    exact hset'.2

/-! ## The claim -/

/-- Settles O59: the extended set is in force from the entry command on until the exit command is delivered, and not known where that event
fails; inside `B_INIT` nothing else is known. -/
theorem failedBracketStaysExtended : Obligations.FailedBracketStaysExtended := by
  intro s i v x b k n before hrun hv hsends hready hbasic hvolt htemp hbias hexit hn hlo hhi hf
  obtain ⟨lead, rest, rfl, hbody, hholds, hdone⟩ := sendsBracket_holdsBetween hsends hv hready hbasic hvolt htemp hbias hexit
  obtain ⟨hhome, hsuits, hi⟩ := sendsBracket_home hsends
  have hge := commandEvents_length_ge s.cfg.link 0x00#8
  have hlength := bracket_length s.cfg v x b
  rw [← hn] at hlength
  obtain ⟨t, pre, e, gs, tail, hexec, hes, hstop, hleft, hsettled, hphase⟩ := exec_fails_between (accepts_of_home hhome hrun hv)
    hsuits hi hbody hholds (by omega) (by omega) hf
  rw [hlength] at hleft
  have hknown : t.controller = (receiverAfter t.cfg t.trace).known := rfl
  have hearly (hk : k ≤ 5 * n - 3) : (receiverAfter t.cfg t.trace).controller.InSet .extended := hleft.early (by omega)
  have hdelivering (hk : k = 5 * n - 2) : (receiverAfter t.cfg t.trace).controller.described = true ∧
      (receiverAfter t.cfg t.trace).controller.set = none := by
    obtain ⟨j, hj, hmeet⟩ := hleft.delivering (by omega)
    rw [hmeet]
    exact meet_exit hv hj
  refine ⟨t, hexec, hstop.response, fun h0 => ?described, fun h3 => ?undescribed, fun hk => ⟨?extended, ?column⟩,
    fun hk => ?unknownSet⟩
  case described =>
    refine (known_described _).2 ⟨hphase.2 (hdone.2 h0), ?_⟩
    obtain hk | hk : k ≤ 5 * n - 3 ∨ k = 5 * n - 2 := by omega
    · exact (hearly hk).1
    · exact (hdelivering hk).1
  case undescribed =>
    rw [hknown, known_partly fun hp => by simpa [h3] using hdone.1 (hphase.1 hp)]
    exact ⟨rfl, rfl, rfl, rfl, rfl⟩
  case extended => rw [hknown, known_set]; exact (hearly hk).2
  case column =>
    intro col hcol hcolExit hcs hclk hok
    rw [← hstop.cfg] at hv hcolExit hok
    have hreadyAgain := hstop.ready hes hholds hcs hclk
    exact exec_setColumn_extended (hstop.halted.trans hrun) hv hreadyAgain hsettled (hearly hk) hcol hcolExit hok
  case unknownSet => rw [hknown, known_set]; exact (hdelivering hk).2

end Sys2Proof.Machine
end

section
/-! PROOF. Block reset: what it leaves, and the next request after it (R33, R280). -/

namespace Sys2Proof.Machine

/-- A block that is not halted does not refuse an instruction as if it were. -/
theorem exec_not_refusedHalted {i : Instr} {s : State} (hrun : s.halted = false) :
    ∃ t o, exec i s = .next t ∧ t.response = some o ∧ o.outcome ≠ .refusedHalted := by
  obtain ⟨hh, -⟩ | ⟨-, -, hexec⟩ | ⟨-, -, hexec⟩ | ⟨ts, r, -, -, -, hexec⟩ := exec_cases i s
  · simp [hrun] at hh
  · exact ⟨_, _, hexec, rfl, by simp⟩
  · exact ⟨_, _, hexec, rfl, by simp⟩
  · exact ⟨_, _, hexec, finish_response _ _ r,
      fun ho => responseOf_not_refusal _ r (.inr (.inr (.inr ho)))⟩

/-- Settles O52: the fields are those of `State.ofConfig`, and a block that is not halted performs the request that decodes. -/
theorem blockResetClearsHalted : Obligations.BlockResetClearsHalted := by
  intro s
  obtain ⟨hclk, hcs, hdata, hrst, hline, hinband, hhalted, htrace⟩ := resetValuesAsListed s.cfg
  refine ⟨hhalted, hclk, hcs, hdata, hrst, hline, hinband, htrace, rfl, fun r rest i hr hd => ?_⟩
  have hstep := stepRunsDecodedInstruction (blockReset s) r rest i hr hhalted hd
  obtain ⟨t, o, hexec, hresponse, hrefusal⟩ := exec_not_refusedHalted (i := i) (s := (blockReset s).withRequests rest) hhalted
  exact ⟨t, o, hstep.trans hexec, hstep, hresponse, hrefusal⟩

end Sys2Proof.Machine
end

section
/-! PROOF. A block that waits for a request (R281). -/

namespace Sys2Proof.Machine

/-- Settles O11: nothing is taken from an empty request port, so the step answers the state it began in. -/
theorem idleBlockWaits : Obligations.IdleBlockWaits :=
  fun _ hr => step_waits hr

end Sys2Proof.Machine
end
